-- ==== Sys2Proof/Word.lean ====
section
/-! DEFINITION. The word types of the LRC block (00_scope.md R11, 20_memory.md R83): every host access moves one
32-bit word, bit 0 the least significant, and every quantity is unsigned. -/

namespace Sys2Proof

/-- A 32-bit word (R11). -/
abbrev Word := BitVec 32

/-- An 8-bit field: a register address, a chip register value, a pattern byte (R11, R112). -/
abbrev Byte := BitVec 8

/-- A 4-bit identifier: hybrid, chip, line, link, local index (R120). -/
abbrev Nibble := BitVec 4

end Sys2Proof
end

