-- ==== Sys2Proof/Syntax.lean ====
section
/-! DEFINITION. What can be said to the block: the names of its registers, the instructions of
spec/opcode_table.json (22 transaction-word forms and 20 commands), the two ways an instruction reaches the block,
and the events that drive it. -/

namespace Sys2Proof

/-- The three encodings of a transaction word (30_encoding.md R111): legacy direct-address, slave-table-indexed,
optical-link-indexed. -/
inductive Variant where
  | leg
  | idx
  | opt
deriving DecidableEq, Repr, Inhabited

/-- The identity of a serial line, the triple (hybrid, chip, line) (00_scope.md R8, 30_encoding.md R134). -/
structure LineId where
  hybrid : Nibble
  chip   : Nibble
  line   : Nibble
deriving DecidableEq, Repr, Inhabited

/-- The named registers of the block, one constructor per name of 10_state.md R27 to R59. A name that is not here
cannot be resolved by the address table, so no access to it exists (R26, 93_implementation_defined.md U12). -/
inductive Reg where
  | busProtocolVersion
  | error
  | ctrlReset
  | codecCtrl
  | codecStat
  | mapAdd
  | mapSel
  | mapRd
  | encReq
  | encCount
  | encWord0
  | encWord1
  | decIn
  | decOut
  | cmdFifo
  | replyFifo
  | fifoStat
  | tuningCtrl
  | tuningReply
  | debugWords
  | opticalCtrl
  | opticalStat
  | roCnfg
  | roTimeoutPolls
  | roTrigCnfg
  | roEvsizeCnfg
  | roCtrl
  | roStat
  | roWordCount
  | roFrameCount
  | roData
  | roFrameOffs
  | roCursor
  | roPolls
  | roNoprog
deriving DecidableEq, Repr, Inhabited

/-- The instructions: one constructor per row of spec/opcode_table.json, in the table's order. The first 22 are the
transaction-word forms the bus agent dispatches (30_encoding.md R119, 40_codec.md R176); the other 20 are the
commands (R150). Every form carries the `value` byte of its word, a read request included: R117 leaves it
unconstrained there, and the word keeps it. -/
inductive Instr where
  | legWr   (hybrid chip : Nibble) (page : BitVec 1) (addr value : Byte)
  | legRd   (hybrid chip : Nibble) (page : BitVec 1) (addr value : Byte)
  | legRdb  (hybrid chip : Nibble) (page : BitVec 1) (addr value : Byte)
  | legBwr  (page : BitVec 1) (addr value : Byte)
  | legBrd  (page : BitVec 1) (addr value : Byte)
  | legBrdb (page : BitVec 1) (addr value : Byte)
  | idxWr   (gidx : Byte) (page : BitVec 1) (addr value : Byte)
  | idxWrv  (gidx : Byte) (page : BitVec 1) (addr value : Byte)
  | idxRd   (gidx : Byte) (page : BitVec 1) (addr value : Byte)
  | idxRdb  (gidx : Byte) (page : BitVec 1) (addr value : Byte)
  | idxBwr  (page : BitVec 1) (addr value : Byte)
  | idxBwrv (page : BitVec 1) (addr value : Byte)
  | idxBrd  (page : BitVec 1) (addr value : Byte)
  | idxBrdb (page : BitVec 1) (addr value : Byte)
  | optWr   (link lidx : Nibble) (page : BitVec 1) (addr value : Byte)
  | optWrv  (link lidx : Nibble) (page : BitVec 1) (addr value : Byte)
  | optRd   (link lidx : Nibble) (page : BitVec 1) (addr value : Byte)
  | optRdb  (link lidx : Nibble) (page : BitVec 1) (addr value : Byte)
  | optBwr  (page : BitVec 1) (addr value : Byte)
  | optBwrv (page : BitVec 1) (addr value : Byte)
  | optBrd  (page : BitVec 1) (addr value : Byte)
  | optBrdb (page : BitVec 1) (addr value : Byte)
  | sysReset
  | txcConfigure
  | txcFlush
  | txcMapadd (link hybrid chip : Nibble) (bw : BitVec 2) (busAddr : BitVec 7)
  | txcEnc (bcast write readback : BitVec 1) (hybrid chip : Nibble) (page : BitVec 1) (addr value : Byte)
  | txcDec (word : Word)
  | txcPush (word : Word)
  | txcPop
  | lnkGetcfg  (hybrid chip line : Nibble)
  | lnkGetstat (hybrid chip line : Nibble)
  | lnkSetmode (hybrid chip line : Nibble) (mode : BitVec 2) (delay : BitVec 5) (bitslip : BitVec 3)
  | lnkSetpat  (hybrid chip line : Nibble) (plen pat : Byte)
  | lnkDopa    (hybrid chip line : Nibble)
  | lnkDowa    (hybrid chip line : Nibble)
  | lnkCapture (hybrid chip line : Nibble)
  | lnkOptrst
  | lnkOptsel (link : Nibble)
  | roeReset
  | roeReadav
  | roeReadn (n : BitVec 28)
deriving DecidableEq, Repr

/-- How an instruction reaches the block. A command is the value of a host write to its port, or (TXC.POP) a host
read of `lrc.codec.reply_fifo` (30_encoding.md R110, R141); a transaction word is taken from the command queue by
the bus agent and read under the variant in force (R111). Bits alone do not name an instruction: the port, or the
variant, is part of the encoding (R130, R144). -/
inductive Issue where
  | write (port : Reg) (w : Word)
  | read (port : Reg)
  | dispatch (v : Variant) (w : Word)
deriving DecidableEq, Repr

/-- Why a decoder refuses, by name. -/
inductive Reject where
  /-- A command port's word with an unlisted code, a set must-be-0 bit or an illegal field value (R130, R142):
  the block raises E_ILLEGAL_CMD. -/
  | illegalCommand
  /-- The register written is no command port: the access is a plain register write (R26). -/
  | notAPort
  /-- The register read is not `lrc.codec.reply_fifo`: the access is a plain register read (R26). -/
  | notAPopPort
  /-- Transaction word with an opcode other than 0 and 2 (R116, R117 check 1). -/
  | reservedOpcode
  /-- Request with bit 18 set (R117 check 2). -/
  | failBitSet
  /-- Under LEG, a write value and a read-back request in one word (R117 check 3, R118). -/
  | legacyWriteReadback
  /-- Broadcast with a non-zero selector (R117 check 4). -/
  | broadcastSelector
deriving DecidableEq, Repr

/-- The agents of the block that step between host accesses (00_scope.md R10 b to e). A line agent has two kinds of
step, R214 and R216. -/
inductive Agent where
  | bus
  | linePhase (x : LineId)
  | lineWord (x : LineId)
  | optical (k : Nat)
  | engine
deriving DecidableEq, Repr, Inhabited

/-- One atomic event of the interleaving (R10): a single host access, a turn of an agent, or the power-on reset
input (10_state.md R75 `rst`). `rd r i` is a host read of register `r`; `i` is the element index inside a block read
of an array register, 0 for a single read (20_memory.md R82, R87). -/
inductive Event where
  | wr (r : Reg) (w : Word)
  | rd (r : Reg) (i : Nat)
  | agent (a : Agent)
  | rst
deriving DecidableEq, Repr, Inhabited

end Sys2Proof
end

