-- ==== Sys2Proof/WellFormed.lean ====
section
/-! DEFINITION. The operand ranges an instruction must meet to have an encoding. Every field has its exact width
(30_encoding.md R120), so only the values the formats call illegal remain: bw 0 and 3 (R132), mode 3 and plen 0
(R134), n 0 (R136). -/

namespace Sys2Proof

/-- TXC.MAPADD: bw is 1 or 2 (R132). -/
def bwOk (bw : BitVec 2) : Bool := bw == 1#2 || bw == 2#2

/-- LNK.SETMODE: mode is 0, 1 or 2 (R134). -/
def modeOk (mode : BitVec 2) : Bool := mode != 3#2

/-- LNK.SETPAT: plen is 1..255 (R134). -/
def plenOk (plen : Byte) : Bool := plen != 0#8

/-- ROE.READN: n is 1..2^28-1 (R136). -/
def eventsOk (n : BitVec 28) : Bool := n != 0#28

/-- The instruction's operands are in the ranges its format admits. -/
def Instr.wellFormed : Instr → Bool
  | .legWr _ _ _ _ _ => true
  | .legRd _ _ _ _ _ => true
  | .legRdb _ _ _ _ _ => true
  | .legBwr _ _ _ => true
  | .legBrd _ _ _ => true
  | .legBrdb _ _ _ => true
  | .idxWr _ _ _ _ => true
  | .idxWrv _ _ _ _ => true
  | .idxRd _ _ _ _ => true
  | .idxRdb _ _ _ _ => true
  | .idxBwr _ _ _ => true
  | .idxBwrv _ _ _ => true
  | .idxBrd _ _ _ => true
  | .idxBrdb _ _ _ => true
  | .optWr _ _ _ _ _ => true
  | .optWrv _ _ _ _ _ => true
  | .optRd _ _ _ _ _ => true
  | .optRdb _ _ _ _ _ => true
  | .optBwr _ _ _ => true
  | .optBwrv _ _ _ => true
  | .optBrd _ _ _ => true
  | .optBrdb _ _ _ => true
  | .sysReset => true
  | .txcConfigure => true
  | .txcFlush => true
  | .txcMapadd _ _ _ bw _ => bwOk bw
  | .txcEnc _ _ _ _ _ _ _ _ => true
  | .txcDec _ => true
  | .txcPush _ => true
  | .txcPop => true
  | .lnkGetcfg _ _ _ => true
  | .lnkGetstat _ _ _ => true
  | .lnkSetmode _ _ _ mode _ _ => modeOk mode
  | .lnkSetpat _ _ _ plen _ => plenOk plen
  | .lnkDopa _ _ _ => true
  | .lnkDowa _ _ _ => true
  | .lnkCapture _ _ _ => true
  | .lnkOptrst => true
  | .lnkOptsel _ => true
  | .roeReset => true
  | .roeReadav => true
  | .roeReadn n => eventsOk n

end Sys2Proof
end

