-- ==== Sys2Proof/Decode.lean ====
section
/-! DEFINITION. The decoder, total on every issue and rejecting by name, and after it the encoder, both written from
30_encoding.md R112 to R141; then the reading of a bare table word the host asks for. -/

namespace Sys2Proof

/-- The field `w[lo+n-1:lo]` of a word (00_scope.md R11). -/
def bits (w : Word) (lo n : Nat) : BitVec n := w.extractLsb' lo n

/-- A transaction word from its fields, most significant first (R112). -/
def twWord (op : Nibble) (sel : Byte) (rb fail page rd : BitVec 1) (addr value : Byte) : Word :=
  op ++ sel ++ rb ++ fail ++ page ++ rd ++ addr ++ value

/-- A selector of two nibbles: `{hybrid, chip}` under LEG, `{link, lidx}` under OPT (R113, R115, R120). -/
def nibbleSel (hi lo : Nibble) : Byte := hi ++ lo

/-- Format CM, TXC.MAPADD (R132). -/
def cmWord (link hybrid chip : Nibble) (bw : BitVec 2) (busAddr : BitVec 7) : Word :=
  0#4 ++ link ++ hybrid ++ chip ++ 0#6 ++ bw ++ 0#1 ++ busAddr

/-- Format CE, TXC.ENC (R133). -/
def ceWord (bcast write readback : BitVec 1) (hybrid chip : Nibble) (page : BitVec 1) (addr value : Byte) : Word :=
  bcast ++ write ++ readback ++ 0#1 ++ hybrid ++ chip ++ 0#2 ++ page ++ 0#1 ++ addr ++ value

/-- Format LT (R134). -/
def ltWord (hybrid chip line ctype : Nibble) (payload : BitVec 16) : Word :=
  hybrid ++ chip ++ line ++ ctype ++ payload

/-- The payload of LNK.SETMODE (R134). -/
def setmodePayload (mode : BitVec 2) (delay : BitVec 5) (bitslip : BitVec 3) : BitVec 16 :=
  0#2 ++ mode ++ 0#4 ++ delay ++ bitslip

/-- The payload of LNK.SETPAT (R134). -/
def setpatPayload (plen pat : Byte) : BitVec 16 := plen ++ pat

/-- Format LO (R135). -/
def loWord (link code : Nibble) : Word := 0#20 ++ link ++ 0#4 ++ code

/-- Format RC (R136). -/
def rcWord (operand : BitVec 28) (code : Nibble) : Word := operand ++ code

/-- The single-chip form of a word whose `op` is 0, by (variant, rd, rb) (R119). LEG has no form with `rd = 0` and
`rb = 1` (R118). -/
def decodeSingle (v : Variant) (w : Word) : Except Reject Instr :=
  match v with
  | .leg =>
    if bits w 16 1 = 0#1 then
      if bits w 19 1 = 0#1 then .ok (.legWr (bits w 24 4) (bits w 20 4) (bits w 17 1) (bits w 8 8) (bits w 0 8))
      else .error .legacyWriteReadback
    else
      if bits w 19 1 = 0#1 then .ok (.legRd (bits w 24 4) (bits w 20 4) (bits w 17 1) (bits w 8 8) (bits w 0 8))
      else .ok (.legRdb (bits w 24 4) (bits w 20 4) (bits w 17 1) (bits w 8 8) (bits w 0 8))
  | .idx =>
    if bits w 16 1 = 0#1 then
      if bits w 19 1 = 0#1 then .ok (.idxWr (bits w 20 8) (bits w 17 1) (bits w 8 8) (bits w 0 8))
      else .ok (.idxWrv (bits w 20 8) (bits w 17 1) (bits w 8 8) (bits w 0 8))
    else
      if bits w 19 1 = 0#1 then .ok (.idxRd (bits w 20 8) (bits w 17 1) (bits w 8 8) (bits w 0 8))
      else .ok (.idxRdb (bits w 20 8) (bits w 17 1) (bits w 8 8) (bits w 0 8))
  | .opt =>
    if bits w 16 1 = 0#1 then
      if bits w 19 1 = 0#1 then .ok (.optWr (bits w 24 4) (bits w 20 4) (bits w 17 1) (bits w 8 8) (bits w 0 8))
      else .ok (.optWrv (bits w 24 4) (bits w 20 4) (bits w 17 1) (bits w 8 8) (bits w 0 8))
    else
      if bits w 19 1 = 0#1 then .ok (.optRd (bits w 24 4) (bits w 20 4) (bits w 17 1) (bits w 8 8) (bits w 0 8))
      else .ok (.optRdb (bits w 24 4) (bits w 20 4) (bits w 17 1) (bits w 8 8) (bits w 0 8))

/-- The broadcast form of a word whose `op` is 2, by (variant, rd, rb) (R116, R119). -/
def decodeBroadcast (v : Variant) (w : Word) : Except Reject Instr :=
  match v with
  | .leg =>
    if bits w 16 1 = 0#1 then
      if bits w 19 1 = 0#1 then .ok (.legBwr (bits w 17 1) (bits w 8 8) (bits w 0 8))
      else .error .legacyWriteReadback
    else
      if bits w 19 1 = 0#1 then .ok (.legBrd (bits w 17 1) (bits w 8 8) (bits w 0 8))
      else .ok (.legBrdb (bits w 17 1) (bits w 8 8) (bits w 0 8))
  | .idx =>
    if bits w 16 1 = 0#1 then
      if bits w 19 1 = 0#1 then .ok (.idxBwr (bits w 17 1) (bits w 8 8) (bits w 0 8))
      else .ok (.idxBwrv (bits w 17 1) (bits w 8 8) (bits w 0 8))
    else
      if bits w 19 1 = 0#1 then .ok (.idxBrd (bits w 17 1) (bits w 8 8) (bits w 0 8))
      else .ok (.idxBrdb (bits w 17 1) (bits w 8 8) (bits w 0 8))
  | .opt =>
    if bits w 16 1 = 0#1 then
      if bits w 19 1 = 0#1 then .ok (.optBwr (bits w 17 1) (bits w 8 8) (bits w 0 8))
      else .ok (.optBwrv (bits w 17 1) (bits w 8 8) (bits w 0 8))
    else
      if bits w 19 1 = 0#1 then .ok (.optBrd (bits w 17 1) (bits w 8 8) (bits w 0 8))
      else .ok (.optBrdb (bits w 17 1) (bits w 8 8) (bits w 0 8))

/-- A request word under a variant: checks 1 to 4 of R117 in their order, then the form. -/
def decodeTransaction (v : Variant) (w : Word) : Except Reject Instr :=
  if bits w 28 4 = 0#4 then
    if bits w 18 1 = 0#1 then decodeSingle v w else .error .failBitSet
  else if bits w 28 4 = 2#4 then
    if bits w 18 1 = 0#1 then
      if v = .leg ∧ bits w 16 1 = 0#1 ∧ bits w 19 1 = 1#1 then .error .legacyWriteReadback
      else if bits w 20 8 = 0#8 then decodeBroadcast v w else .error .broadcastSelector
    else .error .failBitSet
  else .error .reservedOpcode

/-- Format GC, port `lrc.ctrl.reset` (R140). -/
def decodeGc (w : Word) : Except Reject Instr :=
  if w = 1#32 then .ok .sysReset else .error .illegalCommand

/-- Format CC, port `lrc.codec.ctrl` (R131). -/
def decodeCc (w : Word) : Except Reject Instr :=
  if w = 1#32 then .ok .txcConfigure
  else if w = 2#32 then .ok .txcFlush
  else .error .illegalCommand

/-- Format CM, port `lrc.codec.map_add` (R132). -/
def decodeCm (w : Word) : Except Reject Instr :=
  if bits w 28 4 = 0#4 ∧ bits w 10 6 = 0#6 ∧ bits w 7 1 = 0#1 ∧ bwOk (bits w 8 2) = true then
    .ok (.txcMapadd (bits w 24 4) (bits w 20 4) (bits w 16 4) (bits w 8 2) (bits w 0 7))
  else .error .illegalCommand

/-- Format CE, port `lrc.codec.enc_req` (R133). -/
def decodeCe (w : Word) : Except Reject Instr :=
  if bits w 28 1 = 0#1 ∧ bits w 18 2 = 0#2 ∧ bits w 16 1 = 0#1 then
    .ok (.txcEnc (bits w 31 1) (bits w 30 1) (bits w 29 1) (bits w 24 4) (bits w 20 4) (bits w 17 1)
      (bits w 8 8) (bits w 0 8))
  else .error .illegalCommand

/-- Format LT, port `lrc.link.tuning_ctrl` (R134). -/
def decodeLt (w : Word) : Except Reject Instr :=
  if bits w 16 4 = 0#4 then
    if bits w 0 16 = 0#16 then .ok (.lnkGetcfg (bits w 28 4) (bits w 24 4) (bits w 20 4))
    else .error .illegalCommand
  else if bits w 16 4 = 1#4 then
    if bits w 0 16 = 0#16 then .ok (.lnkGetstat (bits w 28 4) (bits w 24 4) (bits w 20 4))
    else .error .illegalCommand
  else if bits w 16 4 = 2#4 then
    if bits w 14 2 = 0#2 ∧ bits w 8 4 = 0#4 ∧ modeOk (bits w 12 2) = true then
      .ok (.lnkSetmode (bits w 28 4) (bits w 24 4) (bits w 20 4) (bits w 12 2) (bits w 3 5) (bits w 0 3))
    else .error .illegalCommand
  else if bits w 16 4 = 3#4 then
    if plenOk (bits w 8 8) = true then
      .ok (.lnkSetpat (bits w 28 4) (bits w 24 4) (bits w 20 4) (bits w 8 8) (bits w 0 8))
    else .error .illegalCommand
  else if bits w 16 4 = 4#4 then
    if bits w 0 16 = 0#16 then .ok (.lnkDopa (bits w 28 4) (bits w 24 4) (bits w 20 4))
    else .error .illegalCommand
  else if bits w 16 4 = 5#4 then
    if bits w 0 16 = 0#16 then .ok (.lnkDowa (bits w 28 4) (bits w 24 4) (bits w 20 4))
    else .error .illegalCommand
  else if bits w 16 4 = 6#4 then
    if bits w 0 16 = 0#16 then .ok (.lnkCapture (bits w 28 4) (bits w 24 4) (bits w 20 4))
    else .error .illegalCommand
  else .error .illegalCommand

/-- Format LO, port `lrc.link.optical_ctrl` (R135). -/
def decodeLo (w : Word) : Except Reject Instr :=
  if w = 1#32 then .ok .lnkOptrst
  else if bits w 0 4 = 2#4 ∧ bits w 4 4 = 0#4 ∧ bits w 12 20 = 0#20 then .ok (.lnkOptsel (bits w 8 4))
  else .error .illegalCommand

/-- Format RC, port `lrc.ro.ctrl` (R136). -/
def decodeRc (w : Word) : Except Reject Instr :=
  if w = 1#32 then .ok .roeReset
  else if w = 2#32 then .ok .roeReadav
  else if bits w 0 4 = 3#4 ∧ eventsOk (bits w 4 28) = true then .ok (.roeReadn (bits w 4 28))
  else .error .illegalCommand

/-- The word written to a register, read as a command of that port (R130, R141). -/
def decodeWrite (port : Reg) (w : Word) : Except Reject Instr :=
  match port with
  | .ctrlReset => decodeGc w
  | .codecCtrl => decodeCc w
  | .mapAdd => decodeCm w
  | .encReq => decodeCe w
  | .decIn => .ok (.txcDec w)
  | .cmdFifo => .ok (.txcPush w)
  | .tuningCtrl => decodeLt w
  | .opticalCtrl => decodeLo w
  | .roCtrl => decodeRc w
  | _ => .error .notAPort

/-- The decoder: total on every issue, rejecting by name. -/
def decode : Issue → Except Reject Instr
  | .write port w => decodeWrite port w
  | .read port => if port = .replyFifo then .ok .txcPop else .error .notAPopPort
  | .dispatch v w => decodeTransaction v w

/-- The encoder: the port or variant and the word of a well-formed instruction. -/
def encode : Instr → Issue
  | .legWr h c p a v => .dispatch .leg (twWord 0#4 (nibbleSel h c) 0#1 0#1 p 0#1 a v)
  | .legRd h c p a v => .dispatch .leg (twWord 0#4 (nibbleSel h c) 0#1 0#1 p 1#1 a v)
  | .legRdb h c p a v => .dispatch .leg (twWord 0#4 (nibbleSel h c) 1#1 0#1 p 1#1 a v)
  | .legBwr p a v => .dispatch .leg (twWord 2#4 0#8 0#1 0#1 p 0#1 a v)
  | .legBrd p a v => .dispatch .leg (twWord 2#4 0#8 0#1 0#1 p 1#1 a v)
  | .legBrdb p a v => .dispatch .leg (twWord 2#4 0#8 1#1 0#1 p 1#1 a v)
  | .idxWr g p a v => .dispatch .idx (twWord 0#4 g 0#1 0#1 p 0#1 a v)
  | .idxWrv g p a v => .dispatch .idx (twWord 0#4 g 1#1 0#1 p 0#1 a v)
  | .idxRd g p a v => .dispatch .idx (twWord 0#4 g 0#1 0#1 p 1#1 a v)
  | .idxRdb g p a v => .dispatch .idx (twWord 0#4 g 1#1 0#1 p 1#1 a v)
  | .idxBwr p a v => .dispatch .idx (twWord 2#4 0#8 0#1 0#1 p 0#1 a v)
  | .idxBwrv p a v => .dispatch .idx (twWord 2#4 0#8 1#1 0#1 p 0#1 a v)
  | .idxBrd p a v => .dispatch .idx (twWord 2#4 0#8 0#1 0#1 p 1#1 a v)
  | .idxBrdb p a v => .dispatch .idx (twWord 2#4 0#8 1#1 0#1 p 1#1 a v)
  | .optWr k l p a v => .dispatch .opt (twWord 0#4 (nibbleSel k l) 0#1 0#1 p 0#1 a v)
  | .optWrv k l p a v => .dispatch .opt (twWord 0#4 (nibbleSel k l) 1#1 0#1 p 0#1 a v)
  | .optRd k l p a v => .dispatch .opt (twWord 0#4 (nibbleSel k l) 0#1 0#1 p 1#1 a v)
  | .optRdb k l p a v => .dispatch .opt (twWord 0#4 (nibbleSel k l) 1#1 0#1 p 1#1 a v)
  | .optBwr p a v => .dispatch .opt (twWord 2#4 0#8 0#1 0#1 p 0#1 a v)
  | .optBwrv p a v => .dispatch .opt (twWord 2#4 0#8 1#1 0#1 p 0#1 a v)
  | .optBrd p a v => .dispatch .opt (twWord 2#4 0#8 0#1 0#1 p 1#1 a v)
  | .optBrdb p a v => .dispatch .opt (twWord 2#4 0#8 1#1 0#1 p 1#1 a v)
  | .sysReset => .write .ctrlReset 1#32
  | .txcConfigure => .write .codecCtrl 1#32
  | .txcFlush => .write .codecCtrl 2#32
  | .txcMapadd k h c bw ba => .write .mapAdd (cmWord k h c bw ba)
  | .txcEnc b wr rb h c p a v => .write .encReq (ceWord b wr rb h c p a v)
  | .txcDec w => .write .decIn w
  | .txcPush w => .write .cmdFifo w
  | .txcPop => .read .replyFifo
  | .lnkGetcfg h c l => .write .tuningCtrl (ltWord h c l 0#4 0#16)
  | .lnkGetstat h c l => .write .tuningCtrl (ltWord h c l 1#4 0#16)
  | .lnkSetmode h c l m d b => .write .tuningCtrl (ltWord h c l 2#4 (setmodePayload m d b))
  | .lnkSetpat h c l n p => .write .tuningCtrl (ltWord h c l 3#4 (setpatPayload n p))
  | .lnkDopa h c l => .write .tuningCtrl (ltWord h c l 4#4 0#16)
  | .lnkDowa h c l => .write .tuningCtrl (ltWord h c l 5#4 0#16)
  | .lnkCapture h c l => .write .tuningCtrl (ltWord h c l 6#4 0#16)
  | .lnkOptrst => .write .opticalCtrl 1#32
  | .lnkOptsel k => .write .opticalCtrl (loWord k 2#4)
  | .roeReset => .write .roCtrl 1#32
  | .roeReadav => .write .roCtrl 2#32
  | .roeReadn n => .write .roCtrl (rcWord n 3#4)

/-- The word an issue carries; a read carries none (R141). -/
def Issue.word : Issue → Option Word
  | .write _ w => some w
  | .read _ => none
  | .dispatch _ w => some w

/-- The ports and variants a bare 32-bit word of the opcode table is tried at, in this order. The table's numbers
carry neither port nor variant, and most numbers are words of several rows (R130, R144), so some order is needed
(DESIGN CHOICE, notes/assumptions/3.md): the ports with exact codes, then the transaction words, then the ports of
the remaining formats. -/
def tableCandidates (w : Word) : List Issue :=
  [.write .ctrlReset w, .write .codecCtrl w, .write .opticalCtrl w, .write .roCtrl w,
   .dispatch .leg w, .dispatch .idx w, .dispatch .opt w,
   .write .tuningCtrl w, .write .mapAdd w, .write .encReq w, .write .decIn w]

/-- The issue a bare table word stands for: the first candidate that decodes; with no bits at all (TXC.POP has no
command word, R141) the pop's read. -/
def tableIssue (nbits w : Nat) : Option Issue :=
  if nbits = 0 then some (.read .replyFifo)
  else if nbits ≤ 32 ∧ w < 2 ^ 32 then
    (tableCandidates (BitVec.ofNat 32 w)).find? fun c => (decode c).toOption.isSome
  else none

/-- The instruction the decoder reads from a bare table word. -/
def decodeTableWord (nbits w : Nat) : Option Instr :=
  match tableIssue nbits w with
  | some c => (decode c).toOption
  | none => none

end Sys2Proof
end

