-- ==== Sys2Proof/Config.lean ====
section
/-! DEFINITION. What an implementation fixes and what the environment answers: the parameters of 00_scope.md R8,
the oracles of R9, the order in which the agents move (R10), and one value the spec leaves unstated. Every oracle
and every OPEN parameter is an opaque constant without a body: nothing in Lean can evaluate it, so whatever is proved
holds for all its values. -/

namespace Sys2Proof

/-- The three status bits of an optical link (10_state.md R64), also the answer of `OptDraw` (R9). -/
structure OptStatus where
  txReady  : Bool
  rxReady  : Bool
  desReady : Bool
deriving DecidableEq, Repr, Inhabited

/-- One sample of the acquisition buffer's status, the answer of `BufSample` (R9, 42_readout_engine.md R246). -/
structure BufSample where
  wc   : Word
  req  : Bool
  trig : Word
deriving DecidableEq, Repr, Inhabited

/-- The numeric parameters of R8 that rules of the hardware read. `LINES` and `N_LINKS` are not here: the State's
table of line records has one entry per element of `LINES`, and its list of links one per link. -/
structure Params where
  /-- `BUS_PROTO_VER`, any 32-bit value (R27). -/
  busProtoVer : Word
  /-- `N_SLAVES`, 1..256. -/
  nSlaves : Nat
  /-- `N_CAP_WORDS`, at least 1. -/
  nCapWords : Nat
  /-- `CMD_FIFO_DEPTH`, 1..65535. -/
  cmdFifoDepth : Nat
  /-- `REPLY_FIFO_DEPTH`, 1..65535. -/
  replyFifoDepth : Nat
  /-- `RO_OUT_DEPTH`, a multiple of 4, 4..2^32-4. -/
  roOutDepth : Nat
  /-- `DDR3_RING_WORDS`, 1..2^32. -/
  ddr3RingWords : Nat
  /-- `MAX_RECOVERY_RESET`, 0..255. -/
  maxRecoveryReset : Byte
deriving DecidableEq, Repr

/-- The parameters lie in the ranges of R8. -/
def Params.inRange (p : Params) : Bool :=
  decide (1 ≤ p.nSlaves) && decide (p.nSlaves ≤ 256) && decide (1 ≤ p.nCapWords)
    && decide (1 ≤ p.cmdFifoDepth) && decide (p.cmdFifoDepth ≤ 65535)
    && decide (1 ≤ p.replyFifoDepth) && decide (p.replyFifoDepth ≤ 65535)
    && decide (4 ≤ p.roOutDepth) && decide (p.roOutDepth ≤ 2 ^ 32 - 4) && decide (p.roOutDepth % 4 = 0)
    && decide (1 ≤ p.ddr3RingWords) && decide (p.ddr3RingWords ≤ 2 ^ 32)

namespace Config

/-- `NOPROG_LIMIT`: consecutive no-progress polls that abort a handshake wait, fixed at 5 by the source (R8). -/
def noprogLimit : Nat := 5

/-- `BUS_PROTO_VER`, OPEN (R8, U17). -/
opaque busProtocolVersion : Word

/-- `LINES`, OPEN (R8, U19): a list whose members are the existing lines. -/
opaque lines : List LineId

/-- `N_LINKS`, 0..16, OPEN (R8, U19). -/
opaque nLinks : Fin 17

/-- `ADDR(name)`: the external address table, OPEN (R8, R90, U18). No rule uses it. The spec gives an address no width:
that one is a 32-bit word is the model's choice (DESIGN CHOICE; notes/assumptions/17.md). -/
opaque addr : Reg → Word

/-- The parameters at the spec's defaults (R8); the one the spec leaves OPEN stays free. -/
def params : Params where
  busProtoVer := busProtocolVersion
  nSlaves := 256
  nCapWords := 1
  cmdFifoDepth := 512
  replyFifoDepth := 512
  roOutDepth := 65536
  ddr3RingWords := 2 ^ 32
  maxRecoveryReset := 3#8

/-- `BusReply`: the reply words to dispatched word `w` with at most `k` due, at draw `seq` (R9, 40_codec.md R176).
The bus agent takes at most `k` of them. -/
opaque busReply (seq : Nat) (w : Word) (k : Nat) : List Word

/-- `PaAuto(line, seq)`: the delay a phase alignment found, or none (R9, 41_link_trainer.md R214). -/
opaque paAuto (x : LineId) (seq : Nat) : Option (BitVec 5)

/-- `WaAuto(line, seq)`: the bitslip a word alignment found, or none (R9, R216). -/
opaque waAuto (x : LineId) (seq : Nat) : Option (BitVec 3)

/-- `LineCapture(line, seq, delay, bitslip)`: word `i` of the capture (R9, R210). -/
opaque lineCapture (x : LineId) (seq : Nat) (delay : BitVec 5) (bitslip : BitVec 3) (i : Nat) : Word

/-- `OptDraw(link, seq)` (R9, R220). -/
opaque optDraw (k seq : Nat) : OptStatus

/-- `BufSample(seq)` (R9, R246). -/
opaque bufSample (seq : Nat) : BufSample

/-- `AcqRead(seq, addr, n)`: word `i` of the block read of `n` words (R9, 42_readout_engine.md R252). -/
opaque acqRead (seq : Nat) (a : Word) (n i : Nat) : Word

/-- Who moves next when nothing is scripted: any host access, any agent, or the reset input (R10, U8). The source
fixes no relative speed, so the order is free. -/
opaque schedule (turn : Nat) : Event

/-- What the 4-bit `lidx` of `lrc.codec.map_rd` shows for a local index of 16 or more. The spec gives the field 4
bits (10_state.md R34), bounds the local index by 16 under OPT only (40_codec.md R163), and states no value beyond
(DESIGN CHOICE: free; notes/assumptions/6.md). -/
opaque lidxBeyondField (lidx : Nat) : Nibble

end Config

end Sys2Proof
end

