-- ==== Sys2Proof/Machine/State.lean ====
section
/-! DEFINITION. The machine's state as plain data: every piece of state 10_state.md R20 gives the block, the model's
own few fields beside it, the reasons a step can stop, and the machine right after reset (R76). -/

namespace Sys2Proof.Machine

/-- The 18 sticky error flags of `lrc.stat.error` (10_state.md R28, 60_exceptions.md R332). -/
inductive Err where
  | illegalCmd
  | cfgVersion
  | notConfigured
  | addrMiss
  | mapLocked
  | mapFull
  | mapDup
  | fifoOvf
  | fifoUnf
  | twIllegal
  | lnkBadline
  | lnkBusy
  | lnkOrder
  | roBusy
  | roFailed
  | roDecode
  | roCount
  | roOvf
deriving DecidableEq, Repr

/-- A pulse or word on an output port (R75), an entry of the output trace (R73). -/
inductive Pulse where
  /-- A transaction word handed to the command bus (40_codec.md R176). -/
  | cmdBus (w : Word)
  | coreReset
  | bufReset
  | trigStop
  | trigStart
deriving DecidableEq, Repr

/-- One valid entry of the slave-address table (R60). -/
structure MapEntry where
  link    : Nibble
  hybrid  : Nibble
  chip    : Nibble
  busAddr : BitVec 7
  bw      : BitVec 2
deriving DecidableEq, Repr

/-- Unit C (R20, R30 to R42, R60, R65, R72). -/
structure Codec where
  /-- `C.variant` (R31, R78). -/
  variant : Variant
  /-- `C.configured` (R31). -/
  configured : Bool
  /-- `C.map_locked` (R31). -/
  mapLocked : Bool
  /-- `C.map`: the valid entries in index order. They are exactly indices 0..n_entries-1 (R60), so `C.n_entries` is
  the list's length and an index beyond it is an invalid entry, every field 0. -/
  map : List MapEntry
  /-- `C.map_sel`, the 8 stored bits of `lrc.codec.map_sel` (R33). -/
  mapSel : Byte
  /-- `C.enc_count` (R36). -/
  encCount : BitVec 2
  /-- `C.enc_word0`, `C.enc_word1` (R37). -/
  encWord0 : Word
  encWord1 : Word
  /-- `C.dec_out` (R39). -/
  decOut : Word
  /-- `C.cmdq`, head first (R65). -/
  cmdq : List Word
  /-- `C.replyq`, head first (R65). -/
  replyq : List Word
  /-- `C.bus_seq`, the draw counter of `BusReply` (R72). -/
  busSeq : Nat
deriving DecidableEq, Repr

/-- The mode of a line; 3 is never held (R61). -/
inductive LineMode where
  | idle
  | patternInject
  | manual
deriving DecidableEq, Repr

/-- The sub-states of phase and word alignment; 4 to 15 are never held (R63). -/
inductive SubState where
  | idle
  | running
  | tuned
  | failed
deriving DecidableEq, Repr

/-- The line record `L.line[x]` (R61). -/
structure LineTuning where
  mode     : LineMode
  delay    : BitVec 5
  bitslip  : BitVec 3
  done     : Bool
  paState  : SubState
  waState  : SubState
  pat      : Byte
  plen     : Byte
  patValid : Bool
deriving DecidableEq, Repr

/-- One element of `LINES` with its record and its three draw counters (R61, R72). -/
structure LineEntry where
  id     : LineId
  tuning : LineTuning
  paSeq  : Nat
  waSeq  : Nat
  capSeq : Nat
deriving DecidableEq, Repr

/-- One optical link: its status bits (R64) and its draw counter (R72). -/
structure OptLink where
  status : OptStatus
  seq    : Nat
deriving DecidableEq, Repr

/-- Unit L (R20, R43 to R47, R61, R64). -/
structure Link where
  /-- `L.line`: one entry per element of `LINES`; the identities listed ARE the parameter `LINES`. -/
  lines : List LineEntry
  /-- `L.tuning_reply` (R44). -/
  tuningReply : Word
  /-- `L.debug_words`, `N_CAP_WORDS` of them (R45). -/
  debugWords : List Word
  /-- `L.opt[k]` for k below `N_LINKS`, which is the list's length (R64). -/
  links : List OptLink
  /-- `L.opt_sel` (R64). -/
  optSel : Nibble
deriving DecidableEq, Repr

/-- `R.state`, codes 0 to 9; 10 to 15 are never held (R68). -/
inductive RoState where
  | idle
  | waitingForWords
  | handshake
  | directRead
  | decoded
  | stalled
  | recoveryStop
  | recoveryReset
  | recoveryStart
  | error
deriving DecidableEq, Repr

/-- `R.kind` (R68). -/
inductive RoKind where
  | av
  | n
deriving DecidableEq, Repr

/-- `R.result` (R53, R68). -/
inductive RoResult where
  | none
  | ok
  | failed
  | decodeErr
  | countMismatch
  | overflow
deriving DecidableEq, Repr

/-- Unit R (R20, R48 to R59, R66 to R68, R71, R72). -/
structure Readout where
  /-- `lrc.ro.cnfg`, reserved bits 0 (R48). -/
  cnfg : Word
  /-- `lrc.ro.timeout_polls` (R49). -/
  timeoutPolls : Word
  /-- `lrc.ro.trig_cnfg` (R50). -/
  trigCnfg : Word
  /-- `lrc.ro.evsize_cnfg`, reserved bits 0 (R51). -/
  evsizeCnfg : Word
  state : RoState
  kind : RoKind
  /-- `R.req_n`, 28 bits (R68). -/
  reqN : BitVec 28
  polls : Word
  noprog : Byte
  lastTrig : Word
  recovCount : Byte
  sawReq : Bool
  result : RoResult
  /-- The latched sample (R71). -/
  latWc : Word
  latTrig : Word
  /-- `R.out[0..out_len-1]`; `R.out_len` is the list's length (R66). -/
  out : List Word
  /-- `R.frame_offs[0..frame_count-1]`; `R.frame_count` is the list's length (R67). -/
  frameOffs : List Word
  /-- `R.cursor` (R24). -/
  cursor : Word
  /-- `R.smp_seq` (R72). -/
  smpSeq : Nat
  /-- `R.rd_seq` (R72). -/
  rdSeq : Nat
deriving DecidableEq, Repr

/-- The state of the machine. The last three fields and `params` are the model's own (INVENTORY.md, State). -/
structure State where
  /-- The parameters of 00_scope.md R8, carried as read-only data: no step changes them. -/
  params : Params
  /-- `lrc.stat.error` (R28). -/
  error : Word
  codec : Codec
  link : Link
  readout : Readout
  /-- The output trace, oldest first (R73). -/
  trace : List Pulse
  /-- The word the last host read returned: the value an access of 20_memory.md R81 hands to the host. -/
  rdata : Word
  /-- Events already decided, next first; empty, the free schedule decides (R10). -/
  script : List Event
  /-- How many events the free schedule has decided. -/
  turn : Nat
deriving DecidableEq, Repr

/-- Why the machine stops. -/
inductive Fault where
  /-- Raised by the bus agent's turn alone, when the head of the command queue is no legal transaction word under
  the variant in force. No rule gives such a word a meaning (30_encoding.md R117: TXC.PUSH queues legal words only),
  and no state a run reaches holds one. Safe: the model stops where no hardware goes. -/
  | queuedWordIllegal (w : Word)
deriving DecidableEq, Repr

/-- Why the machine refuses. -/
inductive Refusal where
  /-- Raised by the dispatch alone, for an instruction without a meaning. Safe. No arm raises it: every instruction
  of the table has its meaning. -/
  | notModelled (mnemonic : String)
deriving DecidableEq, Repr

/-- Unit C after reset, its draw counter aside (R76). -/
def Codec.initial (busSeq : Nat) : Codec where
  variant := .leg
  configured := false
  mapLocked := false
  map := []
  mapSel := 0#8
  encCount := 0#2
  encWord0 := 0#32
  encWord1 := 0#32
  decOut := 0#32
  cmdq := []
  replyq := []
  busSeq := busSeq

/-- A line record after reset (R61, R76). -/
def LineTuning.initial : LineTuning where
  mode := .idle
  delay := 0#5
  bitslip := 0#3
  done := false
  paState := .idle
  waState := .idle
  pat := 0#8
  plen := 0#8
  patValid := false

/-- An optical link's status bits after reset (R64, R76). -/
def linkDown : OptStatus := ⟨false, false, false⟩

/-- `lrc.ro.cnfg` after reset: `max_recovery` = `MAX_RECOVERY_RESET`, both enables 0 (R48, R76). -/
def cnfgInitial (p : Params) : Word := 0#16 ++ p.maxRecoveryReset ++ 0#8

/-- Unit R after reset, its draw counters aside (R76). -/
def Readout.initial (p : Params) (smpSeq rdSeq : Nat) : Readout where
  cnfg := cnfgInitial p
  timeoutPolls := 0#32
  trigCnfg := 0#32
  evsizeCnfg := 0#32
  state := .idle
  kind := .av
  reqN := 0#28
  polls := 0#32
  noprog := 0#8
  lastTrig := 0#32
  recovCount := 0#8
  sawReq := false
  result := .none
  latWc := 0#32
  latTrig := 0#32
  out := []
  frameOffs := []
  cursor := 0#32
  smpSeq := smpSeq
  rdSeq := rdSeq

/-- The machine after its first power-on, for any parameters, set of lines and number of links: every field as R76
says, every draw counter 0, the output trace empty (95_test_vectors.md part 3), nothing scripted. -/
def State.powerOn (p : Params) (ls : List LineId) (nLinks : Nat) : State where
  params := p
  error := 0#32
  codec := Codec.initial 0
  link :=
    { lines := ls.dedup.map fun x =>
        { id := x, tuning := LineTuning.initial, paSeq := 0, waSeq := 0, capSeq := 0 }
      tuningReply := 0#32
      debugWords := List.replicate p.nCapWords 0#32
      links := List.replicate nLinks { status := linkDown, seq := 0 }
      optSel := 0#4 }
  readout := Readout.initial p 0 0
  trace := []
  rdata := 0#32
  script := []
  turn := 0

/-- The machine right after reset (R76), at the parameters of the configuration. -/
def State.reset : State := State.powerOn Config.params Config.lines Config.nLinks.val

end Sys2Proof.Machine
end

