-- ==== Sys2Proof/Machine/Ops.lean ====
section
/-! DEFINITION. The shared operations on the state.

Taking an exception: the block has no trap, no handler, no saved context and no mode (60_exceptions.md R330, R336,
R339). What stands in its place is `raise` (R331), the one operation every error goes through. The return from an
exception has no counterpart either (R337): the ways out of an error are ordinary commands, and the only operation
that clears a flag is `resetBlock` (R370, R371). -/

namespace Sys2Proof.Machine

/-- The bit of `lrc.stat.error` a flag has, which is its code (R28, R332). -/
def Err.bit : Err → Nat
  | .illegalCmd => 0
  | .cfgVersion => 1
  | .notConfigured => 2
  | .addrMiss => 3
  | .mapLocked => 4
  | .mapFull => 5
  | .mapDup => 6
  | .fifoOvf => 7
  | .fifoUnf => 8
  | .twIllegal => 9
  | .lnkBadline => 10
  | .lnkBusy => 11
  | .lnkOrder => 12
  | .roBusy => 13
  | .roFailed => 14
  | .roDecode => 15
  | .roCount => 16
  | .roOvf => 17

/-- The flag as a one-bit mask of `lrc.stat.error`. -/
def Err.mask (e : Err) : Word := 1#32 <<< e.bit

/-- `raise E` (R331): the sticky flag becomes 1, nothing else changes, a flag already 1 stays 1. -/
def raise (e : Err) (s : State) : State := { s with error := s.error ||| e.mask }

/-- `raise E` where there is one. -/
def raiseOpt (e : Option Err) (s : State) : State :=
  match e with
  | none => s
  | some e => raise e s

/-- `emit p` (00_scope.md R12): one pulse on an output port, appended to the output trace. -/
def emit (p : Pulse) (s : State) : State := { s with trace := s.trace ++ [p] }

/-- Unit C replaced. -/
def setCodec (c : Codec) (s : State) : State := { s with codec := c }

/-- Unit L replaced. -/
def setLink (l : Link) (s : State) : State := { s with link := l }

/-- Unit R replaced. -/
def setReadout (r : Readout) (s : State) : State := { s with readout := r }

/-- The value a host read returns to the host. -/
def setRdata (w : Word) (s : State) : State := { s with rdata := w }

/-- The entry of a line, none when the line is not in `LINES` (41_link_trainer.md R201). -/
def findLine (x : LineId) (ls : List LineEntry) : Option LineEntry := ls.find? fun e => decide (e.id = x)

/-- The table of line records with the entry of `x` replaced by `f` of it; every other entry as it was (R217: a
step touches one line only). -/
def updateLine (x : LineId) (f : LineEntry → LineEntry) (ls : List LineEntry) : List LineEntry :=
  ls.map fun e => if e.id = x then f e else e

/-- The line record of `x` replaced. -/
def setTuning (x : LineId) (t : LineTuning) (s : State) : State :=
  setLink { s.link with lines := updateLine x (fun e => { e with tuning := t }) s.link.lines } s

/-- Every piece of state at its reset value except the draw counters and the output trace (10_state.md R76,
70_reset_and_hazards.md R370, R371). The parameters, `LINES` and `N_LINKS` are not state and stay; so do the model's
own fields. -/
def resetBlock (s : State) : State :=
  { s with
    error := 0#32
    codec := Codec.initial s.codec.busSeq
    link :=
      { lines := s.link.lines.map fun e => { e with tuning := LineTuning.initial }
        tuningReply := 0#32
        debugWords := List.replicate s.params.nCapWords 0#32
        links := s.link.links.map fun k => { k with status := linkDown }
        optSel := 0#4 }
    readout := Readout.initial s.params s.readout.smpSeq s.readout.rdSeq }

end Sys2Proof.Machine
end

