-- ==== Sys2Proof/Machine/Operands.lean ====
section
/-! DEFINITION. The operand forms: the address translation of the slave-address table (20_memory.md R92, 40_codec.md
R164), the legality of a request word (30_encoding.md R117), the nominal reply count (R119), the decode function
(40_codec.md R168), and the derived quantities of unit R (10_state.md R69). -/

namespace Sys2Proof.Machine

/-- The variant a value of `lrc.stat.bus_protocol_version` selects (R27, R161). -/
def variantOfVersion (ver : Word) : Option Variant :=
  if ver = 0#32 then some .leg
  else if ver = 1#32 then some .idx
  else if ver = 2#32 then some .opt
  else none

/-- `LocalCount(link)`: the entries with that link (R163). -/
def localCount (m : List MapEntry) (link : Nibble) : Nat := m.countP fun e => decide (e.link = link)

/-- `lidx` of position `i` for an entry of that link: the entries of the link at lower positions (R60, R164). -/
def localIndex (m : List MapEntry) (i : Nat) (link : Nibble) : Nat := localCount (m.take i) link

/-- The 4-bit field a local index is shown or packed in (R34, R115). Within 16 it is the index itself; beyond, the
spec states no value (notes/assumptions/6.md). -/
def lidxField (n : Nat) : Nibble := if n < 16 then BitVec.ofNat 4 n else Config.lidxBeyondField n

/-- `MapLookup(h, c)`: the index of the entry of (hybrid, chip) (R164). -/
def mapLookup (m : List MapEntry) (h c : Nibble) : Option Nat :=
  m.findIdx? fun e => decide (e.hybrid = h ∧ e.chip = c)

/-- The entry at index `i` is on `link` with local index `li`. -/
def isLocal (m : List MapEntry) (link li : Nibble) (i : Nat) : Bool :=
  match m[i]? with
  | some e => decide (e.link = link ∧ localIndex m i link = li.toNat)
  | none => false

/-- `MapByLocal(link, li)` (R164). -/
def mapByLocal (m : List MapEntry) (link li : Nibble) : Option Nat :=
  (List.range m.length).find? (isLocal m link li)

/-- `Sel(v, i)`: the selector of entry `e` at index `i` (R113 to R115, R164). -/
def selOf (v : Variant) (m : List MapEntry) (i : Nat) (e : MapEntry) : Byte :=
  match v with
  | .leg => nibbleSel e.hybrid e.chip
  | .idx => BitVec.ofNat 8 i
  | .opt => nibbleSel e.link (lidxField (localIndex m i e.link))

/-- The upper nibble of a selector. -/
def selHi (s : Byte) : Nibble := s.extractLsb' 4 4

/-- The lower nibble of a selector. -/
def selLo (s : Byte) : Nibble := s.extractLsb' 0 4

/-- `Unsel(v, s)`: the index a selector names (R164). -/
def unsel (v : Variant) (m : List MapEntry) (s : Byte) : Option Nat :=
  match v with
  | .leg => mapLookup m (selHi s) (selLo s)
  | .idx => if s.toNat < m.length then some s.toNat else none
  | .opt => mapByLocal m (selHi s) (selLo s)

/-- `Legal(v, w)`: none when the request word is legal, else the flag the first failing check names (R117). -/
def illegalRequest (v : Variant) (m : List MapEntry) (w : Word) : Option Err :=
  if bits w 28 4 ≠ 0#4 ∧ bits w 28 4 ≠ 2#4 then some .twIllegal
  else if bits w 18 1 ≠ 0#1 then some .twIllegal
  else if v = .leg ∧ bits w 16 1 = 0#1 ∧ bits w 19 1 = 1#1 then some .twIllegal
  else if bits w 28 4 = 2#4 ∧ bits w 20 8 ≠ 0#8 then some .twIllegal
  else if bits w 28 4 = 0#4 ∧ unsel v m (bits w 20 8) = none then some .addrMiss
  else none

/-- `NomReplies(w)`: one per target when a reply is due, else none (R119). -/
def nomReplies (nEntries : Nat) (w : Word) : Nat :=
  if bits w 16 1 = 1#1 ∨ bits w 19 1 = 1#1 then (if bits w 28 4 = 2#4 then nEntries else 1) else 0

/-- What `Decode` returns (R168). -/
structure Decoded where
  failed : Bool
  isRead : BitVec 1
  rb     : BitVec 1
  bcast  : Bool
  hybrid : Nibble
  chip   : Nibble
  page   : BitVec 1
  addr   : Byte
  value  : Byte
deriving DecidableEq, Repr

/-- `Decode(v, w)`, total on words; under LEG the ids come from the word, not from the table (R168). -/
def decodeFields (v : Variant) (m : List MapEntry) (w : Word) : Decoded :=
  let base : Decoded :=
    { failed := decide (bits w 18 1 = 1#1), isRead := bits w 16 1, rb := bits w 19 1, bcast := false
      hybrid := 0#4, chip := 0#4, page := bits w 17 1, addr := bits w 8 8, value := bits w 0 8 }
  if bits w 28 4 = 2#4 then { base with bcast := true }
  else if bits w 28 4 = 0#4 then
    match v with
    | .leg => { base with hybrid := selHi (bits w 20 8), chip := selLo (bits w 20 8) }
    | .idx | .opt =>
      match (unsel v m (bits w 20 8)).bind (fun i => m[i]?) with
      | some e => { base with hybrid := e.hybrid, chip := e.chip }
      | none => { base with failed := true }
  else { base with failed := true }

/-- A Bool as one bit. -/
def bit (b : Bool) : BitVec 1 := BitVec.ofBool b

/-- Format DO, the layout of `lrc.codec.dec_out` (10_state.md R39, R170). -/
def Decoded.word (d : Decoded) : Word :=
  bit d.failed ++ d.isRead ++ d.rb ++ bit d.bcast ++ d.hybrid ++ d.chip ++ 0#2 ++ d.page ++ 0#1 ++ d.addr ++ d.value

/-- The `max_recovery` field of `lrc.ro.cnfg` (R48). -/
def Readout.maxRecovery (r : Readout) : Byte := bits r.cnfg 8 8

/-- `handshake_en` (R48). -/
def Readout.handshakeEn (r : Readout) : Bool := decide (bits r.cnfg 0 1 = 1#1)

/-- `ddr3_en` (R48). -/
def Readout.ddr3En (r : Readout) : Bool := decide (bits r.cnfg 1 1 = 1#1)

/-- `ev_size`: the raw size rounded up to the alignment boundary, over the naturals (R69, R264). -/
def Readout.evSize (r : Readout) : Nat :=
  let raw := (bits r.evsizeCnfg 0 16).toNat
  let al := (bits r.evsizeCnfg 16 8).toNat
  if al ≤ 1 then raw else (raw + al - 1) / al * al

/-- `target_trig = tta * (mult + 1)` (R69). -/
def Readout.targetTrig (r : Readout) : Nat := (bits r.trigCnfg 0 24).toNat * ((bits r.trigCnfg 24 8).toNat + 1)

/-- `target_words = req_n * ev_size` (R69). -/
def Readout.targetWords (r : Readout) : Nat := r.reqN.toNat * r.evSize

end Sys2Proof.Machine
end

