-- ==== Sys2Proof/Machine/Flags.lean ====
section
/-! DEFINITION. Every status word and derived flag of the block: the codes of the enumerations, `busy`, the status
registers' layouts, the two line replies, and the main state of a line. -/

namespace Sys2Proof.Machine

/-- The code of a variant (10_state.md R31). -/
def variantCode : Variant → BitVec 2
  | .leg => 0#2
  | .idx => 1#2
  | .opt => 2#2

/-- The code of a mode (R61). -/
def LineMode.code : LineMode → BitVec 2
  | .idle => 0#2
  | .patternInject => 1#2
  | .manual => 2#2

/-- The code of a sub-state (R63). -/
def SubState.code : SubState → Nibble
  | .idle => 0#4
  | .running => 1#4
  | .tuned => 2#4
  | .failed => 3#4

/-- The code of `R.state` (R68). -/
def RoState.code : RoState → Nibble
  | .idle => 0#4
  | .waitingForWords => 1#4
  | .handshake => 2#4
  | .directRead => 3#4
  | .decoded => 4#4
  | .stalled => 5#4
  | .recoveryStop => 6#4
  | .recoveryReset => 7#4
  | .recoveryStart => 8#4
  | .error => 9#4

/-- The code of `R.result` (R53). -/
def RoResult.code : RoResult → Nibble
  | .none => 0#4
  | .ok => 1#4
  | .failed => 2#4
  | .decodeErr => 3#4
  | .countMismatch => 4#4
  | .overflow => 5#4

/-- `busy`: the states in which the engine has an enabled step (R53, 42_readout_engine.md R242). -/
def RoState.busy : RoState → Bool
  | .idle => false
  | .waitingForWords => true
  | .handshake => true
  | .directRead => true
  | .decoded => false
  | .stalled => true
  | .recoveryStop => true
  | .recoveryReset => true
  | .recoveryStart => true
  | .error => false

/-- RUNNING of 41_link_trainer.md R201. -/
def LineTuning.running (t : LineTuning) : Bool :=
  decide (t.paState = .running) || decide (t.waState = .running)

/-- `lrc.codec.stat` (R31). -/
def Codec.stat (c : Codec) : Word :=
  0#15 ++ BitVec.ofNat 9 c.map.length ++ 0#4 ++ bit c.mapLocked ++ bit c.configured ++ variantCode c.variant

/-- `lrc.codec.map_rd`: the entry `map_sel` points at, 0 when there is none (R34). -/
def Codec.mapRd (c : Codec) : Word :=
  match c.map[c.mapSel.toNat]? with
  | some e =>
    1#1 ++ 0#3 ++ e.link ++ e.hybrid ++ e.chip ++ lidxField (localIndex c.map c.mapSel.toNat e.link) ++ 0#2 ++ e.bw
      ++ 0#1 ++ e.busAddr
  | none => 0#32

/-- `lrc.codec.fifo_stat` (R42). -/
def Codec.fifoStat (c : Codec) : Word := BitVec.ofNat 16 c.cmdq.length ++ BitVec.ofNat 16 c.replyq.length

/-- Layout LR0, the reply of LNK.GETCFG (R44, R203). -/
def LineTuning.cfgReply (t : LineTuning) : Word :=
  0#4 ++ 0#2 ++ t.mode.code ++ 0#7 ++ bit t.patValid ++ t.plen ++ t.pat

/-- Layout LR1, the reply of LNK.GETSTAT (R44, R204). -/
def LineTuning.statReply (t : LineTuning) : Word :=
  1#4 ++ 0#2 ++ t.mode.code ++ t.delay ++ t.bitslip ++ bit t.done ++ 0#3 ++ t.waState.code ++ 0#4 ++ t.paState.code

/-- The three status bits, des_ready the most significant (R47). -/
def OptStatus.bits (o : OptStatus) : BitVec 3 := bit o.desReady ++ bit o.rxReady ++ bit o.txReady

/-- A link is locked when its three status bits are 1 (R47). -/
def OptStatus.locked (o : OptStatus) : Bool := o.txReady && o.rxReady && o.desReady

/-- `lrc.link.optical_stat`, live; bits 2:0 read 0 when the selected link does not exist (R47). -/
def Link.opticalStat (l : Link) : Word :=
  0#20 ++ l.optSel ++ 0#5 ++
    (match l.links[l.optSel.toNat]? with
     | some k => OptStatus.bits k.status
     | none => 0#3)

/-- `lrc.ro.stat` (R53). -/
def Readout.stat (r : Readout) : Word :=
  0#14 ++ bit r.sawReq ++ bit r.state.busy ++ r.recovCount ++ r.result.code ++ r.state.code

/-- The main states of a line in the source's names, with `manual` added (R62). -/
inductive MainState where
  | idle
  | configuringPattern
  | paRunning
  | paTuned
  | paFailed
  | waRunning
  | waTuned
  | waFailed
  | manual
deriving DecidableEq, Repr

/-- The main state as a function of the record; none for a record outside the rows of R62. -/
def LineTuning.mainState (t : LineTuning) : Option MainState :=
  match t.mode, t.paState, t.waState with
  | .idle, _, _ => some .idle
  | .manual, _, _ => some .manual
  | .patternInject, .idle, .idle => some .configuringPattern
  | .patternInject, .running, .idle => some .paRunning
  | .patternInject, .tuned, .idle => some .paTuned
  | .patternInject, .failed, .idle => some .paFailed
  | .patternInject, .tuned, .running => some .waRunning
  | .patternInject, .tuned, .tuned => some .waTuned
  | .patternInject, .tuned, .failed => some .waFailed
  | .patternInject, .idle, .running => none
  | .patternInject, .idle, .tuned => none
  | .patternInject, .idle, .failed => none
  | .patternInject, .running, .running => none
  | .patternInject, .running, .tuned => none
  | .patternInject, .running, .failed => none
  | .patternInject, .failed, .running => none
  | .patternInject, .failed, .tuned => none
  | .patternInject, .failed, .failed => none

end Sys2Proof.Machine
end

