-- ==== Sys2Proof/Machine/Codec.lean ====
section
/-! DEFINITION. The seven commands of unit C (40_codec.md R161 to R175). Each command is a function of the state;
its instruction's meaning is the next state it gives. -/

namespace Sys2Proof.Machine

/-- The clearing TXC.CONFIGURE starts with: queues, table, lock and result registers (R161). -/
def Codec.cleared (c : Codec) : Codec :=
  { c with
    cmdq := [], replyq := [], map := [], mapLocked := false
    encCount := 0#2, encWord0 := 0#32, encWord1 := 0#32, decOut := 0#32 }

/-- TXC.CONFIGURE (R161): on an unsupported version the clearing happens before the raise and the unit is left
unconfigured. -/
def configure (s : State) : State :=
  match variantOfVersion s.params.busProtoVer with
  | none => raise .cfgVersion (setCodec { s.codec.cleared with configured := false } s)
  | some v => setCodec { s.codec.cleared with variant := v, configured := true } s

/-- TXC.FLUSH (R162): both queues emptied. -/
def flush (s : State) : State := setCodec { s.codec with cmdq := [], replyq := [] } s

/-- The table entry of a TXC.MAPADD appended at index `n_entries` (R163). -/
def Codec.addEntry (c : Codec) (e : MapEntry) : Codec := { c with map := c.map ++ [e] }

/-- The checks of TXC.MAPADD in their order (R163, 60_exceptions.md R333): none when the entry may be added. -/
def mapaddError (c : Codec) (nSlaves : Nat) (e : MapEntry) : Option Err :=
  if bwOk e.bw = false then some .illegalCmd
  else if c.configured = false then some .notConfigured
  else if c.mapLocked = true then some .mapLocked
  else if mapLookup c.map e.hybrid e.chip ≠ none then some .mapDup
  else if c.map.length = nSlaves then some .mapFull
  else if c.variant = .opt ∧ localCount c.map e.link = 16 then some .mapFull
  else none

/-- TXC.MAPADD (R163). -/
def mapadd (e : MapEntry) (s : State) : State :=
  match mapaddError s.codec s.params.nSlaves e with
  | some err => raise err s
  | none => setCodec (s.codec.addEntry e) s

/-- Lock on first use, the first effect of TXC.ENC, TXC.DEC and TXC.PUSH on a configured unit (R165). -/
def Codec.locked (c : Codec) : Codec := { c with mapLocked := true }

/-- The result registers cleared, as TXC.ENC does before it can raise (R166). -/
def Codec.encCleared (c : Codec) : Codec := { c with encCount := 0#2, encWord0 := 0#32, encWord1 := 0#32 }

/-- The words of an encode, from the opcode and selector on (R166, R167): the first word, and under LEG with write
and read-back the second (30_encoding.md R118). -/
def encWords (v : Variant) (op : Nibble) (sel : Byte) (write readback page : BitVec 1) (addr value : Byte) :
    Word × Option Word :=
  if v = .leg ∧ write = 1#1 ∧ readback = 1#1 then
    (twWord op sel 0#1 0#1 page 0#1 addr value, some (twWord op sel 1#1 0#1 page 1#1 addr 0#8))
  else if write = 1#1 then (twWord op sel readback 0#1 page 0#1 addr value, none)
  else (twWord op sel readback 0#1 page 1#1 addr 0#8, none)

/-- The result registers after an encode (R36, R37). -/
def Codec.encStored (c : Codec) (ws : Word × Option Word) : Codec :=
  match ws.2 with
  | some w1 => { c with encWord0 := ws.1, encWord1 := w1, encCount := 2#2 }
  | none => { c with encWord0 := ws.1, encWord1 := 0#32, encCount := 1#2 }

/-- The opcode and selector TXC.ENC packs: a broadcast, or the entry of (hybrid, chip), none when it is not in the
table (R166). -/
def encTarget (v : Variant) (m : List MapEntry) (bcast : BitVec 1) (hybrid chip : Nibble) : Option (Nibble × Byte) :=
  if bcast = 1#1 then some (2#4, 0#8)
  else
    match mapLookup m hybrid chip with
    | none => none
    | some i =>
      match m[i]? with
      | none => none
      | some e => some (0#4, selOf v m i e)

/-- TXC.ENC (R166). The format check is the decoder's (R133). -/
def encodeRequest (bcast write readback : BitVec 1) (hybrid chip : Nibble) (page : BitVec 1) (addr value : Byte)
    (s : State) : State :=
  let c := s.codec.encCleared
  if c.configured = false then raise .notConfigured (setCodec c s)
  else
    match encTarget c.variant c.map bcast hybrid chip with
    | none => raise .addrMiss (setCodec c.locked s)
    | some (op, sel) => setCodec (c.locked.encStored (encWords c.variant op sel write readback page addr value)) s

/-- TXC.DEC (R170). -/
def decodeWord (w : Word) (s : State) : State :=
  if s.codec.configured = false then raise .notConfigured s
  else setCodec { s.codec.locked with decOut := (decodeFields s.codec.variant s.codec.map w).word } s

/-- TXC.PUSH (R173): the lock first, then legality, then room. -/
def pushCommand (w : Word) (s : State) : State :=
  if s.codec.configured = false then raise .notConfigured s
  else
    let s1 := setCodec s.codec.locked s
    match illegalRequest s.codec.variant s.codec.map w with
    | some err => raise err s1
    | none =>
      if s.codec.cmdq.length = s.params.cmdFifoDepth then raise .fifoOvf s1
      else setCodec { s.codec.locked with cmdq := s.codec.cmdq ++ [w] } s

/-- TXC.POP (R175): the value popped, or 0 and E_FIFO_UNF, is what the host reads. -/
def popReply (s : State) : State :=
  match s.codec.replyq with
  | [] => raise .fifoUnf (setRdata 0#32 s)
  | w :: q => setRdata w (setCodec { s.codec with replyq := q } s)

/-- TXC.CONFIGURE, R161. -/
def execTxcConfigure (s : State) : Host.Outcome State Fault Refusal := .next (configure s)

/-- TXC.FLUSH, R162. -/
def execTxcFlush (s : State) : Host.Outcome State Fault Refusal := .next (flush s)

/-- TXC.MAPADD, R163. -/
def execTxcMapadd (link hybrid chip : Nibble) (bw : BitVec 2) (busAddr : BitVec 7) (s : State) :
    Host.Outcome State Fault Refusal :=
  .next (mapadd { link := link, hybrid := hybrid, chip := chip, busAddr := busAddr, bw := bw } s)

/-- TXC.ENC, R166. -/
def execTxcEnc (bcast write readback : BitVec 1) (hybrid chip : Nibble) (page : BitVec 1) (addr value : Byte)
    (s : State) : Host.Outcome State Fault Refusal :=
  .next (encodeRequest bcast write readback hybrid chip page addr value s)

/-- TXC.DEC, R170. -/
def execTxcDec (word : Word) (s : State) : Host.Outcome State Fault Refusal := .next (decodeWord word s)

/-- TXC.PUSH, R173. -/
def execTxcPush (word : Word) (s : State) : Host.Outcome State Fault Refusal := .next (pushCommand word s)

/-- TXC.POP, R175. -/
def execTxcPop (s : State) : Host.Outcome State Fault Refusal := .next (popReply s)

end Sys2Proof.Machine
end

