-- ==== Sys2Proof/Machine/LinkTrainer.lean ====
section
/-! DEFINITION. The nine commands of unit L (41_link_trainer.md R201 to R219) and the steps of its agents: the line
agent (R214, R216) and the optical agent (R220). -/

namespace Sys2Proof.Machine

/-- Check 2 of the common front (R201): a line not in `LINES` raises E_LNK_BADLINE; otherwise the command goes on
with the line's entry. Check 1, the format, is the decoder's and the command's own range checks. -/
def onLine (x : LineId) (s : State) (k : LineEntry → State) : State :=
  match findLine x s.link.lines with
  | none => raise .lnkBadline s
  | some e => k e

/-- The reply register written (R44). -/
def setReply (w : Word) (s : State) : State := setLink { s.link with tuningReply := w } s

/-- LNK.GETCFG (R203). -/
def getCfg (x : LineId) (s : State) : State := onLine x s fun e => setReply e.tuning.cfgReply s

/-- LNK.GETSTAT (R204). -/
def getStat (x : LineId) (s : State) : State := onLine x s fun e => setReply e.tuning.statReply s

/-- The record after LNK.SETMODE (R205); mode 3 has no record, it is refused before. -/
def LineTuning.withMode (t : LineTuning) (mode : BitVec 2) (delay : BitVec 5) (bitslip : BitVec 3) : LineTuning :=
  let t0 := { t with paState := .idle, waState := .idle }
  if mode = 0#2 then { t0 with mode := .idle, done := false, patValid := false }
  else if mode = 1#2 then { t0 with mode := .patternInject, done := false }
  else { t0 with mode := .manual, delay := delay, bitslip := bitslip, done := true }

/-- LNK.SETMODE (R205): accepted while RUNNING, where it aborts. -/
def setMode (x : LineId) (mode : BitVec 2) (delay : BitVec 5) (bitslip : BitVec 3) (s : State) : State :=
  if modeOk mode = false then raise .illegalCmd s
  else onLine x s fun e => setTuning x (e.tuning.withMode mode delay bitslip) s

/-- The record after LNK.SETPAT: the phase result is kept (R207). -/
def LineTuning.withPattern (t : LineTuning) (plen pat : Byte) : LineTuning :=
  { t with pat := pat, plen := plen, patValid := true, waState := .idle, done := false }

/-- LNK.SETPAT (R207). -/
def setPat (x : LineId) (plen pat : Byte) (s : State) : State :=
  if plenOk plen = false then raise .illegalCmd s
  else
    onLine x s fun e =>
      if e.tuning.mode ≠ .patternInject then raise .lnkOrder s
      else setTuning x (e.tuning.withPattern plen pat) s

/-- The record after LNK.DOPA (R208). -/
def LineTuning.startPhase (t : LineTuning) : LineTuning :=
  { t with paState := .running, waState := .idle, done := false }

/-- LNK.DOPA (R208). -/
def doPhase (x : LineId) (s : State) : State :=
  onLine x s fun e =>
    if e.tuning.mode ≠ .patternInject ∨ e.tuning.patValid = false then raise .lnkOrder s
    else setTuning x e.tuning.startPhase s

/-- The record after LNK.DOWA (R209). -/
def LineTuning.startWord (t : LineTuning) : LineTuning := { t with waState := .running, done := false }

/-- LNK.DOWA (R209). -/
def doWord (x : LineId) (s : State) : State :=
  onLine x s fun e =>
    if e.tuning.mode ≠ .patternInject ∨ e.tuning.paState ≠ .tuned then raise .lnkOrder s
    else setTuning x e.tuning.startWord s

/-- The capture stored: the draw counted, the debug words replaced, no line record changed (R210). -/
def storeCapture (x : LineId) (ws : List Word) (s : State) : State :=
  setLink
    { s.link with
      lines := updateLine x (fun e => { e with capSeq := e.capSeq + 1 }) s.link.lines
      debugWords := ws } s

/-- The `N_CAP_WORDS` words the line delivers at its present delay and bitslip (R210). -/
def drawCapture (nCapWords : Nat) (e : LineEntry) : List Word :=
  (List.range nCapWords).map (Config.lineCapture e.id e.capSeq e.tuning.delay e.tuning.bitslip)

/-- LNK.CAPTURE (R210). -/
def capture (x : LineId) (s : State) : State :=
  onLine x s fun e =>
    if e.tuning.running = true then raise .lnkBusy s
    else storeCapture x (drawCapture s.params.nCapWords e) s

/-- The match predicate on captured words: every byte of every word is the pattern byte (R211). -/
def matchesPattern (ws : List Word) (pat : Byte) : Bool :=
  ws.all fun w => decide (w = pat ++ pat ++ pat ++ pat)

/-- LNK.OPTRST (R218): every link's bits cleared, one `core_reset` pulse. -/
def resetLinks (s : State) : State :=
  emit .coreReset (setLink { s.link with links := s.link.links.map fun k => { k with status := linkDown } } s)

/-- LNK.OPTSEL (R219). -/
def selectLink (k : Nibble) (s : State) : State :=
  if s.link.links.length ≤ k.toNat then raise .lnkBadline s
  else setLink { s.link with optSel := k } s

/-- The record after a phase-alignment draw (R214). -/
def LineTuning.phaseResult (t : LineTuning) (r : Option (BitVec 5)) : LineTuning :=
  match r with
  | some d => { t with delay := d, paState := .tuned, done := true }
  | none => { t with paState := .failed }

/-- The record after a word-alignment draw (R216). -/
def LineTuning.wordResult (t : LineTuning) (r : Option (BitVec 3)) : LineTuning :=
  match r with
  | some b => { t with bitslip := b, waState := .tuned, done := true }
  | none => { t with waState := .failed }

/-- The entry after the line agent's phase step with the draw it makes (R214). -/
def LineEntry.phaseStep (e : LineEntry) : LineEntry :=
  { e with tuning := e.tuning.phaseResult (Config.paAuto e.id e.paSeq), paSeq := e.paSeq + 1 }

/-- The entry after the line agent's word step (R216). -/
def LineEntry.wordStep (e : LineEntry) : LineEntry :=
  { e with tuning := e.tuning.wordResult (Config.waAuto e.id e.waSeq), waSeq := e.waSeq + 1 }

/-- A turn of line `x`'s agent for its phase step: enabled when the phase is RUNNING; not enabled, the turn passes
(R214). -/
def phaseTurn (x : LineId) (s : State) : State :=
  match findLine x s.link.lines with
  | none => s
  | some e =>
    if e.tuning.paState = .running then
      setLink { s.link with lines := updateLine x LineEntry.phaseStep s.link.lines } s
    else s

/-- A turn of line `x`'s agent for its word step (R216). -/
def wordTurn (x : LineId) (s : State) : State :=
  match findLine x s.link.lines with
  | none => s
  | some e =>
    if e.tuning.waState = .running then
      setLink { s.link with lines := updateLine x LineEntry.wordStep s.link.lines } s
    else s

/-- A turn of the optical agent of link `k`, always enabled for k below `N_LINKS` (R220). -/
def opticalTurn (k : Nat) (s : State) : State :=
  setLink
    { s.link with
      links := s.link.links.mapIdx fun j o =>
        if j = k then { status := Config.optDraw k o.seq, seq := o.seq + 1 } else o } s

/-- LNK.GETCFG, R203. -/
def execLnkGetcfg (hybrid chip line : Nibble) (s : State) : Host.Outcome State Fault Refusal :=
  .next (getCfg ⟨hybrid, chip, line⟩ s)

/-- LNK.GETSTAT, R204. -/
def execLnkGetstat (hybrid chip line : Nibble) (s : State) : Host.Outcome State Fault Refusal :=
  .next (getStat ⟨hybrid, chip, line⟩ s)

/-- LNK.SETMODE, R205. -/
def execLnkSetmode (hybrid chip line : Nibble) (mode : BitVec 2) (delay : BitVec 5) (bitslip : BitVec 3)
    (s : State) : Host.Outcome State Fault Refusal :=
  .next (setMode ⟨hybrid, chip, line⟩ mode delay bitslip s)

/-- LNK.SETPAT, R207. -/
def execLnkSetpat (hybrid chip line : Nibble) (plen pat : Byte) (s : State) : Host.Outcome State Fault Refusal :=
  .next (setPat ⟨hybrid, chip, line⟩ plen pat s)

/-- LNK.DOPA, R208. -/
def execLnkDopa (hybrid chip line : Nibble) (s : State) : Host.Outcome State Fault Refusal :=
  .next (doPhase ⟨hybrid, chip, line⟩ s)

/-- LNK.DOWA, R209. -/
def execLnkDowa (hybrid chip line : Nibble) (s : State) : Host.Outcome State Fault Refusal :=
  .next (doWord ⟨hybrid, chip, line⟩ s)

/-- LNK.CAPTURE, R210. -/
def execLnkCapture (hybrid chip line : Nibble) (s : State) : Host.Outcome State Fault Refusal :=
  .next (capture ⟨hybrid, chip, line⟩ s)

/-- LNK.OPTRST, R218. -/
def execLnkOptrst (s : State) : Host.Outcome State Fault Refusal := .next (resetLinks s)

/-- LNK.OPTSEL, R219. -/
def execLnkOptsel (link : Nibble) (s : State) : Host.Outcome State Fault Refusal := .next (selectLink link s)

end Sys2Proof.Machine
end

