-- ==== Sys2Proof/Machine/ReadoutEngine.lean ====
section
/-! DEFINITION. The three commands of unit R (42_readout_engine.md R243 to R245) and the steps of its state machine:
poll, handshake read, direct read, carving, stall and the three recovery steps (R246 to R259). -/

namespace Sys2Proof.Machine

/-- The registers ROE.RESET clears (R243). The four configuration registers and the draw counters stay. -/
def Readout.aborted (r : Readout) : Readout :=
  { r with
    cursor := 0#32, state := .idle, result := .none, kind := .av, reqN := 0#28
    polls := 0#32, noprog := 0#8, lastTrig := 0#32, sawReq := false, recovCount := 0#8
    latWc := 0#32, latTrig := 0#32, out := [], frameOffs := [] }

/-- ROE.RESET (R243): accepted in every state. -/
def readoutReset (s : State) : State := setReadout s.readout.aborted (emit .bufReset s)

/-- `Start()` (R244). -/
def Readout.start (r : Readout) : Readout :=
  { r with
    polls := 0#32, noprog := 0#8, lastTrig := 0#32, sawReq := false, recovCount := 0#8
    latWc := 0#32, latTrig := 0#32, result := .none, out := [], frameOffs := [], state := .waitingForWords }

/-- ROE.READAV (R244). -/
def readAvailable (s : State) : State :=
  if s.readout.state.busy = true then raise .roBusy s
  else setReadout ({ s.readout with kind := .av, reqN := 0#28 } : Readout).start s

/-- ROE.READN (R245), its checks in order; the product is over the naturals. -/
def readN (n : BitVec 28) (s : State) : State :=
  if eventsOk n = false then raise .illegalCmd s
  else if s.readout.state.busy = true then raise .roBusy s
  else if s.params.roOutDepth < n.toNat * s.readout.evSize then raise .roOvf s
  else setReadout ({ s.readout with kind := .n, reqN := n } : Readout).start s

/-- The sample latched on leaving the wait (R71). -/
def Readout.latch (r : Readout) (smp : BufSample) : Readout := { r with latWc := smp.wc, latTrig := smp.trig }

/-- `noprog` after a poll without `req`: it counts polls whose trigger count equals that of the poll before; the
first poll of a wait only sets the reference (R247). -/
def Readout.noprogNext (r : Readout) (smp : BufSample) : Byte :=
  if 0 < r.polls.toNat ∧ smp.trig = r.lastTrig then r.noprog + 1#8 else 0#8

/-- The counters after a handshake poll that did not see `req` (R247). -/
def Readout.counted (r : Readout) (smp : BufSample) : Readout :=
  { r with noprog := r.noprogNext smp, lastTrig := smp.trig, polls := r.polls + 1#32 }

/-- A handshake poll without `req`: the wait goes on, or is abandoned into Stalled or a forced handshake (R247). -/
def Readout.pollNoReq (r : Readout) (smp : BufSample) : Readout :=
  let r1 := r.counted smp
  if r1.timeoutPolls.toNat ≤ r1.polls.toNat ∨ Config.noprogLimit ≤ r1.noprog.toNat then
    if smp.trig.toNat < r.targetTrig ∨ smp.wc = 0#32 then { r1.latch smp with state := .stalled }
    else { r1.latch smp with state := .handshake }
  else r1

/-- A poll in direct mode (R247). -/
def Readout.pollDirect (r : Readout) (smp : BufSample) : Readout :=
  if r.kind = .av then { r.latch smp with state := .directRead }
  else if r.targetWords ≤ smp.wc.toNat then { r.latch smp with state := .directRead }
  else
    let r1 := { r with polls := r.polls + 1#32 }
    if r1.timeoutPolls.toNat ≤ r1.polls.toNat then { r1.latch smp with state := .stalled } else r1

/-- The poll step on a drawn sample (R247), the draw counted (R246). -/
def Readout.poll (r : Readout) (smp : BufSample) : Readout :=
  let r0 := { r with smpSeq := r.smpSeq + 1 }
  if r0.handshakeEn = true then
    if smp.req = true then { r0.latch smp with sawReq := true, state := .handshake }
    else r0.pollNoReq smp
  else r0.pollDirect smp

/-- The address of a block read: the DDR3 cursor, or 0 for a FIFO (R252). -/
def Readout.readAddr (r : Readout) : Word := if r.ddr3En = true then r.cursor else 0#32

/-- The cursor after a block read of `n` words (R252, 10_state.md R24). -/
def Readout.cursorAfter (r : Readout) (ring n : Nat) : Word :=
  if r.ddr3En = true then
    if r.sawReq = true then 0#32 else BitVec.ofNat 32 ((r.cursor.toNat + n) % ring)
  else r.cursor

/-- `Read(n)` with the words drawn (R252); `n` is their number. -/
def Readout.load (r : Readout) (ring : Nat) (ws : List Word) : Readout :=
  { r with out := ws, cursor := r.cursorAfter ring ws.length, rdSeq := r.rdSeq + 1 }

/-- The `n` words `AcqRead` answers (R252). -/
def Readout.drawWords (r : Readout) (n : Nat) : List Word :=
  (List.range n).map (Config.acqRead r.rdSeq r.readAddr n)

/-- The length field of a frame's first word, in 128-bit units (30_encoding.md R153). -/
def frameUnits (w : Word) : Nat := (bits w 0 16).toNat

/-- The offsets of the frames of `ws`, whose first word is word `i` of the buffer; none on a length of 0 or one that
runs past the end (R254). The first argument bounds the number of frames. -/
def carveFrom : Nat → Nat → List Word → Option (List Nat)
  | _, _, [] => some []
  | 0, _, _ :: _ => none
  | fuel + 1, i, w :: ws =>
    if frameUnits w = 0 ∨ (w :: ws).length < 4 * frameUnits w then none
    else
      (carveFrom fuel (i + 4 * frameUnits w) ((w :: ws).drop (4 * frameUnits w))).map fun os => i :: os

/-- The offsets of the frames of a buffer, none when it does not carve (R254). -/
def carveOffsets (ws : List Word) : Option (List Nat) := carveFrom ws.length 0 ws

/-- `Carve()` (R254): the engine after it, and the flag it raises. -/
def Readout.carve (r : Readout) : Readout × Option Err :=
  match carveOffsets r.out with
  | none => ({ r with frameOffs := [], result := .decodeErr, state := .error }, some .roDecode)
  | some os =>
    let r1 := { r with frameOffs := os.map (BitVec.ofNat 32) }
    if r.kind = .n ∧ os.length ≠ r.reqN.toNat then
      ({ r1 with result := .countMismatch, state := .error }, some .roCount)
    else ({ r1 with result := .ok, state := .decoded }, none)

/-- A read step of `n` words: too many for the output buffer is OVERFLOW, otherwise `Read(n); Carve()` (R250,
R251). -/
def Readout.readStep (r : Readout) (p : Params) (n : Nat) : Readout × Option Err :=
  if p.roOutDepth < n then ({ r with result := .overflow, state := .error }, some .roOvf)
  else (r.load p.ddr3RingWords (r.drawWords n)).carve

/-- Handshake read step: all the words the latched sample reported (R250). -/
def Readout.handshakeRead (r : Readout) (p : Params) : Readout × Option Err :=
  if r.latWc = 0#32 then ({ r with state := .stalled }, none) else r.readStep p r.latWc.toNat

/-- Direct read step (R251). -/
def Readout.directReadStep (r : Readout) (p : Params) : Readout × Option Err :=
  r.readStep p (if r.kind = .av then r.latWc.toNat else r.targetWords)

/-- Stall step (R255). -/
def Readout.stall (r : Readout) : Readout × Option Err :=
  if r.recovCount.toNat < r.maxRecovery.toNat then ({ r with state := .recoveryStop }, none)
  else ({ r with result := .failed, state := .error }, some .roFailed)

/-- The registers the RecoveryStart step writes (R259). -/
def Readout.restarted (r : Readout) : Readout :=
  { r with
    recovCount := r.recovCount + 1#8, polls := 0#32, noprog := 0#8, lastTrig := 0#32, sawReq := false
    latWc := 0#32, latTrig := 0#32, state := .waitingForWords }

/-- Unit R after a step that may raise. -/
def finishStep (q : Readout × Option Err) (s : State) : State := raiseOpt q.2 (setReadout q.1 s)

/-- A turn of the readout engine: one step in a busy state; in Idle, Decoded and Error it waits for a command and the
turn passes (R242). -/
def engineTurn (s : State) : State :=
  match s.readout.state with
  | .idle => s
  | .waitingForWords => setReadout (s.readout.poll (Config.bufSample s.readout.smpSeq)) s
  | .handshake => finishStep (s.readout.handshakeRead s.params) s
  | .directRead => finishStep (s.readout.directReadStep s.params) s
  | .decoded => s
  | .stalled => finishStep s.readout.stall s
  | .recoveryStop => setReadout { s.readout with state := .recoveryReset } (emit .trigStop s)
  | .recoveryReset => setReadout { s.readout with cursor := 0#32, state := .recoveryStart } (emit .bufReset s)
  | .recoveryStart => setReadout s.readout.restarted (emit .trigStart s)
  | .error => s

/-- ROE.RESET, R243. -/
def execRoeReset (s : State) : Host.Outcome State Fault Refusal := .next (readoutReset s)

/-- ROE.READAV, R244. -/
def execRoeReadav (s : State) : Host.Outcome State Fault Refusal := .next (readAvailable s)

/-- ROE.READN, R245. -/
def execRoeReadn (n : BitVec 28) (s : State) : Host.Outcome State Fault Refusal := .next (readN n s)

end Sys2Proof.Machine
end

