-- ==== Sys2Proof/Machine/System.lean ====
section
/-! DEFINITION. The command that acts on the block as a whole (30_encoding.md R157). -/

namespace Sys2Proof.Machine

/-- SYS.RESET, 70_reset_and_hazards.md R371: exactly the power-on reset, no pulse emitted. -/
def execSysReset (s : State) : Host.Outcome State Fault Refusal := .next (resetBlock s)

end Sys2Proof.Machine
end

