-- ==== Sys2Proof/Machine/Transactions.lean ====
section
/-! DEFINITION. The 22 transaction-word forms: what the bus agent does with the word it has taken from the command
queue (40_codec.md R176). What the chips do with it is outside the block (00_scope.md R6); their replies are draws.
Every form is one dispatch of its own word, so the forms differ in the word sent and in the nominal number of replies
that word's `op`, `rd` and `rb` give (30_encoding.md R119). -/

namespace Sys2Proof.Machine

/-- The replies appended one by one; at the first that finds the queue full, E_FIFO_OVF, and it and the rest are
lost (R176). -/
def appendReplies : List Word → State → State
  | [], s => s
  | r :: rs, s =>
    if s.codec.replyq.length = s.params.replyFifoDepth then raise .fifoOvf s
    else appendReplies rs (setCodec { s.codec with replyq := s.codec.replyq ++ [r] } s)

/-- Dispatch of `w` with the drawn replies `rs`: the word goes out on the command bus, the draw is counted, the
replies come in (R176). -/
def dispatchWith (w : Word) (rs : List Word) (s : State) : State :=
  appendReplies rs (setCodec { s.codec with busSeq := s.codec.busSeq + 1 } (emit (.cmdBus w) s))

/-- The draw of `BusReply` for `w`: at most the nominal number of replies, `n_entries` read now (R176). -/
def drawReplies (w : Word) (s : State) : List Word :=
  let k := nomReplies s.codec.map.length w
  (Config.busReply s.codec.busSeq w k).take k

/-- The bus agent's dispatch of a word (R176). -/
def dispatch (w : Word) (s : State) : State := dispatchWith w (drawReplies w s) s

/-- A request to one chip (R112, R119). -/
def dispatchSingle (sel : Byte) (rb page rd : BitVec 1) (addr value : Byte) (s : State) : State :=
  dispatch (twWord 0#4 sel rb 0#1 page rd addr value) s

/-- A broadcast request, selector 0 (R116, R119). -/
def dispatchBroadcast (rb page rd : BitVec 1) (addr value : Byte) (s : State) : State :=
  dispatch (twWord 2#4 0#8 rb 0#1 page rd addr value) s

/-- LEG.WR: write, no reply due. -/
def execLegWr (hybrid chip : Nibble) (page : BitVec 1) (addr value : Byte) (s : State) :
    Host.Outcome State Fault Refusal :=
  .next (dispatchSingle (nibbleSel hybrid chip) 0#1 page 0#1 addr value s)

/-- LEG.RD: read, one reply due. -/
def execLegRd (hybrid chip : Nibble) (page : BitVec 1) (addr value : Byte) (s : State) :
    Host.Outcome State Fault Refusal :=
  .next (dispatchSingle (nibbleSel hybrid chip) 0#1 page 1#1 addr value s)

/-- LEG.RDB: read-back read, one reply due. -/
def execLegRdb (hybrid chip : Nibble) (page : BitVec 1) (addr value : Byte) (s : State) :
    Host.Outcome State Fault Refusal :=
  .next (dispatchSingle (nibbleSel hybrid chip) 1#1 page 1#1 addr value s)

/-- LEG.BWR: broadcast write, no reply due. -/
def execLegBwr (page : BitVec 1) (addr value : Byte) (s : State) : Host.Outcome State Fault Refusal :=
  .next (dispatchBroadcast 0#1 page 0#1 addr value s)

/-- LEG.BRD: broadcast read, `n_entries` replies due. -/
def execLegBrd (page : BitVec 1) (addr value : Byte) (s : State) : Host.Outcome State Fault Refusal :=
  .next (dispatchBroadcast 0#1 page 1#1 addr value s)

/-- LEG.BRDB: broadcast read-back read, `n_entries` replies due. -/
def execLegBrdb (page : BitVec 1) (addr value : Byte) (s : State) : Host.Outcome State Fault Refusal :=
  .next (dispatchBroadcast 1#1 page 1#1 addr value s)

/-- IDX.WR: write, no reply due. -/
def execIdxWr (gidx : Byte) (page : BitVec 1) (addr value : Byte) (s : State) : Host.Outcome State Fault Refusal :=
  .next (dispatchSingle gidx 0#1 page 0#1 addr value s)

/-- IDX.WRV: write with read-back, one reply due. -/
def execIdxWrv (gidx : Byte) (page : BitVec 1) (addr value : Byte) (s : State) : Host.Outcome State Fault Refusal :=
  .next (dispatchSingle gidx 1#1 page 0#1 addr value s)

/-- IDX.RD: read, one reply due. -/
def execIdxRd (gidx : Byte) (page : BitVec 1) (addr value : Byte) (s : State) : Host.Outcome State Fault Refusal :=
  .next (dispatchSingle gidx 0#1 page 1#1 addr value s)

/-- IDX.RDB: read-back read, one reply due. -/
def execIdxRdb (gidx : Byte) (page : BitVec 1) (addr value : Byte) (s : State) : Host.Outcome State Fault Refusal :=
  .next (dispatchSingle gidx 1#1 page 1#1 addr value s)

/-- IDX.BWR: broadcast write, no reply due. -/
def execIdxBwr (page : BitVec 1) (addr value : Byte) (s : State) : Host.Outcome State Fault Refusal :=
  .next (dispatchBroadcast 0#1 page 0#1 addr value s)

/-- IDX.BWRV: broadcast write with read-back, `n_entries` replies due. -/
def execIdxBwrv (page : BitVec 1) (addr value : Byte) (s : State) : Host.Outcome State Fault Refusal :=
  .next (dispatchBroadcast 1#1 page 0#1 addr value s)

/-- IDX.BRD: broadcast read, `n_entries` replies due. -/
def execIdxBrd (page : BitVec 1) (addr value : Byte) (s : State) : Host.Outcome State Fault Refusal :=
  .next (dispatchBroadcast 0#1 page 1#1 addr value s)

/-- IDX.BRDB: broadcast read-back read, `n_entries` replies due. -/
def execIdxBrdb (page : BitVec 1) (addr value : Byte) (s : State) : Host.Outcome State Fault Refusal :=
  .next (dispatchBroadcast 1#1 page 1#1 addr value s)

/-- OPT.WR: write, no reply due. -/
def execOptWr (link lidx : Nibble) (page : BitVec 1) (addr value : Byte) (s : State) :
    Host.Outcome State Fault Refusal :=
  .next (dispatchSingle (nibbleSel link lidx) 0#1 page 0#1 addr value s)

/-- OPT.WRV: write with read-back, one reply due. -/
def execOptWrv (link lidx : Nibble) (page : BitVec 1) (addr value : Byte) (s : State) :
    Host.Outcome State Fault Refusal :=
  .next (dispatchSingle (nibbleSel link lidx) 1#1 page 0#1 addr value s)

/-- OPT.RD: read, one reply due. -/
def execOptRd (link lidx : Nibble) (page : BitVec 1) (addr value : Byte) (s : State) :
    Host.Outcome State Fault Refusal :=
  .next (dispatchSingle (nibbleSel link lidx) 0#1 page 1#1 addr value s)

/-- OPT.RDB: read-back read, one reply due. -/
def execOptRdb (link lidx : Nibble) (page : BitVec 1) (addr value : Byte) (s : State) :
    Host.Outcome State Fault Refusal :=
  .next (dispatchSingle (nibbleSel link lidx) 1#1 page 1#1 addr value s)

/-- OPT.BWR: broadcast write, no reply due. -/
def execOptBwr (page : BitVec 1) (addr value : Byte) (s : State) : Host.Outcome State Fault Refusal :=
  .next (dispatchBroadcast 0#1 page 0#1 addr value s)

/-- OPT.BWRV: broadcast write with read-back, `n_entries` replies due. -/
def execOptBwrv (page : BitVec 1) (addr value : Byte) (s : State) : Host.Outcome State Fault Refusal :=
  .next (dispatchBroadcast 1#1 page 0#1 addr value s)

/-- OPT.BRD: broadcast read, `n_entries` replies due. -/
def execOptBrd (page : BitVec 1) (addr value : Byte) (s : State) : Host.Outcome State Fault Refusal :=
  .next (dispatchBroadcast 0#1 page 1#1 addr value s)

/-- OPT.BRDB: broadcast read-back read, `n_entries` replies due. -/
def execOptBrdb (page : BitVec 1) (addr value : Byte) (s : State) : Host.Outcome State Fault Refusal :=
  .next (dispatchBroadcast 1#1 page 1#1 addr value s)

end Sys2Proof.Machine
end

