-- ==== Sys2Proof/Machine/Dispatch.lean ====
section
/-! DEFINITION. The dispatch: one arm per instruction, each one call of its meaning. -/

namespace Sys2Proof.Machine

def exec (i : Instr) (s : State) : Host.Outcome State Fault Refusal :=
  match i with
  | .legWr hybrid chip page addr value => Sys2Proof.Machine.execLegWr hybrid chip page addr value s
  | .legRd hybrid chip page addr value => Sys2Proof.Machine.execLegRd hybrid chip page addr value s
  | .legRdb hybrid chip page addr value => Sys2Proof.Machine.execLegRdb hybrid chip page addr value s
  | .legBwr page addr value => Sys2Proof.Machine.execLegBwr page addr value s
  | .legBrd page addr value => Sys2Proof.Machine.execLegBrd page addr value s
  | .legBrdb page addr value => Sys2Proof.Machine.execLegBrdb page addr value s
  | .idxWr gidx page addr value => Sys2Proof.Machine.execIdxWr gidx page addr value s
  | .idxWrv gidx page addr value => Sys2Proof.Machine.execIdxWrv gidx page addr value s
  | .idxRd gidx page addr value => Sys2Proof.Machine.execIdxRd gidx page addr value s
  | .idxRdb gidx page addr value => Sys2Proof.Machine.execIdxRdb gidx page addr value s
  | .idxBwr page addr value => Sys2Proof.Machine.execIdxBwr page addr value s
  | .idxBwrv page addr value => Sys2Proof.Machine.execIdxBwrv page addr value s
  | .idxBrd page addr value => Sys2Proof.Machine.execIdxBrd page addr value s
  | .idxBrdb page addr value => Sys2Proof.Machine.execIdxBrdb page addr value s
  | .optWr link lidx page addr value => Sys2Proof.Machine.execOptWr link lidx page addr value s
  | .optWrv link lidx page addr value => Sys2Proof.Machine.execOptWrv link lidx page addr value s
  | .optRd link lidx page addr value => Sys2Proof.Machine.execOptRd link lidx page addr value s
  | .optRdb link lidx page addr value => Sys2Proof.Machine.execOptRdb link lidx page addr value s
  | .optBwr page addr value => Sys2Proof.Machine.execOptBwr page addr value s
  | .optBwrv page addr value => Sys2Proof.Machine.execOptBwrv page addr value s
  | .optBrd page addr value => Sys2Proof.Machine.execOptBrd page addr value s
  | .optBrdb page addr value => Sys2Proof.Machine.execOptBrdb page addr value s
  | .sysReset => Sys2Proof.Machine.execSysReset s
  | .txcConfigure => Sys2Proof.Machine.execTxcConfigure s
  | .txcFlush => Sys2Proof.Machine.execTxcFlush s
  | .txcMapadd link hybrid chip bw busAddr => Sys2Proof.Machine.execTxcMapadd link hybrid chip bw busAddr s
  | .txcEnc bcast write readback hybrid chip page addr value => Sys2Proof.Machine.execTxcEnc bcast write readback hybrid chip page addr value s
  | .txcDec word => Sys2Proof.Machine.execTxcDec word s
  | .txcPush word => Sys2Proof.Machine.execTxcPush word s
  | .txcPop => Sys2Proof.Machine.execTxcPop s
  | .lnkGetcfg hybrid chip line => Sys2Proof.Machine.execLnkGetcfg hybrid chip line s
  | .lnkGetstat hybrid chip line => Sys2Proof.Machine.execLnkGetstat hybrid chip line s
  | .lnkSetmode hybrid chip line mode delay bitslip => Sys2Proof.Machine.execLnkSetmode hybrid chip line mode delay bitslip s
  | .lnkSetpat hybrid chip line plen pat => Sys2Proof.Machine.execLnkSetpat hybrid chip line plen pat s
  | .lnkDopa hybrid chip line => Sys2Proof.Machine.execLnkDopa hybrid chip line s
  | .lnkDowa hybrid chip line => Sys2Proof.Machine.execLnkDowa hybrid chip line s
  | .lnkCapture hybrid chip line => Sys2Proof.Machine.execLnkCapture hybrid chip line s
  | .lnkOptrst => Sys2Proof.Machine.execLnkOptrst s
  | .lnkOptsel link => Sys2Proof.Machine.execLnkOptsel link s
  | .roeReset => Sys2Proof.Machine.execRoeReset s
  | .roeReadav => Sys2Proof.Machine.execRoeReadav s
  | .roeReadn n => Sys2Proof.Machine.execRoeReadn n s

end Sys2Proof.Machine
end

