-- ==== Sys2Proof/Machine/Registers.lean ====
section
/-! DEFINITION. The register file as the host sees it: the names, the access classes, what a read returns and what a
write to an RW register does (10_state.md R26 to R59, 20_memory.md R82, R88, R89). -/

namespace Sys2Proof.Machine

/-- The access classes of R26. -/
inductive RegClass where
  | ro
  | rw
  | port
  | pop
deriving DecidableEq, Repr

/-- The class of a register (R27 to R59). -/
def regClass : Reg → RegClass
  | .busProtocolVersion => .ro
  | .error => .ro
  | .ctrlReset => .port
  | .codecCtrl => .port
  | .codecStat => .ro
  | .mapAdd => .port
  | .mapSel => .rw
  | .mapRd => .ro
  | .encReq => .port
  | .encCount => .ro
  | .encWord0 => .ro
  | .encWord1 => .ro
  | .decIn => .port
  | .decOut => .ro
  | .cmdFifo => .port
  | .replyFifo => .pop
  | .fifoStat => .ro
  | .tuningCtrl => .port
  | .tuningReply => .ro
  | .debugWords => .ro
  | .opticalCtrl => .port
  | .opticalStat => .ro
  | .roCnfg => .rw
  | .roTimeoutPolls => .rw
  | .roTrigCnfg => .rw
  | .roEvsizeCnfg => .rw
  | .roCtrl => .port
  | .roStat => .ro
  | .roWordCount => .ro
  | .roFrameCount => .ro
  | .roData => .ro
  | .roFrameOffs => .ro
  | .roCursor => .ro
  | .roPolls => .ro
  | .roNoprog => .ro

/-- The dotted name of a register (R26). -/
def regName : Reg → String
  | .busProtocolVersion => "lrc.stat.bus_protocol_version"
  | .error => "lrc.stat.error"
  | .ctrlReset => "lrc.ctrl.reset"
  | .codecCtrl => "lrc.codec.ctrl"
  | .codecStat => "lrc.codec.stat"
  | .mapAdd => "lrc.codec.map_add"
  | .mapSel => "lrc.codec.map_sel"
  | .mapRd => "lrc.codec.map_rd"
  | .encReq => "lrc.codec.enc_req"
  | .encCount => "lrc.codec.enc_count"
  | .encWord0 => "lrc.codec.enc_word0"
  | .encWord1 => "lrc.codec.enc_word1"
  | .decIn => "lrc.codec.dec_in"
  | .decOut => "lrc.codec.dec_out"
  | .cmdFifo => "lrc.codec.cmd_fifo"
  | .replyFifo => "lrc.codec.reply_fifo"
  | .fifoStat => "lrc.codec.fifo_stat"
  | .tuningCtrl => "lrc.link.tuning_ctrl"
  | .tuningReply => "lrc.link.tuning_reply"
  | .debugWords => "lrc.link.debug_words"
  | .opticalCtrl => "lrc.link.optical_ctrl"
  | .opticalStat => "lrc.link.optical_stat"
  | .roCnfg => "lrc.ro.cnfg"
  | .roTimeoutPolls => "lrc.ro.timeout_polls"
  | .roTrigCnfg => "lrc.ro.trig_cnfg"
  | .roEvsizeCnfg => "lrc.ro.evsize_cnfg"
  | .roCtrl => "lrc.ro.ctrl"
  | .roStat => "lrc.ro.stat"
  | .roWordCount => "lrc.ro.word_count"
  | .roFrameCount => "lrc.ro.frame_count"
  | .roData => "lrc.ro.data"
  | .roFrameOffs => "lrc.ro.frame_offs"
  | .roCursor => "lrc.ro.cursor"
  | .roPolls => "lrc.ro.polls"
  | .roNoprog => "lrc.ro.noprog"

/-- What a read returns: element `i` of an array register (R45, R56, R57: zero beyond its content), the register's
value otherwise, 0 for a write-only port (R26). `lrc.codec.reply_fifo` is read by TXC.POP, not here. -/
def readReg (r : Reg) (i : Nat) (s : State) : Word :=
  match r with
  | .busProtocolVersion => s.params.busProtoVer
  | .error => s.error
  | .ctrlReset => 0#32
  | .codecCtrl => 0#32
  | .codecStat => s.codec.stat
  | .mapAdd => 0#32
  | .mapSel => 0#24 ++ s.codec.mapSel
  | .mapRd => s.codec.mapRd
  | .encReq => 0#32
  | .encCount => 0#30 ++ s.codec.encCount
  | .encWord0 => s.codec.encWord0
  | .encWord1 => s.codec.encWord1
  | .decIn => 0#32
  | .decOut => s.codec.decOut
  | .cmdFifo => 0#32
  | .replyFifo => 0#32
  | .fifoStat => s.codec.fifoStat
  | .tuningCtrl => 0#32
  | .tuningReply => s.link.tuningReply
  | .debugWords => s.link.debugWords.getD i 0#32
  | .opticalCtrl => 0#32
  | .opticalStat => s.link.opticalStat
  | .roCnfg => s.readout.cnfg
  | .roTimeoutPolls => s.readout.timeoutPolls
  | .roTrigCnfg => s.readout.trigCnfg
  | .roEvsizeCnfg => s.readout.evsizeCnfg
  | .roCtrl => 0#32
  | .roStat => s.readout.stat
  | .roWordCount => BitVec.ofNat 32 s.readout.out.length
  | .roFrameCount => BitVec.ofNat 32 s.readout.frameOffs.length
  | .roData => s.readout.out.getD i 0#32
  | .roFrameOffs => s.readout.frameOffs.getD i 0#32
  | .roCursor => s.readout.cursor
  | .roPolls => s.readout.polls
  | .roNoprog => 0#24 ++ s.readout.noprog

/-- A write to one of unit R's four configuration registers: refused with E_RO_BUSY while a request is in progress
(R48 to R51). -/
def writeConfig (r : Readout) (s : State) : State :=
  if s.readout.state.busy = true then raise .roBusy s else setReadout r s

/-- The bits `lrc.ro.cnfg` stores (R48). -/
def cnfgMask : Word := 0x0000FF03#32

/-- The bits `lrc.ro.evsize_cnfg` stores (R51). -/
def evsizeMask : Word := 0x00FFFFFF#32

/-- A write that is no command: an RW register stores its listed bits, reserved bits ignore the write, and a write
to an RO register is ignored (R26, R82). The ports' arms are never asked: their writes are commands. -/
def writeReg (r : Reg) (w : Word) (s : State) : State :=
  match r with
  | .mapSel => setCodec { s.codec with mapSel := bits w 0 8 } s
  | .roCnfg => writeConfig { s.readout with cnfg := w &&& cnfgMask } s
  | .roTimeoutPolls => writeConfig { s.readout with timeoutPolls := w } s
  | .roTrigCnfg => writeConfig { s.readout with trigCnfg := w } s
  | .roEvsizeCnfg => writeConfig { s.readout with evsizeCnfg := w &&& evsizeMask } s
  | _ => s

end Sys2Proof.Machine
end

