-- ==== Sys2Proof/Machine/Events.lean ====
section
/-! DEFINITION. One atomic event (00_scope.md R10): a host access, a turn of an agent, or power-on reset; and how the
machine comes to its next event. -/

namespace Sys2Proof.Machine

/-- A single host write (20_memory.md R81, R89): to a command port it issues the command its word decodes to, or
raises E_ILLEGAL_CMD (30_encoding.md R130); to any other register it is a plain write. -/
def hostWrite (r : Reg) (w : Word) (s : State) : Host.Outcome State Fault Refusal :=
  match regClass r with
  | .port =>
    match decode (.write r w) with
    | .ok i => exec i s
    | .error _ => .next (raise .illegalCmd s)
  | .ro => .next (writeReg r w s)
  | .rw => .next (writeReg r w s)
  | .pop => .next (writeReg r w s)

/-- A single host read, of element `i` for an array register (R82): of `lrc.codec.reply_fifo` it is TXC.POP (R41),
otherwise it only returns the value (R88). -/
def hostRead (r : Reg) (i : Nat) (s : State) : Host.Outcome State Fault Refusal :=
  match decode (.read r) with
  | .ok ins => exec ins s
  | .error _ => .next (setRdata (readReg r i s) s)

/-- A turn of the bus agent (40_codec.md R176): it takes the head of the command queue and runs the form it decodes
to under the variant in force; with an empty queue it is not enabled and the turn passes. -/
def busTurn (s : State) : Host.Outcome State Fault Refusal :=
  match s.codec.cmdq with
  | [] => .next s
  | w :: q =>
    match decode (.dispatch s.codec.variant w) with
    | .ok i => exec i (setCodec { s.codec with cmdq := q } s)
    | .error _ => .fault (.queuedWordIllegal w)

/-- A turn of an agent (R10). -/
def agentTurn (a : Agent) (s : State) : Host.Outcome State Fault Refusal :=
  match a with
  | .bus => busTurn s
  | .linePhase x => .next (phaseTurn x s)
  | .lineWord x => .next (wordTurn x s)
  | .optical k => .next (opticalTurn k s)
  | .engine => .next (engineTurn s)

/-- One event. The reset input is the power-on reset of 70_reset_and_hazards.md R370. -/
def runEvent (e : Event) (s : State) : Host.Outcome State Fault Refusal :=
  match e with
  | .wr r w => hostWrite r w s
  | .rd r i => hostRead r i s
  | .agent a => agentTurn a s
  | .rst => .next (resetBlock s)

/-- The next event and the state it runs in: the head of the script, or what the free schedule decides (R10: any
enabled agent may step at any time, the source fixes no relative speed). -/
def takeEvent (s : State) : Event × State :=
  match s.script with
  | e :: es => (e, { s with script := es })
  | [] => (Config.schedule s.turn, { s with turn := s.turn + 1 })

/-- An issue placed to be the next thing that happens: a host access heads the script; a transaction word heads the
command queue, under its variant, with the bus agent's turn next. -/
def placeIssue (c : Issue) (s : State) : State :=
  match c with
  | .write r w => { s with script := .wr r w :: s.script }
  | .read r => { s with script := .rd r 0 :: s.script }
  | .dispatch v w =>
    { s with
      codec := { s.codec with variant := v, cmdq := w :: s.codec.cmdq }
      script := .agent .bus :: s.script }

/-- A bare table word placed so that the next step runs it (see `tableIssue`). -/
def placeTableWord (nbits w : Nat) (s : State) : State :=
  match tableIssue nbits w with
  | some c => placeIssue c s
  | none => s

end Sys2Proof.Machine
end

