-- ==== Sys2Proof/Machine/Step.lean ====
section
/-! DEFINITION. One step of the machine: one event of the interleaving. -/

namespace Sys2Proof.Machine

/-- One step: the next event runs. -/
def step (s : State) : Host.Outcome State Fault Refusal := runEvent (takeEvent s).1 (takeEvent s).2

/-- The word of an opcode-table row stored where the next step takes its event (notes/assumptions/3.md, 5.md). -/
def State.withFetchWord (s : State) (nbits w : Nat) : State := placeTableWord nbits w s

end Sys2Proof.Machine
end

