-- ==== Sys2Proof/Machine/Fairness.lean ====
section
/-! DEFINITION. Runs of the machine and the weak fairness of its agents (00_scope.md R10, R16). The schedule is an
argument, so that what is said holds of every schedule, the model's own `Config.schedule` among them. -/

namespace Sys2Proof.Machine

/-- The agent has an enabled step (R10, R16): the bus agent with a word queued (40_codec.md R176), a line's agent while
the alignment it ends is RUNNING (41_link_trainer.md R214, R216), the optical agent of an existing link always (R220),
the engine with a request in progress (42_readout_engine.md R242). -/
def agentEnabled (a : Agent) (s : State) : Bool :=
  match a with
  | .bus => !s.codec.cmdq.isEmpty
  | .linePhase x => (findLine x s.link.lines).any fun e => decide (e.tuning.paState = .running)
  | .lineWord x => (findLine x s.link.lines).any fun e => decide (e.tuning.waState = .running)
  | .optical k => decide (k < s.link.links.length)
  | .engine => s.readout.state.busy

/-- The next event under a schedule, and the state it runs in: `takeEvent` with the schedule an argument. -/
def eventUnder (sched : Nat → Event) (s : State) : Event × State :=
  match s.script with
  | e :: es => (e, { s with script := es })
  | [] => (sched s.turn, { s with turn := s.turn + 1 })

/-- One step under a schedule; `step` is this under `Config.schedule`. -/
def stepUnder (sched : Nat → Event) (s : State) : Host.Outcome State Fault Refusal :=
  runEvent (eventUnder sched s).1 (eventUnder sched s).2

/-- The state after `n` steps; none when the machine has stopped. -/
def runUnder (sched : Nat → Event) : Nat → State → Option State
  | 0, s => some s
  | n + 1, s =>
    match runUnder sched n s with
    | none => none
    | some t =>
      match stepUnder sched t with
      | .next u => some u
      | .fault _ => none
      | .refused _ => none

/-- The run from `s` passes at step `m` through a state with `P`. -/
def runMeets (sched : Nat → Event) (s : State) (m : Nat) (P : State → Prop) : Prop :=
  ∃ t, runUnder sched m s = some t ∧ P t

/-- The run from `s` is weakly fair (R16): an agent enabled at every step from some point on eventually steps after
that point. -/
def WeaklyFair (sched : Nat → Event) (s : State) : Prop :=
  ∀ (a : Agent) (n : Nat),
    (∀ m, n ≤ m → runMeets sched s m fun t => agentEnabled a t = true) →
    ∃ m, n ≤ m ∧ runMeets sched s m fun t => (eventUnder sched t).1 = .agent a

end Sys2Proof.Machine
end

