-- ==== Sys2Proof/Machine/HostAccess.lean ====
section
/-! DEFINITION. The four access primitives (20_memory.md R81, R82, R87) as sequences of single accesses, and host
programs made of them: a program is what the host does between two results, and the other agents may step before
each single access and at each sleep (00_scope.md R10, R17). -/

namespace Sys2Proof.Machine

/-- The four primitives `RD`, `WR`, `RDB`, `WRB` (R81). -/
inductive Access where
  | rd (r : Reg)
  | wr (r : Reg) (w : Word)
  | rdb (r : Reg) (count : Nat)
  | wrb (r : Reg) (ws : List Word)
deriving DecidableEq, Repr

/-- The registers whose block read returns the elements of an array (R82). -/
def isArray : Reg → Bool
  | .roData => true
  | .roFrameOffs => true
  | .debugWords => true
  | _ => false

/-- The single accesses a primitive is made of, in order (R82, R87): one pop per element of an RO-pop block read, one
read per element of an array, ONE read of any other register, one write per element of a block write. -/
def Access.events (a : Access) : List Event :=
  match a with
  | .rd r => [.rd r 0]
  | .wr r w => [.wr r w]
  | .rdb r n =>
    if regClass r = .pop ∨ isArray r = true then (List.range n).map fun i => .rd r i
    else if n = 0 then [] else [.rd r 0]
  | .wrb r ws => ws.map fun w => .wr r w

/-- What a primitive returns, from the words its single reads returned (R82: a block read of any other register is
`count` copies of one read). -/
def Access.result (a : Access) (reads : List Word) : List Word :=
  match a with
  | .rd _ => reads
  | .wr _ _ => []
  | .rdb r n => if regClass r = .pop ∨ isArray r = true then reads else List.replicate n (reads.headD 0#32)
  | .wrb _ _ => []

/-- A host program: accesses, sleeps, and a result (43_host_sequences.md). -/
inductive Prog (α : Type) where
  | ret (a : α)
  | access (a : Access) (k : List Word → Prog α)
  | sleep (k : Prog α)

/-- One program after another. -/
def Prog.bind {α β : Type} (p : Prog α) (f : α → Prog β) : Prog β :=
  match p with
  | .ret a => f a
  | .access a k => .access a fun ws => (k ws).bind f
  | .sleep k => .sleep (k.bind f)

/-- `RD name`, the word read handed on. -/
def Prog.rd {α : Type} (r : Reg) (k : Word → Prog α) : Prog α := .access (.rd r) fun ws => k (ws.headD 0#32)

/-- `WR name, v`. -/
def Prog.wr {α : Type} (r : Reg) (w : Word) (k : Prog α) : Prog α := .access (.wr r w) fun _ => k

/-- `RDB name, count`. -/
def Prog.rdb {α : Type} (r : Reg) (n : Nat) (k : List Word → Prog α) : Prog α := .access (.rdb r n) k

/-- `WRB name, values`. -/
def Prog.wrb {α : Type} (r : Reg) (ws : List Word) (k : Prog α) : Prog α := .access (.wrb r ws) fun _ => k

/-- A command stands for the write that issues it (00_scope.md R13). -/
def Prog.command {α : Type} (i : Instr) (k : Prog α) : Prog α :=
  match encode i with
  | .write r w => .wr r w k
  | .read r => .rd r fun _ => k
  | .dispatch _ _ => k

/-- Where a run stands: the machine's state and how many points at which agents may step have passed. -/
structure RunState where
  state : State
  point : Nat
deriving DecidableEq, Repr

/-- The turns of agents at one point, in order; none when the machine stops. -/
def runAgents : List Agent → State → Option State
  | [], s => some s
  | a :: as, s =>
    match agentTurn a s with
    | .next s' => runAgents as s'
    | .fault _ => none
    | .refused _ => none

/-- The agents scheduled at the next point step. -/
def runPoint (sched : Nat → List Agent) (q : RunState) : Option RunState :=
  match runAgents (sched q.point) q.state with
  | some s => some { state := s, point := q.point + 1 }
  | none => none

/-- Single accesses in order, the agents stepping before each; the words read, in order. -/
def runEvents (sched : Nat → List Agent) : List Event → RunState → Option (List Word × RunState)
  | [], q => some ([], q)
  | e :: es, q =>
    match runPoint sched q with
    | none => none
    | some q1 =>
      match runEvent e q1.state with
      | .next s =>
        match runEvents sched es { q1 with state := s } with
        | none => none
        | some (ws, q2) =>
          match e with
          | .rd _ _ => some (s.rdata :: ws, q2)
          | .wr _ _ => some (ws, q2)
          | .agent _ => some (ws, q2)
          | .rst => some (ws, q2)
      | .fault _ => none
      | .refused _ => none

/-- A run of a host program under a schedule of the agents; none when the machine stops. -/
def Prog.run {α : Type} (sched : Nat → List Agent) (p : Prog α) (q : RunState) : Option (α × RunState) :=
  match p with
  | .ret a => some (a, q)
  | .access a k =>
    match runEvents sched a.events q with
    | none => none
    | some (ws, q1) => (k (a.result ws)).run sched q1
  | .sleep k =>
    match runPoint sched q with
    | none => none
    | some q1 => k.run sched q1

end Sys2Proof.Machine
end

