-- ==== Sys2Proof/Machine/HostSequences.lean ====
section
/-! DEFINITION. The nine host sequences of 43_host_sequences.md as host programs, each expansion as its rule writes
it: SEQ.CONFIGURE, SEQ.WRITEV, SEQ.READT, SEQ.OPTLOCK, SEQ.PHASETUNE, SEQ.WORDALIGN, SEQ.TUNEGROUP,
SEQ.READAVAILABLE, SEQ.READEXACTLY, with the helpers Transact and AwaitReadout; and the whole run they make up (R320). -/

namespace Sys2Proof.Machine

/-- The outcome of a sequence (R290). -/
inductive SeqOutcome where
  | ok
  | writeFailed
  | tooManyErrors
  | replyTimeout
  | linkUnlockable
  | lineFailed
  | roFailed
  | roDecode
  | roCount
  | cfgError
  | hwError
deriving DecidableEq, Repr

/-- The numeric codes of R290. -/
def SeqOutcome.code : SeqOutcome → Nat
  | .ok => 0
  | .writeFailed => 1
  | .tooManyErrors => 2
  | .replyTimeout => 3
  | .linkUnlockable => 4
  | .lineFailed => 5
  | .roFailed => 6
  | .roDecode => 7
  | .roCount => 8
  | .cfgError => 9
  | .hwError => 10

/-- The outcomes R290 classes as fatal: the caller must not continue the run on one. -/
def SeqOutcome.fatal : SeqOutcome → Bool
  | .ok => false
  | .writeFailed => false
  | .tooManyErrors => true
  | .replyTimeout => false
  | .linkUnlockable => true
  | .lineFailed => true
  | .roFailed => true
  | .roDecode => false
  | .roCount => false
  | .cfgError => false
  | .hwError => false

/-- A front-end family tag; the source names no family (00_scope.md R14, 91_not_in_source.md N4). -/
abbrev Family := Nat

/-- What the host knows: the topology and the parameters of R8 the sequences read. Their ranges are
`HostParams.InRange`. -/
structure HostParams where
  lines          : List LineId
  nLinks         : Nat
  firstStubLine  : Nibble
  cplOffset      : Family → Bool
  patLengths     : Family → List Byte
  nCapWords      : Nat
  cmdFifoDepth   : Nat
  replyFifoDepth : Nat
  lnkPollMax     : Nat
  optPollMax     : Nat
  txnPollMax     : Nat
  roPollMax      : Nat
  /-- `RO_TIMEOUT(n, rateHz)`; `n` has the 28 bits of the operand of ROE.READN. -/
  roTimeout      : BitVec 28 → Nat → Word

/-- The ranges of the host's parameters (00_scope.md R8, and R318 for `RO_TIMEOUT`). `LINES` may be any set, and
FIRST_STUB_LINE is at most 15 by its type. Of `RO_TIMEOUT`, U22 of 93_implementation_defined.md would let 0 through;
R8 and R318 ask for at least 1 and for a value that does not fall as n grows, and they are followed (DESIGN CHOICE;
notes/assumptions/20.md). -/
structure HostParams.InRange (hp : HostParams) : Prop where
  linksFit : hp.nLinks ≤ 16
  stubLineExists : hp.firstStubLine ≠ 0#4
  lengthsGiven : ∀ f, hp.patLengths f ≠ []
  lengthsLegal : ∀ f, ∀ n ∈ hp.patLengths f, n ≠ 0#8
  captureWords : 1 ≤ hp.nCapWords
  commandDepth : 1 ≤ hp.cmdFifoDepth ∧ hp.cmdFifoDepth ≤ 65535
  replyDepth : 1 ≤ hp.replyFifoDepth ∧ hp.replyFifoDepth ≤ 65535
  linePolls : 1 ≤ hp.lnkPollMax
  opticalPolls : 1 ≤ hp.optPollMax
  transactionPolls : 1 ≤ hp.txnPollMax
  readoutPolls : 1 ≤ hp.roPollMax
  timeoutPositive : ∀ n rate, hp.roTimeout n rate ≠ 0#32
  timeoutMonotone : ∀ n m rate, n.toNat ≤ m.toNat → (hp.roTimeout n rate).toNat ≤ (hp.roTimeout m rate).toNat

/-- The host's parameters at the spec's defaults for the machine's own configuration (R8); the families' data and
`RO_POLL_MAX` are OPEN and given, and `RO_TIMEOUT` is the suggested `max(1, n)` (R318). -/
def HostParams.atDefaults (cplOffset : Family → Bool) (patLengths : Family → List Byte) (roPollMax : Nat) :
    HostParams where
  lines := Config.lines
  nLinks := Config.nLinks.val
  firstStubLine := 1#4
  cplOffset := cplOffset
  patLengths := patLengths
  nCapWords := Config.params.nCapWords
  cmdFifoDepth := Config.params.cmdFifoDepth
  replyFifoDepth := Config.params.replyFifoDepth
  lnkPollMax := 10
  optPollMax := 1
  txnPollMax := 100
  roPollMax := roPollMax
  roTimeout := fun n _ => BitVec.ofNat 32 (max 1 n.toNat)

/-! ## Unit C sequences -/

/-- A chip of the topology (R291). -/
structure ChipDesc where
  link    : Nibble
  hybrid  : Nibble
  chip    : Nibble
  bw      : BitVec 2
  busAddr : BitVec 7
deriving DecidableEq, Repr

/-- The write that issues TXC.MAPADD for a chip, whatever its fields. -/
def addChips {α : Type} (k : Prog α) : List ChipDesc → Prog α
  | [] => k
  | c :: cs => .wr .mapAdd (cmWord c.link c.hybrid c.chip c.bw c.busAddr) (addChips k cs)

/-- `SEQ.CONFIGURE(chips)` (R291). -/
def seqConfigure (chips : List ChipDesc) : Prog SeqOutcome :=
  .rd .busProtocolVersion fun _ =>
  .command .txcConfigure <|
  .rd .codecStat fun s =>
    if bits s 2 1 = 0#1 then .ret .cfgError
    else
      addChips
        (.rd .codecStat fun s2 =>
          if (bits s2 8 9).toNat ≠ chips.length then .ret .cfgError else .ret .ok)
        chips

/-- The longest prefix with at most `nw` words and at most `nr` nominal replies, and the rest (R295). -/
def takeChunk (nEntries : Nat) : Nat → Nat → List Word → List Word × List Word
  | _, _, [] => ([], [])
  | 0, _, w :: ws => ([], w :: ws)
  | nw + 1, nr, w :: ws =>
    if nomReplies nEntries w ≤ nr then
      ((w :: (takeChunk nEntries nw (nr - nomReplies nEntries w) ws).1),
        (takeChunk nEntries nw (nr - nomReplies nEntries w) ws).2)
    else ([], w :: ws)

/-- The split of a batch into chunks, none when a first remaining word alone exceeds the reply queue (R295). The
first argument bounds the number of chunks. -/
def chunksFrom (hp : HostParams) (nEntries : Nat) : Nat → List Word → Option (List (List Word))
  | _, [] => some []
  | 0, _ :: _ => none
  | fuel + 1, w :: ws =>
    if hp.replyFifoDepth < nomReplies nEntries w then none
    else
      (chunksFrom hp nEntries fuel (takeChunk nEntries hp.cmdFifoDepth hp.replyFifoDepth (w :: ws)).2).map fun cs =>
        (takeChunk nEntries hp.cmdFifoDepth hp.replyFifoDepth (w :: ws)).1 :: cs

/-- The poll for an empty command queue, at most the given number of times (R295). -/
def awaitDrained {α : Type} (give : Prog α) (k : Word → Prog α) : Nat → Prog α
  | 0 => give
  | left + 1 =>
    .rd .fifoStat fun f =>
      if bits f 16 16 = 0#16 then k f
      else if left = 0 then give
      else .sleep (awaitDrained give k left)

/-- The nominal replies of a list of words (R119, R295). -/
def dueReplies (nEntries : Nat) (ws : List Word) : Nat := (ws.map (nomReplies nEntries)).sum

/-- The chunks carried over the bus one after another (R295). -/
def transactChunks (hp : HostParams) (nEntries : Nat) :
    List (List Word) → List Word → Prog (SeqOutcome × List Word)
  | [], replies => .ret (.ok, replies)
  | ch :: chs, replies =>
    .command .txcFlush <|
    .wrb .cmdFifo ch <|
    awaitDrained (.ret (.replyTimeout, replies))
      (fun f =>
        .rdb .replyFifo (bits f 0 16).toNat fun rs =>
          if (bits f 0 16).toNat ≠ dueReplies nEntries ch then .ret (.replyTimeout, replies ++ rs)
          else transactChunks hp nEntries chs (replies ++ rs))
      hp.txnPollMax

/-- `Transact(words, due)` (R295). The nominal replies of a broadcast are `n_entries`, which the host knows. -/
def transact (hp : HostParams) (nEntries : Nat) (words : List Word) : Prog (SeqOutcome × List Word) :=
  match chunksFrom hp nEntries words.length words with
  | none => .ret (.cfgError, [])
  | some chs => transactChunks hp nEntries chs []

/-- A write of a batch (R294). -/
structure WriteItem where
  bcast  : BitVec 1
  hybrid : Nibble
  chip   : Nibble
  page   : BitVec 1
  addr   : Byte
  value  : Byte
deriving DecidableEq, Repr

/-- The default equality predicate (R297): the reply is not marked failed and agrees with the sent word in selector,
page, address and value. -/
def defaultEq (sent reply : Word) : Bool :=
  decide (bits reply 18 1 = 0#1) && decide (sent &&& 0x0FF2FFFF#32 = reply &&& 0x0FF2FFFF#32)

/-- Whether an item of a batch is read back: broadcasts never are (R294, R296). -/
def readBackOf (verify : Bool) (it : WriteItem) : BitVec 1 := bit (verify && decide (it.bcast = 0#1))

/-- The batch encoded item by item, a dropped item skipped (R294): the words to send and the pairs awaiting a reply. -/
def encodeWrites {α : Type} (verify : Bool) (k : List Word → List (WriteItem × Word) → Prog α) :
    List WriteItem → List Word → List (WriteItem × Word) → Prog α
  | [], words, watch => k words watch
  | it :: its, words, watch =>
    .command (.txcEnc it.bcast 1#1 (readBackOf verify it) it.hybrid it.chip it.page it.addr it.value) <|
    .rd .encCount fun n =>
      if n = 0#32 then encodeWrites verify k its words watch
      else
        .rd .encWord0 fun w0 =>
          let watch' := if readBackOf verify it = 1#1 then watch ++ [(it, w0)] else watch
          if n = 2#32 then
            .rd .encWord1 fun w1 => encodeWrites verify k its (words ++ [w0, w1]) watch'
          else encodeWrites verify k its (words ++ [w0]) watch'

/-- The items whose reply does not match (R294). -/
def mismatches (eq : Word → Word → Bool) (watch : List (WriteItem × Word)) (replies : List Word) : List WriteItem :=
  ((watch.zip replies).filter fun p => !(eq p.1.2 p.2)).map fun p => p.1.1

/-- One issue of a batch and its verdict, with what to do for a retry (R294): zero mismatches, then more than 100,
then the retry budget. -/
def issueBatch (hp : HostParams) (verify : Bool) (eq : Word → Word → Bool)
    (again : Option (List WriteItem → Prog SeqOutcome)) (items : List WriteItem) : Prog SeqOutcome :=
  encodeWrites verify
    (fun words watch =>
      (transact hp 0 words).bind fun r =>
        if r.1 ≠ .ok then .ret r.1
        else if verify = false then .ret .ok
        else
          let mis := mismatches eq watch r.2
          if mis.length = 0 then .ret .ok
          else if 100 < mis.length then .ret .tooManyErrors
          else
            match again with
            | some f => f mis
            | none => .ret .writeFailed)
    items [] []

/-- `WriteVerify(items, retry)` with the retries left, 5 at the first issue (R294). -/
def writeVerify (hp : HostParams) (verify : Bool) (eq : Word → Word → Bool) : Nat → List WriteItem → Prog SeqOutcome
  | 0, items => issueBatch hp verify eq none items
  | left + 1, items => issueBatch hp verify eq (some fun mis => writeVerify hp verify eq left mis) items

/-- `SEQ.WRITEV(items, verify, EQ)` (R294). -/
def seqWritev (hp : HostParams) (items : List WriteItem) (verify : Bool) (eq : Word → Word → Bool) :
    Prog SeqOutcome :=
  writeVerify hp verify eq 5 items

/-- A read of a batch (R298). -/
structure ReadItem where
  bcast  : BitVec 1
  hybrid : Nibble
  chip   : Nibble
  page   : BitVec 1
  addr   : Byte
deriving DecidableEq, Repr

/-- One result of SEQ.READT (R298). -/
structure ReadResult where
  hybrid : Nibble
  chip   : Nibble
  page   : BitVec 1
  addr   : Byte
  value  : Byte
  failed : Bool
deriving DecidableEq, Repr

/-- The reads encoded item by item (R298). -/
def encodeReads {α : Type} (k : List Word → Prog α) : List ReadItem → List Word → Prog α
  | [], words => k words
  | it :: its, words =>
    .command (.txcEnc it.bcast 0#1 0#1 it.hybrid it.chip it.page it.addr 0#8) <|
    .rd .encCount fun n =>
      if n = 0#32 then encodeReads k its words
      else .rd .encWord0 fun w0 => encodeReads k its (words ++ [w0])

/-- The result a value of `lrc.codec.dec_out` carries (R298, 10_state.md R39). -/
def readResult (d : Word) : ReadResult where
  hybrid := bits d 24 4
  chip := bits d 20 4
  page := bits d 17 1
  addr := bits d 8 8
  value := bits d 0 8
  failed := decide (bits d 31 1 = 1#1)

/-- The replies decoded one by one (R298). -/
def decodeReplies : List Word → List ReadResult → Prog (SeqOutcome × List ReadResult)
  | [], acc => .ret (.ok, acc)
  | r :: rs, acc =>
    .command (.txcDec r) <|
    .rd .decOut fun d => decodeReplies rs (acc ++ [readResult d])

/-- `SEQ.READT(items)` (R298). -/
def seqReadt (hp : HostParams) (items : List ReadItem) : Prog (SeqOutcome × List ReadResult) :=
  encodeReads
    (fun words =>
      .rd .codecStat fun st =>
        (transact hp (bits st 8 9).toNat words).bind fun r =>
          if r.1 ≠ .ok then .ret (r.1, []) else decodeReplies r.2 [])
    items []

/-! ## Unit L sequences -/

/-- The poll of one selected link, at most the given number of times: is it locked (R300). -/
def pollLink {α : Type} (k : Bool → Prog α) : Nat → Prog α
  | 0 => k false
  | left + 1 =>
    .rd .opticalStat fun s => if bits s 0 3 = 7#3 then k true else .sleep (pollLink k left)

/-- Every link read in one attempt, even after one was found unlocked (R300). -/
def pollLinks {α : Type} (hp : HostParams) (k : Bool → Prog α) : List Nat → Bool → Prog α
  | [], all => k all
  | j :: js, all =>
    .command (.lnkOptsel (BitVec.ofNat 4 j)) <|
    pollLink (fun locked => pollLinks hp k js (all && locked)) hp.optPollMax

/-- The attempts of SEQ.OPTLOCK (R300). -/
def optlockFrom (hp : HostParams) : Nat → Prog SeqOutcome
  | 0 => .ret .linkUnlockable
  | left + 1 =>
    .command .lnkOptrst <|
    .sleep <|
    pollLinks hp (fun all => if all = true then .ret .ok else optlockFrom hp left) (List.range hp.nLinks) true

/-- `SEQ.OPTLOCK` (R300): at most 10 full-reset attempts. -/
def seqOptlock (hp : HostParams) : Prog SeqOutcome := optlockFrom hp 10

/-- `LNK.GETSTAT x; s <- RD lrc.link.tuning_reply`. -/
def readStat {α : Type} (x : LineId) (k : Word → Prog α) : Prog α :=
  .command (.lnkGetstat x.hybrid x.chip x.line) (.rd .tuningReply k)

/-- The poll of a phase alignment (R303): TUNED ends the sequence, FAILED the attempt. -/
def pollPhase {α : Type} (x : LineId) (tuned : Word → Prog α) (next : Prog α) : Nat → Prog α
  | 0 => next
  | left + 1 =>
    .sleep <|
    readStat x fun s =>
      if bits s 0 4 = 2#4 then tuned s
      else if bits s 0 4 = 3#4 then next
      else pollPhase x tuned next left

/-- The attempts of SEQ.PHASETUNE (R303). -/
def phasetuneFrom (hp : HostParams) (x : LineId) (plen pat : Byte) : Nat → Prog (SeqOutcome × BitVec 5)
  | 0 => .ret (.lineFailed, 0#5)
  | left + 1 =>
    .command (.lnkSetmode x.hybrid x.chip x.line 1#2 0#5 0#3) <|
    .command (.lnkSetpat x.hybrid x.chip x.line plen pat) <|
    .command (.lnkDopa x.hybrid x.chip x.line) <|
    pollPhase x (fun s => .ret (.ok, bits s 19 5)) (phasetuneFrom hp x plen pat left) hp.lnkPollMax

/-- `SEQ.PHASETUNE(x, plen, pat)` (R303): membership and plen decided before any access. -/
def seqPhasetune (hp : HostParams) (x : LineId) (plen pat : Byte) : Prog (SeqOutcome × BitVec 5) :=
  if x ∉ hp.lines ∨ plenOk plen = false then .ret (.cfgError, 0#5) else phasetuneFrom hp x plen pat 10

/-- The poll of an automatic word alignment (R305). -/
def pollWord (x : LineId) (next : Prog (SeqOutcome × BitVec 3)) : Nat → Prog (SeqOutcome × BitVec 3)
  | 0 => next
  | left + 1 =>
    .sleep <|
    readStat x fun s =>
      if bits s 8 4 = 2#4 then .ret (.ok, bits s 16 3)
      else if bits s 8 4 = 3#4 then next
      else if bits s 8 4 = 0#4 then .ret (.hwError, 0#3)
      else pollWord x next left

/-- The attempts at one pattern length (R305). -/
def wordAttempts (hp : HostParams) (x : LineId) (next : Prog (SeqOutcome × BitVec 3)) :
    Nat → Prog (SeqOutcome × BitVec 3)
  | 0 => next
  | left + 1 =>
    .command (.lnkDowa x.hybrid x.chip x.line) (pollWord x (wordAttempts hp x next left) hp.lnkPollMax)

/-- The automatic path over the pattern lengths (R305). -/
def wordLengths (hp : HostParams) (x : LineId) (pat : Byte) (fallback : Prog (SeqOutcome × BitVec 3)) :
    List Byte → Prog (SeqOutcome × BitVec 3)
  | [] => fallback
  | plen :: ls =>
    .command (.lnkSetpat x.hybrid x.chip x.line plen pat)
      (wordAttempts hp x (wordLengths hp x pat fallback ls) 10)

/-- The manual sweep over bitslips, first match wins (R305, R211). -/
def sweep (hp : HostParams) (x : LineId) (pat : Byte) (d : BitVec 5) : List Nat → Prog (SeqOutcome × BitVec 3)
  | [] => .ret (.lineFailed, 0#3)
  | b :: bs =>
    .command (.lnkSetmode x.hybrid x.chip x.line 2#2 d (BitVec.ofNat 3 b)) <|
    .command (.lnkCapture x.hybrid x.chip x.line) <|
    .rdb .debugWords hp.nCapWords fun ws =>
      if matchesPattern ws pat = true then .ret (.ok, BitVec.ofNat 3 b) else sweep hp x pat d bs

/-- `SEQ.WORDALIGN(x, lens, pat)` (R305). -/
def seqWordalign (hp : HostParams) (x : LineId) (lens : List Byte) (pat : Byte) : Prog (SeqOutcome × BitVec 3) :=
  if x ∉ hp.lines then .ret (.cfgError, 0#3)
  else
    wordLengths hp x pat (readStat x fun s => sweep hp x pat (bits s 19 5) (List.range 8)) lens

/-- The bitslip forced on the first stub line: line 0's result plus the family's offset, mod 8 (R309, R264). -/
def coupledBitslip (hp : HostParams) (family : Family) (b0 : BitVec 3) : BitVec 3 :=
  if hp.cplOffset family = true then b0 + 1#3 else b0

/-- The lines of a group after line 0, ascending (R309). -/
def tuneRest (hp : HostParams) (hybrid chip : Nibble) (family : Family) (plen pat : Byte) (b0 : BitVec 3) :
    List Nibble → Prog SeqOutcome
  | [] => .ret .ok
  | l :: ls =>
    (seqPhasetune hp ⟨hybrid, chip, l⟩ plen pat).bind fun r =>
      if r.1 ≠ .ok then .ret r.1
      else if l = hp.firstStubLine then
        .command (.lnkSetmode hybrid chip l 2#2 r.2 (coupledBitslip hp family b0))
          (tuneRest hp hybrid chip family plen pat b0 ls)
      else
        (seqWordalign hp ⟨hybrid, chip, l⟩ (hp.patLengths family) pat).bind fun r2 =>
          if r2.1 ≠ .ok then .ret r2.1 else tuneRest hp hybrid chip family plen pat b0 ls

/-- The line numbers of a group, ascending (R309). -/
def groupLines (hp : HostParams) (hybrid chip : Nibble) : List Nibble :=
  ((List.range 16).map (BitVec.ofNat 4)).filter fun l => decide (⟨hybrid, chip, l⟩ ∈ hp.lines)

/-- `SEQ.TUNEGROUP(hybrid, chip, family, plen, pat)` (R309). -/
def seqTunegroup (hp : HostParams) (hybrid chip : Nibble) (family : Family) (plen pat : Byte) : Prog SeqOutcome :=
  if 0#4 ∉ groupLines hp hybrid chip then .ret .cfgError
  else
    (seqPhasetune hp ⟨hybrid, chip, 0#4⟩ plen pat).bind fun r0 =>
      if r0.1 ≠ .ok then .ret r0.1
      else
        (seqWordalign hp ⟨hybrid, chip, 0#4⟩ (hp.patLengths family) pat).bind fun r1 =>
          if r1.1 ≠ .ok then .ret r1.1
          else
            tuneRest hp hybrid chip family plen pat r1.2
              ((groupLines hp hybrid chip).filter fun l => decide (l ≠ 0#4))

/-! ## Unit R sequences -/

/-- What a readout sequence returns: outcome, frame count, raw words, frame offsets (R314). -/
structure ReadoutResult where
  outcome    : SeqOutcome
  frameCount : Nat
  rawWords   : List Word
  frameOffs  : List Word
deriving DecidableEq, Repr

/-- A readout outcome without data. -/
def ReadoutResult.empty (o : SeqOutcome) : ReadoutResult := ⟨o, 0, [], []⟩

/-- The case split on `result` that ends AwaitReadout (R314). -/
def collectReadout (s : Word) : Prog ReadoutResult :=
  if bits s 4 4 = 1#4 then
    .rd .roFrameCount fun n =>
    .rd .roWordCount fun wc =>
    .rdb .roData wc.toNat fun ws =>
    .rdb .roFrameOffs n.toNat fun fo => .ret ⟨.ok, n.toNat, ws, fo⟩
  else if bits s 4 4 = 2#4 then .ret (ReadoutResult.empty .roFailed)
  else if bits s 4 4 = 3#4 then .ret (ReadoutResult.empty .roDecode)
  else if bits s 4 4 = 4#4 then .ret (ReadoutResult.empty .roCount)
  else .ret (ReadoutResult.empty .hwError)

/-- `AwaitReadout()` with the polls left (R314): the host's own bound ends in an ROE.RESET. -/
def awaitReadout : Nat → Prog ReadoutResult
  | 0 => .command .roeReset (.ret (ReadoutResult.empty .roFailed))
  | left + 1 =>
    .rd .roStat fun s =>
      if bits s 16 1 = 0#1 then collectReadout s else .sleep (awaitReadout left)

/-- `SEQ.READAVAILABLE` (R315). -/
def seqReadavailable (hp : HostParams) : Prog ReadoutResult := .command .roeReadav (awaitReadout hp.roPollMax)

/-- `SEQ.READEXACTLY(n, rateHz)` (R316). R316 says of a request refused with E_RO_OVF that it is seen as result NONE;
after an earlier finished request R245 leaves the unit unchanged, so its result and words are what AwaitReadout then
finds. The expansion and R245 are followed (DEDUCED; notes/assumptions/21.md). -/
def seqReadexactly (hp : HostParams) (n : BitVec 28) (rateHz : Nat) : Prog ReadoutResult :=
  .wr .roTimeoutPolls (hp.roTimeout n rateHz) <|
  .wr .roCtrl (rcWord n 3#4) <|
  awaitReadout hp.roPollMax

/-- The readout configuration, ROE.RESET last (R317). -/
def seqConfigureReadout (cnfg trigCnfg evsizeCnfg : Word) : Prog SeqOutcome :=
  .wr .roCnfg cnfg <|
  .wr .roTrigCnfg trigCnfg <|
  .wr .roEvsizeCnfg evsizeCnfg <|
  .command .roeReset (.ret .ok)

/-! ## The whole run -/

/-- One batch of the chip configuration, with what R294 leaves to the caller: whether it is read back, and by which
predicate a reply matches. -/
structure WriteBatch where
  items  : List WriteItem
  verify : Bool
  eq     : Word → Word → Bool

/-- One group to tune, with the arguments of its SEQ.TUNEGROUP (R309). -/
structure GroupPlan where
  hybrid : Nibble
  chip   : Nibble
  family : Family
  plen   : Byte
  pat    : Byte
deriving DecidableEq, Repr

/-- What a run start needs (R320): every argument its sequences leave to the caller. -/
structure RunPlan where
  chips      : List ChipDesc
  batches    : List WriteBatch
  groups     : List GroupPlan
  cnfg       : Word
  trigCnfg   : Word
  evsizeCnfg : Word

/-- Stages one after another, ending at the first outcome that is not S_OK (R320; 60_exceptions.md R338). -/
def runStages : List (Prog SeqOutcome) → Prog SeqOutcome
  | [] => .ret .ok
  | p :: ps => p.bind fun o => if o ≠ .ok then .ret o else runStages ps

/-- The order of a run start (R320, 70_reset_and_hazards.md R376, R379): any outcome but S_OK prevents it
(notes/assumptions/22.md). -/
def seqRunStart (hp : HostParams) (plan : RunPlan) : Prog SeqOutcome :=
  runStages <|
    [seqConfigure plan.chips, seqOptlock hp]
      ++ plan.batches.map (fun b => seqWritev hp b.items b.verify b.eq)
      ++ plan.groups.map (fun g => seqTunegroup hp g.hybrid g.chip g.family g.plen g.pat)
      ++ [seqConfigureReadout plan.cnfg plan.trigCnfg plan.evsizeCnfg]

/-- One reading of a run (R320). -/
inductive ReadRequest where
  | available
  | exactly (n : BitVec 28) (rateHz : Nat)
deriving DecidableEq, Repr

/-- The sequence a reading is. -/
def seqRead (hp : HostParams) : ReadRequest → Prog ReadoutResult
  | .available => seqReadavailable hp
  | .exactly n rateHz => seqReadexactly hp n rateHz

/-- Data-taking (R320): readings repeatedly, each the one `next` chooses from the results so far, until it chooses
none, a result is fatal (R290), or the given number is done. What to read next, and whether to go on after an outcome
that is not fatal, is the caller's. -/
def takeData (hp : HostParams) (next : List ReadoutResult → Option ReadRequest) :
    Nat → List ReadoutResult → Prog (List ReadoutResult)
  | 0, done => .ret done
  | left + 1, done =>
    match next done with
    | none => .ret done
    | some q =>
      (seqRead hp q).bind fun r =>
        if r.outcome.fatal = true then .ret (done ++ [r]) else takeData hp next left (done ++ [r])

/-- A whole run (R320, 70_reset_and_hazards.md R379): the run start and, when nothing prevents it, data-taking with at
most `bound` readings. -/
def seqRun (hp : HostParams) (plan : RunPlan) (next : List ReadoutResult → Option ReadRequest) (bound : Nat) :
    Prog (SeqOutcome × List ReadoutResult) :=
  (seqRunStart hp plan).bind fun o =>
    if o ≠ .ok then .ret (o, []) else (takeData hp next bound []).bind fun rs => .ret (.ok, rs)

end Sys2Proof.Machine
end

