-- ==== Sys2Proof/Machine/IdealBus.lean ====
section
/-! DEFINITION. The ideal bus of 40_codec.md R177: one particular oracle, for simulators and test vectors, which no
rule of the block assumes. Its memory CHIP maps (hybrid, chip, page, addr) to a byte, 0 at start. -/

namespace Sys2Proof.Machine

/-- CHIP as a list of (address, byte) pairs in one canonical form: addresses strictly rising, no byte 0 (what an
unlisted address reads as, R177). -/
abbrev ChipMem := List Host.Cell

/-- The address of a chip register as one number: `{hybrid, chip, page, addr}` (20_memory.md R91). -/
def chipAddr (hybrid chip : Nibble) (page : BitVec 1) (addr : Byte) : Nat :=
  hybrid.toNat * 2 ^ 13 + chip.toNat * 2 ^ 9 + page.toNat * 2 ^ 8 + addr.toNat

/-- The byte at an address, 0 where nothing is listed (R177). -/
def ChipMem.read : ChipMem → Nat → Byte
  | [], _ => 0#8
  | c :: m, a => if c.1 = a then c.2 else ChipMem.read m a

/-- The byte at an address replaced, the canonical form kept: writing 0 removes the entry. -/
def ChipMem.write : ChipMem → Nat → Byte → ChipMem
  | [], a, b => if b = 0#8 then [] else [(a, b)]
  | c :: m, a, b =>
    if c.1 = a then (if b = 0#8 then m else (a, b) :: m)
    else if a < c.1 then (if b = 0#8 then c :: m else (a, b) :: c :: m)
    else c :: ChipMem.write m a b

/-- Every address listed is above `lo` and they strictly rise, no byte is 0. -/
def ChipMem.risingFrom : Option Nat → ChipMem → Bool
  | _, [] => true
  | lo, c :: m =>
    (match lo with
     | none => true
     | some l => decide (l < c.1))
    && decide (c.2 ≠ 0#8) && ChipMem.risingFrom (some c.1) m

/-- The canonical form holds. -/
def ChipMem.wf (m : ChipMem) : Bool := ChipMem.risingFrom none m

/-- The store a word makes at one target (R177). -/
def chipStore (d : Decoded) (hybrid chip : Nibble) (mem : ChipMem) : ChipMem :=
  if d.isRead = 0#1 then ChipMem.write mem (chipAddr hybrid chip d.page d.addr) d.value else mem

/-- The reply word: the word with bits 7:0 the chip's byte and bit 18 zero (R177). -/
def replyWord (op : Nibble) (sel : Byte) (d : Decoded) (v : Byte) : Word :=
  twWord op sel d.rb 0#1 d.page d.isRead d.addr v

/-- The reply of one target, if one is due (R177). -/
def chipReply (op : Nibble) (sel : Byte) (d : Decoded) (hybrid chip : Nibble) (mem : ChipMem) : List Word :=
  if d.isRead = 1#1 ∨ d.rb = 1#1 then [replyWord op sel d (ChipMem.read mem (chipAddr hybrid chip d.page d.addr))]
  else []

/-- A broadcast over the entries from index `i` on, in index order (R177). -/
def idealBroadcast (v : Variant) (m : List MapEntry) (d : Decoded) :
    Nat → List MapEntry → ChipMem → ChipMem × List Word
  | _, [], mem => (mem, [])
  | i, e :: es, mem =>
    let mem1 := chipStore d e.hybrid e.chip mem
    let rest := idealBroadcast v m d (i + 1) es mem1
    (rest.1, chipReply 0#4 (selOf v m i e) d e.hybrid e.chip mem1 ++ rest.2)

/-- The ideal bus: the memory after a dispatched word, and its replies (R177). -/
def idealBus (v : Variant) (m : List MapEntry) (mem : ChipMem) (w : Word) : ChipMem × List Word :=
  let d := decodeFields v m w
  if bits w 28 4 = 2#4 then idealBroadcast v m d 0 m mem
  else
    let mem1 := chipStore d d.hybrid d.chip mem
    (mem1, chipReply (bits w 28 4) (bits w 20 8) d d.hybrid d.chip mem1)

end Sys2Proof.Machine
end

