-- ==== Sys2Proof/Safety.lean ====
section
/-! DEFINITION. What counts as a sound state, in the terms claims use: the invariants the rules of spec/ state or
imply about each unit, the events that reset the block, and what one unit's commands may touch. -/

namespace Sys2Proof.Machine

/-- A line record inside the rows of 10_state.md R62 and the invariants of 41_link_trainer.md R217: the sub-states are
IDLE outside PatternInject, word alignment has begun only on a tuned phase, a phase alignment only with a pattern, a
configured pattern has a length, and `done` means Manual or an alignment that ended TUNED. -/
structure LineTuning.Sound (t : LineTuning) : Prop where
  idleOutsidePattern : t.mode ≠ .patternInject → t.paState = .idle ∧ t.waState = .idle
  wordAfterPhase : t.waState ≠ .idle → t.paState = .tuned
  phaseNeedsPattern : t.paState ≠ .idle → t.patValid = true
  patternHasLength : t.patValid = true → t.plen ≠ 0#8
  doneMeansSet : t.done = true →
    t.mode = .manual ∨ (t.mode = .patternInject ∧ t.paState = .tuned ∧ (t.waState = .idle ∨ t.waState = .tuned))

/-- Unit C's invariant: the table within its capacity, with unique keys, legal byte-widths and, under OPT, at most 16
entries a link (10_state.md R60, 40_codec.md R163); nothing configured, nothing held; a queued word only after the
lock, legal under the variant (R165, R173); the queues within their depths (10_state.md R65). -/
structure CodecSound (s : State) : Prop where
  tableFits : s.codec.map.length ≤ s.params.nSlaves
  keysUnique : s.codec.map.Pairwise fun a b => ¬ (a.hybrid = b.hybrid ∧ a.chip = b.chip)
  widthsLegal : ∀ e ∈ s.codec.map, bwOk e.bw = true
  linksFit : s.codec.variant = .opt → ∀ k, localCount s.codec.map k ≤ 16
  unconfiguredEmpty : s.codec.configured = false → s.codec.map = [] ∧ s.codec.mapLocked = false
  queuedAfterLock : s.codec.mapLocked = false → s.codec.cmdq = []
  queuedLegal : ∀ w ∈ s.codec.cmdq, illegalRequest s.codec.variant s.codec.map w = none
  commandsFit : s.codec.cmdq.length ≤ s.params.cmdFifoDepth
  repliesFit : s.codec.replyq.length ≤ s.params.replyFifoDepth
  resultCount : s.codec.encCount ≠ 3#2

/-- Unit L's invariant: one entry per line (10_state.md R61), every record sound, `N_CAP_WORDS` debug words (R45),
the selected link an existing one or 0 (R64, 41_link_trainer.md R219). -/
structure LinkSound (s : State) : Prop where
  oneEntryPerLine : (s.link.lines.map LineEntry.id).Nodup
  recordsSound : ∀ e ∈ s.link.lines, e.tuning.Sound
  debugWordsFit : s.link.debugWords.length = s.params.nCapWords
  selectionExists : s.link.optSel = 0#4 ∨ s.link.optSel.toNat < s.link.links.length

/-- Unit R's invariant: reserved bits 0 (10_state.md R48, R51), the cursor inside the ring (R24), the buffers within
their capacities (R66, R67), nothing held while a request is in progress (42_readout_engine.md R244), the result that
belongs to each state, and the counters within the bounds of R264. -/
structure ReadoutSound (s : State) : Prop where
  cnfgReserved : s.readout.cnfg &&& cnfgMask = s.readout.cnfg
  evsizeReserved : s.readout.evsizeCnfg &&& evsizeMask = s.readout.evsizeCnfg
  cursorInRing : s.readout.cursor.toNat < s.params.ddr3RingWords
  wordsFit : s.readout.out.length ≤ s.params.roOutDepth
  framesFit : 4 * s.readout.frameOffs.length ≤ s.readout.out.length
  busyHoldsNothing : s.readout.state.busy = true →
    s.readout.out = [] ∧ s.readout.frameOffs = [] ∧ s.readout.result = .none
  idleNoResult : s.readout.state = .idle → s.readout.result = .none
  decodedOk : s.readout.state = .decoded → s.readout.result = .ok
  errorSaysWhy : s.readout.state = .error → s.readout.result ≠ .none ∧ s.readout.result ≠ .ok
  waitingPolls : s.readout.state = .waitingForWords →
    s.readout.polls = 0#32 ∨ s.readout.polls.toNat < s.readout.timeoutPolls.toNat
  waitingNoprog : s.readout.state = .waitingForWords → s.readout.noprog.toNat < Config.noprogLimit
  pollsBounded : s.readout.state.busy = true → s.readout.polls.toNat ≤ max s.readout.timeoutPolls.toNat 1
  noprogBounded : s.readout.state.busy = true → s.readout.noprog.toNat ≤ Config.noprogLimit
  recoveriesBounded : s.readout.state.busy = true →
    s.readout.recovCount.toNat ≤ s.readout.maxRecovery.toNat
  recoveryLeft :
    s.readout.state = .recoveryStop ∨ s.readout.state = .recoveryReset ∨ s.readout.state = .recoveryStart →
    s.readout.recovCount.toNat < s.readout.maxRecovery.toNat
  requestFits : s.readout.state.busy = true → s.readout.kind = .n →
    s.readout.reqN ≠ 0#28 ∧ s.readout.targetWords ≤ s.params.roOutDepth

/-- A sound state: the parameters in their ranges, `N_LINKS` among them (00_scope.md R8), bits 31:18 of the error
register 0 (10_state.md R28), and the three units sound. -/
structure Sound (s : State) : Prop where
  paramsInRange : s.params.inRange = true
  linksInRange : s.link.links.length ≤ 16
  errorReserved : bits s.error 18 14 = 0#14
  codec : CodecSound s
  link : LinkSound s
  readout : ReadoutSound s

/-- The events that reset the block: the reset input and SYS.RESET (70_reset_and_hazards.md R370, R371). -/
def resetsBlock : Event → Bool
  | .rst => true
  | .wr .ctrlReset w => decide (w = 1#32)
  | _ => false

/-- Every flag set in `a` is set in `b` (10_state.md R28: sticky). -/
def FlagsKept (a b : Word) : Prop := a &&& b = a

/-- The transaction-word forms, which only the bus agent runs. -/
def isTransaction (i : Instr) : Prop := ∃ v w, encode i = .dispatch v w

/-- The identities of the lines: the parameter `LINES` (R8). -/
def State.lineIds (s : State) : List LineId := s.link.lines.map LineEntry.id

/-- The engine's next `k` turns with nothing between them. -/
def engineTurns : Nat → State → State
  | 0, s => s
  | k + 1, s => engineTurns k (engineTurn s)

/-- The replies the bus agent draws for a word `w` with `k` due (R9, 40_codec.md R176): at most `k`. -/
def drawnReplies (w : Word) (k : Nat) (s : State) : List Word := (Config.busReply s.codec.busSeq w k).take k

/-- What 40_codec.md R176 says of a state after the dispatch of `w` with the replies `rs`: the word on the output
trace, the draw counted, the replies that fit appended in order, E_FIFO_OVF (bit 7) when one did not fit, and
everything else as it was. -/
def afterDispatch (w : Word) (rs : List Word) (s : State) : State :=
  { s with
    trace := s.trace ++ [.cmdBus w]
    error := if s.codec.replyq.length + rs.length ≤ s.params.replyFifoDepth then s.error
      else s.error ||| 0x00000080#32
    codec :=
      { s.codec with
        busSeq := s.codec.busSeq + 1
        replyq := s.codec.replyq ++ rs.take (s.params.replyFifoDepth - s.codec.replyq.length) } }

/-- Checks 1 to 4 of 30_encoding.md R117. -/
def formatLegal (v : Variant) (w : Word) : Prop :=
  (bits w 28 4 = 0#4 ∨ bits w 28 4 = 2#4) ∧ bits w 18 1 = 0#1 ∧
    (v = .leg → ¬ (bits w 16 1 = 0#1 ∧ bits w 19 1 = 1#1)) ∧ (bits w 28 4 = 2#4 → bits w 20 8 = 0#8)

/-- Check 5 of R117: a single-chip word's selector resolves. -/
def selectorResolves (v : Variant) (m : List MapEntry) (w : Word) : Prop :=
  bits w 28 4 = 0#4 →
    match v with
    | .leg => ∃ e ∈ m, e.hybrid = bits w 24 4 ∧ e.chip = bits w 20 4
    | .idx => (bits w 20 8).toNat < m.length
    | .opt => ∃ i e, m[i]? = some e ∧ e.link = bits w 24 4 ∧ localIndex m i e.link = (bits w 20 4).toNat

/-- What moves a line in the state chart of 41_link_trainer.md R202: a command to the line, or a step of its agent
with the draw's outcome. -/
inductive LineCause where
  | setmode (mode : BitVec 2)
  | setpat
  | dopa
  | dowa
  | phaseTuned
  | phaseFailed
  | wordTuned
  | wordFailed
deriving DecidableEq, Repr

/-- The state chart of R202: where a cause takes a main state, none where the chart has no such transition. -/
def lineChart : LineCause → MainState → Option MainState
  | .setmode m, _ =>
    if m = 0#2 then some .idle else if m = 1#2 then some .configuringPattern else if m = 2#2 then some .manual else none
  | .setpat, a =>
    match a with
    | .configuringPattern => some .configuringPattern
    | .paRunning => some .paRunning
    | .paTuned => some .paTuned
    | .paFailed => some .paFailed
    | .waRunning => some .paTuned
    | .waTuned => some .paTuned
    | .waFailed => some .paTuned
    | .idle => none
    | .manual => none
  | .dopa, a => if a = .idle ∨ a = .manual then none else some .paRunning
  | .dowa, a =>
    if a = .paTuned ∨ a = .waRunning ∨ a = .waTuned ∨ a = .waFailed then some .waRunning else none
  | .phaseTuned, a => if a = .paRunning then some .paTuned else none
  | .phaseFailed, a => if a = .paRunning then some .paFailed else none
  | .wordTuned, a => if a = .waRunning then some .waTuned else none
  | .wordFailed, a => if a = .waRunning then some .waFailed else none

/-- The event is a cause of a move of line `x`: a write of one of the four moving commands naming it
(30_encoding.md R134), or a turn of its agent. -/
def isCause (x : LineId) (ev : Event) : LineCause → Prop
  | .setmode m => ∃ d b, ev = .wr .tuningCtrl (ltWord x.hybrid x.chip x.line 2#4 (setmodePayload m d b))
  | .setpat => ∃ n p, ev = .wr .tuningCtrl (ltWord x.hybrid x.chip x.line 3#4 (setpatPayload n p))
  | .dopa => ev = .wr .tuningCtrl (ltWord x.hybrid x.chip x.line 4#4 0#16)
  | .dowa => ev = .wr .tuningCtrl (ltWord x.hybrid x.chip x.line 5#4 0#16)
  | .phaseTuned => ev = .agent (.linePhase x)
  | .phaseFailed => ev = .agent (.linePhase x)
  | .wordTuned => ev = .agent (.lineWord x)
  | .wordFailed => ev = .agent (.lineWord x)

/-- A whole frame of 30_encoding.md R153: its first word's length field is at least 1 and counts the frame's words in
units of four. -/
def WholeFrame (f : List Word) : Prop :=
  ∃ w ws, f = w :: ws ∧ 1 ≤ (bits w 0 16).toNat ∧ f.length = 4 * (bits w 0 16).toNat

/-- Where each of a row of frames starts when the first starts at `i`. -/
def frameStarts : Nat → List (List Word) → List Nat
  | _, [] => []
  | i, f :: fs => i :: frameStarts (i + f.length) fs

/-- The three pulses of one recovery cycle, in order (42_readout_engine.md R260). -/
def recoveryTriple : List Pulse := [.trigStop, .bufReset, .trigStart]

end Sys2Proof.Machine
end

