-- ==== Sys2Proof/Certificates/Slice0/Obligations.lean ====
section
/-! DEFINITION. The statements for the provers. Each docstring names the rule of spec/ it formalises. Where a statement
gives the next state as an equation, everything the equation does not change is the frame: every other register,
every flag, the queues, the lines, the links, the output trace and the draw counters stay as they were. Errors are
written as the bits of `lrc.stat.error` (10_state.md R28), not as the model's names for them. -/

section Encoding

open Sys2Proof Sys2Proof.Machine

/-- Decode and encode agree: every operand of every instruction, at every value its encoding admits, is read back
(30_encoding.md R112 to R141). -/
def Obligations.DecodeEncodeRoundTrip : Prop := ∀ i : Instr, i.wellFormed = true → decode (encode i) = .ok i

/-- The other direction: each issue that decodes is the encoding of what it decodes to, so no two issues share an
instruction and no bit of an accepted word is dropped. -/
def Obligations.EncodeDecodeRoundTrip : Prop := ∀ (c : Issue) (i : Instr), decode c = .ok i → encode i = c

/-- What the decoder accepts is well-formed: bw 0 and 3 (R132), mode 3 and plen 0 (R134), n 0 (R136) are never
decoded. -/
def Obligations.DecodedIsWellFormed : Prop := ∀ (c : Issue) (i : Instr), decode c = .ok i → i.wellFormed = true

/-- Words the spec writes out, read as it reads them: R163's and R166's examples, R173's two words, R205's and R207's
examples, R219's and R245's, and R140. -/
def Obligations.WordsWrittenOutDecode : Prop :=
  decode (.write .mapAdd 0x01230143#32) = .ok (.txcMapadd 1#4 2#4 3#4 1#2 0x43#7)
    ∧ decode (.write .encReq 0x62304FA5#32) = .ok (.txcEnc 0#1 1#1 1#1 2#4 3#4 0#1 0x4F#8 0xA5#8)
    ∧ decode (.dispatch .leg 0x02304FA5#32) = .ok (.legWr 2#4 3#4 0#1 0x4F#8 0xA5#8)
    ∧ decode (.dispatch .leg 0x02394F00#32) = .ok (.legRdb 2#4 3#4 0#1 0x4F#8 0x00#8)
    ∧ decode (.dispatch .idx 0x00284FA5#32) = .ok (.idxWrv 2#8 0#1 0x4F#8 0xA5#8)
    ∧ decode (.dispatch .opt 0x01084FA5#32) = .ok (.optWrv 1#4 0#4 0#1 0x4F#8 0xA5#8)
    ∧ decode (.write .tuningCtrl 0x1212206D#32) = .ok (.lnkSetmode 1#4 2#4 1#4 2#2 13#5 5#3)
    ∧ decode (.write .tuningCtrl 0x120308AA#32) = .ok (.lnkSetpat 1#4 2#4 0#4 8#8 0xAA#8)
    ∧ decode (.write .opticalCtrl 0x00000302#32) = .ok (.lnkOptsel 3#4)
    ∧ decode (.write .roCtrl 0x00000023#32) = .ok (.roeReadn 2#28)
    ∧ decode (.write .ctrlReset 0x00000001#32) = .ok .sysReset

/-- Formats CC, CM, CE, the raw-word ports, LO, RC and GC, by the masks and matches the rules print (R131, R132, R133,
R141, R135, R136, R140). The bound on LNK.OPTSEL's link is its command's check (see `OpticalCommandOutcomes`). -/
def Obligations.CommandPortsAcceptTheirFormats : Prop :=
  ((∀ w : Word, decode (.write .codecCtrl w) =
       if w = 0x00000001#32 then .ok .txcConfigure
       else if w = 0x00000002#32 then .ok .txcFlush
       else .error .illegalCommand)
     ∧ (∀ w : Word, decode (.write .mapAdd w) =
       if w &&& 0xF000FC80#32 = 0#32 ∧ (bits w 8 2 = 1#2 ∨ bits w 8 2 = 2#2) then
         .ok (.txcMapadd (bits w 24 4) (bits w 20 4) (bits w 16 4) (bits w 8 2) (bits w 0 7))
       else .error .illegalCommand)
     ∧ (∀ w : Word, decode (.write .encReq w) =
       if w &&& 0x100D0000#32 = 0#32 then
         .ok (.txcEnc (bits w 31 1) (bits w 30 1) (bits w 29 1) (bits w 24 4) (bits w 20 4) (bits w 17 1)
           (bits w 8 8) (bits w 0 8))
       else .error .illegalCommand)
     ∧ (∀ w : Word, decode (.write .decIn w) = .ok (.txcDec w))
     ∧ (∀ w : Word, decode (.write .cmdFifo w) = .ok (.txcPush w))
     ∧ decode (.read .replyFifo) = .ok .txcPop)
  ∧ ((∀ w : Word, decode (.write .opticalCtrl w) =
       if w &&& 0xFFFFFFFF#32 = 0x00000001#32 then .ok .lnkOptrst
       else if w &&& 0xFFFFF0FF#32 = 0x00000002#32 then .ok (.lnkOptsel (bits w 8 4))
       else .error .illegalCommand)
     ∧ (∀ w : Word, decode (.write .roCtrl w) =
       if w &&& 0xFFFFFFFF#32 = 0x00000001#32 then .ok .roeReset
       else if w &&& 0xFFFFFFFF#32 = 0x00000002#32 then .ok .roeReadav
       else if w &&& 0x0000000F#32 = 0x00000003#32 ∧ bits w 4 28 ≠ 0#28 then .ok (.roeReadn (bits w 4 28))
       else .error .illegalCommand)
     ∧ (∀ w : Word, decode (.write .ctrlReset w) =
       if w = 0x00000001#32 then .ok .sysReset else .error .illegalCommand))

/-- Format LT, by the masks and matches of R134. -/
def Obligations.TuningPortAcceptsItsFormat : Prop :=
  ∀ w : Word, decode (.write .tuningCtrl w) =
    if w &&& 0x000FFFFF#32 = 0x00000000#32 then .ok (.lnkGetcfg (bits w 28 4) (bits w 24 4) (bits w 20 4))
    else if w &&& 0x000FFFFF#32 = 0x00010000#32 then .ok (.lnkGetstat (bits w 28 4) (bits w 24 4) (bits w 20 4))
    else if w &&& 0x000FCF00#32 = 0x00020000#32 ∧ bits w 12 2 ≠ 3#2 then
      .ok (.lnkSetmode (bits w 28 4) (bits w 24 4) (bits w 20 4) (bits w 12 2) (bits w 3 5) (bits w 0 3))
    else if w &&& 0x000F0000#32 = 0x00030000#32 ∧ bits w 8 8 ≠ 0#8 then
      .ok (.lnkSetpat (bits w 28 4) (bits w 24 4) (bits w 20 4) (bits w 8 8) (bits w 0 8))
    else if w &&& 0x000FFFFF#32 = 0x00040000#32 then .ok (.lnkDopa (bits w 28 4) (bits w 24 4) (bits w 20 4))
    else if w &&& 0x000FFFFF#32 = 0x00050000#32 then .ok (.lnkDowa (bits w 28 4) (bits w 24 4) (bits w 20 4))
    else if w &&& 0x000FFFFF#32 = 0x00060000#32 then .ok (.lnkCapture (bits w 28 4) (bits w 24 4) (bits w 20 4))
    else .error .illegalCommand

/-- The forms of a transaction word by the masks and matches of R119, for words whose `fail` bit is 0: under LEG the
two WRV forms are no instruction, under every variant each other form is. -/
def Obligations.TransactionFormsFollowTheTable : Prop :=
  ∀ w : Word,
    (w &&& 0xF00D0000#32 = 0x00000000#32 →
      decode (.dispatch .leg w) = .ok (.legWr (bits w 24 4) (bits w 20 4) (bits w 17 1) (bits w 8 8) (bits w 0 8))
        ∧ decode (.dispatch .idx w) = .ok (.idxWr (bits w 20 8) (bits w 17 1) (bits w 8 8) (bits w 0 8))
        ∧ decode (.dispatch .opt w) =
            .ok (.optWr (bits w 24 4) (bits w 20 4) (bits w 17 1) (bits w 8 8) (bits w 0 8)))
    ∧ (w &&& 0xF00D0000#32 = 0x00080000#32 →
      decode (.dispatch .leg w) = .error .legacyWriteReadback
        ∧ decode (.dispatch .idx w) = .ok (.idxWrv (bits w 20 8) (bits w 17 1) (bits w 8 8) (bits w 0 8))
        ∧ decode (.dispatch .opt w) =
            .ok (.optWrv (bits w 24 4) (bits w 20 4) (bits w 17 1) (bits w 8 8) (bits w 0 8)))
    ∧ (w &&& 0xF00D0000#32 = 0x00010000#32 →
      decode (.dispatch .leg w) = .ok (.legRd (bits w 24 4) (bits w 20 4) (bits w 17 1) (bits w 8 8) (bits w 0 8))
        ∧ decode (.dispatch .idx w) = .ok (.idxRd (bits w 20 8) (bits w 17 1) (bits w 8 8) (bits w 0 8))
        ∧ decode (.dispatch .opt w) =
            .ok (.optRd (bits w 24 4) (bits w 20 4) (bits w 17 1) (bits w 8 8) (bits w 0 8)))
    ∧ (w &&& 0xF00D0000#32 = 0x00090000#32 →
      decode (.dispatch .leg w) = .ok (.legRdb (bits w 24 4) (bits w 20 4) (bits w 17 1) (bits w 8 8) (bits w 0 8))
        ∧ decode (.dispatch .idx w) = .ok (.idxRdb (bits w 20 8) (bits w 17 1) (bits w 8 8) (bits w 0 8))
        ∧ decode (.dispatch .opt w) =
            .ok (.optRdb (bits w 24 4) (bits w 20 4) (bits w 17 1) (bits w 8 8) (bits w 0 8)))
    ∧ (w &&& 0xFFFD0000#32 = 0x20000000#32 →
      decode (.dispatch .leg w) = .ok (.legBwr (bits w 17 1) (bits w 8 8) (bits w 0 8))
        ∧ decode (.dispatch .idx w) = .ok (.idxBwr (bits w 17 1) (bits w 8 8) (bits w 0 8))
        ∧ decode (.dispatch .opt w) = .ok (.optBwr (bits w 17 1) (bits w 8 8) (bits w 0 8)))
    ∧ (w &&& 0xFFFD0000#32 = 0x20080000#32 →
      decode (.dispatch .leg w) = .error .legacyWriteReadback
        ∧ decode (.dispatch .idx w) = .ok (.idxBwrv (bits w 17 1) (bits w 8 8) (bits w 0 8))
        ∧ decode (.dispatch .opt w) = .ok (.optBwrv (bits w 17 1) (bits w 8 8) (bits w 0 8)))
    ∧ (w &&& 0xFFFD0000#32 = 0x20010000#32 →
      decode (.dispatch .leg w) = .ok (.legBrd (bits w 17 1) (bits w 8 8) (bits w 0 8))
        ∧ decode (.dispatch .idx w) = .ok (.idxBrd (bits w 17 1) (bits w 8 8) (bits w 0 8))
        ∧ decode (.dispatch .opt w) = .ok (.optBrd (bits w 17 1) (bits w 8 8) (bits w 0 8)))
    ∧ (w &&& 0xFFFD0000#32 = 0x20090000#32 →
      decode (.dispatch .leg w) = .ok (.legBrdb (bits w 17 1) (bits w 8 8) (bits w 0 8))
        ∧ decode (.dispatch .idx w) = .ok (.idxBrdb (bits w 17 1) (bits w 8 8) (bits w 0 8))
        ∧ decode (.dispatch .opt w) = .ok (.optBrdb (bits w 17 1) (bits w 8 8) (bits w 0 8)))

end Encoding

section Events

open Sys2Proof Sys2Proof.Machine

/-- A step runs the decoded instruction: a write to a command port, the read that pops, and the bus agent's turn on
the head of its queue; a free step runs the event the schedule gives. How events come to the machine is the model's
own (notes/assumptions/5.md). -/
def Obligations.StepRunsTheDecodedInstruction : Prop :=
  (∀ (s : State) (r : Reg) (w : Word) (es : List Event) (i : Instr),
      regClass r = .port → s.script = .wr r w :: es → decode (.write r w) = .ok i →
      step s = exec i { s with script := es })
    ∧ (∀ (s : State) (k : Nat) (es : List Event), s.script = .rd .replyFifo k :: es →
      step s = exec .txcPop { s with script := es })
    ∧ (∀ (s : State) (w : Word) (q : List Word) (es : List Event) (i : Instr),
      s.script = .agent .bus :: es → s.codec.cmdq = w :: q → decode (.dispatch s.codec.variant w) = .ok i →
      step s = exec i { s with script := es, codec := { s.codec with cmdq := q } })
    ∧ (∀ s : State, s.script = [] → step s = runEvent (Config.schedule s.turn) { s with turn := s.turn + 1 })

/-- R130: a word its port's format does not admit raises E_ILLEGAL_CMD and has no other effect. -/
def Obligations.IllegalCommandWordOnlyRaises : Prop :=
  ∀ (r : Reg) (w : Word) (s : State), regClass r = .port → (∀ i : Instr, decode (.write r w) ≠ .ok i) →
    runEvent (.wr r w) s = .next { s with error := s.error ||| 0x00000001#32 }

/-- R26 and R88: a read that does not pop returns the register's value and changes nothing else; a port reads 0; a
write to a read-only register, or to the pop register, is ignored. And the value of each register that shows one piece
of state whole: R27, R28, R33, R36, R37, R39, R44, R45, R48 to R51, R54 to R59, an array's element by its index and 0
beyond its content. The registers made of several fields are those of `StatusRegistersShowTheirFields`. -/
def Obligations.ReadsChangeNothingAndReadOnlyIgnoresWrites : Prop :=
  (∀ (r : Reg) (k : Nat) (s : State), r ≠ .replyFifo →
      runEvent (.rd r k) s = .next { s with rdata := readReg r k s })
    ∧ (∀ (r : Reg) (k : Nat) (s : State), regClass r = .port → readReg r k s = 0#32)
    ∧ (∀ (r : Reg) (w : Word) (s : State), regClass r = .ro ∨ regClass r = .pop → runEvent (.wr r w) s = .next s)
    ∧ (∀ (s : State) (k : Nat),
      (readReg .busProtocolVersion k s = s.params.busProtoVer ∧ readReg .error k s = s.error)
      ∧ (bits (readReg .mapSel k s) 0 8 = s.codec.mapSel ∧ bits (readReg .mapSel k s) 8 24 = 0#24
        ∧ bits (readReg .encCount k s) 0 2 = s.codec.encCount ∧ bits (readReg .encCount k s) 2 30 = 0#30
        ∧ readReg .encWord0 k s = s.codec.encWord0 ∧ readReg .encWord1 k s = s.codec.encWord1
        ∧ readReg .decOut k s = s.codec.decOut)
      ∧ (readReg .tuningReply k s = s.link.tuningReply
        ∧ (∀ w : Word, s.link.debugWords[k]? = some w → readReg .debugWords k s = w)
        ∧ (s.link.debugWords.length ≤ k → readReg .debugWords k s = 0#32))
      ∧ (readReg .roCnfg k s = s.readout.cnfg ∧ readReg .roTimeoutPolls k s = s.readout.timeoutPolls
        ∧ readReg .roTrigCnfg k s = s.readout.trigCnfg ∧ readReg .roEvsizeCnfg k s = s.readout.evsizeCnfg
        ∧ readReg .roCursor k s = s.readout.cursor ∧ readReg .roPolls k s = s.readout.polls
        ∧ bits (readReg .roNoprog k s) 0 8 = s.readout.noprog ∧ bits (readReg .roNoprog k s) 8 24 = 0#24)
      ∧ ((s.readout.out.length < 2 ^ 32 → (readReg .roWordCount k s).toNat = s.readout.out.length)
        ∧ (s.readout.frameOffs.length < 2 ^ 32 → (readReg .roFrameCount k s).toNat = s.readout.frameOffs.length)
        ∧ (∀ w : Word, s.readout.out[k]? = some w → readReg .roData k s = w)
        ∧ (s.readout.out.length ≤ k → readReg .roData k s = 0#32)
        ∧ (∀ w : Word, s.readout.frameOffs[k]? = some w → readReg .roFrameOffs k s = w)
        ∧ (s.readout.frameOffs.length ≤ k → readReg .roFrameOffs k s = 0#32)))

/-- R48 to R51, R33: what a write to each RW register leaves, reserved bits 0, and that unit R's four refuse while a
request is in progress with E_RO_BUSY and nothing else. -/
def Obligations.ConfigurationRegistersStoreOrRefuse : Prop :=
  ∀ (s : State) (w : Word),
    runEvent (.wr .mapSel w) s = .next { s with codec := { s.codec with mapSel := bits w 0 8 } }
    ∧ (s.readout.state.busy = false →
      runEvent (.wr .roCnfg w) s = .next { s with readout := { s.readout with cnfg := w &&& 0x0000FF03#32 } }
      ∧ runEvent (.wr .roTimeoutPolls w) s = .next { s with readout := { s.readout with timeoutPolls := w } }
      ∧ runEvent (.wr .roTrigCnfg w) s = .next { s with readout := { s.readout with trigCnfg := w } }
      ∧ runEvent (.wr .roEvsizeCnfg w) s =
          .next { s with readout := { s.readout with evsizeCnfg := w &&& 0x00FFFFFF#32 } })
    ∧ (s.readout.state.busy = true →
      ∀ r : Reg, r = .roCnfg ∨ r = .roTimeoutPolls ∨ r = .roTrigCnfg ∨ r = .roEvsizeCnfg →
        runEvent (.wr r w) s = .next { s with error := s.error ||| 0x00002000#32 })

/-- The status registers, field by field and with their reserved bits (R26), at the bit positions of R31, R42, R53 and
R47; and R34, `lrc.codec.map_rd`,
which shows the selected entry field by field and reads 0 when there is none. -/
def Obligations.StatusRegistersShowTheirFields : Prop :=
  (∀ s : State,
     (s.codec.map.length < 512 →
       bits (readReg .codecStat 0 s) 0 2 = variantCode s.codec.variant
       ∧ bits (readReg .codecStat 0 s) 2 1 = bit s.codec.configured
       ∧ bits (readReg .codecStat 0 s) 3 1 = bit s.codec.mapLocked
       ∧ bits (readReg .codecStat 0 s) 4 4 = 0#4
       ∧ (bits (readReg .codecStat 0 s) 8 9).toNat = s.codec.map.length
       ∧ bits (readReg .codecStat 0 s) 17 15 = 0#15)
     ∧ (s.codec.replyq.length < 65536 → s.codec.cmdq.length < 65536 →
       (bits (readReg .fifoStat 0 s) 0 16).toNat = s.codec.replyq.length
       ∧ (bits (readReg .fifoStat 0 s) 16 16).toNat = s.codec.cmdq.length)
     ∧ (bits (readReg .roStat 0 s) 0 4 = s.readout.state.code
       ∧ bits (readReg .roStat 0 s) 4 4 = s.readout.result.code
       ∧ bits (readReg .roStat 0 s) 8 8 = s.readout.recovCount
       ∧ (bits (readReg .roStat 0 s) 16 1 = 1#1 ↔
           s.readout.state.code.toNat = 1 ∨ s.readout.state.code.toNat = 2 ∨ s.readout.state.code.toNat = 3
             ∨ s.readout.state.code.toNat = 5 ∨ s.readout.state.code.toNat = 6 ∨ s.readout.state.code.toNat = 7
             ∨ s.readout.state.code.toNat = 8)
       ∧ bits (readReg .roStat 0 s) 17 1 = bit s.readout.sawReq
       ∧ bits (readReg .roStat 0 s) 18 14 = 0#14)
     ∧ (∀ k : OptLink, s.link.links[s.link.optSel.toNat]? = some k →
       bits (readReg .opticalStat 0 s) 0 1 = bit k.status.txReady
       ∧ bits (readReg .opticalStat 0 s) 1 1 = bit k.status.rxReady
       ∧ bits (readReg .opticalStat 0 s) 2 1 = bit k.status.desReady)
     ∧ (s.link.links[s.link.optSel.toNat]? = none → bits (readReg .opticalStat 0 s) 0 3 = 0#3)
     ∧ (bits (readReg .opticalStat 0 s) 3 5 = 0#5
       ∧ bits (readReg .opticalStat 0 s) 8 4 = s.link.optSel
       ∧ bits (readReg .opticalStat 0 s) 12 20 = 0#20))
  ∧ (∀ s : State,
     (s.codec.map[s.codec.mapSel.toNat]? = none → readReg .mapRd 0 s = 0#32)
     ∧ (∀ e : MapEntry, s.codec.map[s.codec.mapSel.toNat]? = some e →
       bits (readReg .mapRd 0 s) 31 1 = 1#1
       ∧ bits (readReg .mapRd 0 s) 28 3 = 0#3
       ∧ bits (readReg .mapRd 0 s) 24 4 = e.link
       ∧ bits (readReg .mapRd 0 s) 20 4 = e.hybrid
       ∧ bits (readReg .mapRd 0 s) 16 4 = e.chip
       ∧ (localIndex s.codec.map s.codec.mapSel.toNat e.link < 16 →
           (bits (readReg .mapRd 0 s) 12 4).toNat = localIndex s.codec.map s.codec.mapSel.toNat e.link)
       ∧ bits (readReg .mapRd 0 s) 10 2 = 0#2
       ∧ bits (readReg .mapRd 0 s) 8 2 = e.bw
       ∧ bits (readReg .mapRd 0 s) 7 1 = 0#1
       ∧ bits (readReg .mapRd 0 s) 0 7 = e.busAddr))

end Events

section UnitC

open Sys2Proof Sys2Proof.Machine

/-- R161: the queues, the table, the lock and the result registers are cleared in every case; version 0, 1 or 2 selects
the variant, any other leaves the unit unconfigured with E_CFG_VERSION, and the variant as it was (read from the order
of R161's pseudocode; notes/assumptions/14.md). R162: TXC.FLUSH empties both queues and does
nothing else. -/
def Obligations.ConfigureAndFlushOutcomes : Prop :=
  (∀ s : State,
     let c := { s.codec with
       cmdq := [], replyq := [], map := [], mapLocked := false, encCount := 0#2, encWord0 := 0#32, encWord1 := 0#32,
       decOut := 0#32 }
     (s.params.busProtoVer = 0#32 →
       exec .txcConfigure s = .next { s with codec := { c with variant := .leg, configured := true } })
     ∧ (s.params.busProtoVer = 1#32 →
       exec .txcConfigure s = .next { s with codec := { c with variant := .idx, configured := true } })
     ∧ (s.params.busProtoVer = 2#32 →
       exec .txcConfigure s = .next { s with codec := { c with variant := .opt, configured := true } })
     ∧ (2 < s.params.busProtoVer.toNat →
       exec .txcConfigure s =
         .next { s with codec := { c with configured := false }, error := s.error ||| 0x00000002#32 }))
  ∧ (∀ s : State, exec .txcFlush s = .next { s with codec := { s.codec with cmdq := [], replyq := [] } })

/-- R163: the six checks in their order, each with its flag and no other effect, and the entry appended when none
fails. A duplicate and the local count are said of the entries themselves. -/
def Obligations.MapaddOutcome : Prop :=
  ∀ (s : State) (link hybrid chip : Nibble) (bw : BitVec 2) (busAddr : BitVec 7),
    let refuse (flag : Word) := { s with error := s.error ||| flag }
    exec (.txcMapadd link hybrid chip bw busAddr) s = .next (
      if ¬ (bw = 1#2 ∨ bw = 2#2) then refuse 0x00000001#32
      else if s.codec.configured = false then refuse 0x00000004#32
      else if s.codec.mapLocked = true then refuse 0x00000010#32
      else if ∃ e ∈ s.codec.map, e.hybrid = hybrid ∧ e.chip = chip then refuse 0x00000040#32
      else if s.codec.map.length = s.params.nSlaves then refuse 0x00000020#32
      else if s.codec.variant = .opt ∧ (s.codec.map.filter fun e => decide (e.link = link)).length = 16 then
        refuse 0x00000020#32
      else
        { s with codec := { s.codec with
            map := s.codec.map ++
              [{ link := link, hybrid := hybrid, chip := chip, busAddr := busAddr, bw := bw }] } })

/-- R166 with R165: the result registers cleared, the configuration check, the lock, the lookup, and the words. The
word fields stand in the order of R166's `base`. -/
def Obligations.EncodeRequestOutcome : Prop :=
  ∀ (s : State) (bcast write readback : BitVec 1) (hybrid chip : Nibble) (page : BitVec 1) (addr value : Byte),
    let c := { s.codec with encCount := 0#2, encWord0 := 0#32, encWord1 := 0#32 }
    let target : Option (Nibble × Byte) :=
      if bcast = 1#1 then some (2#4, 0#8)
      else (mapLookup s.codec.map hybrid chip).bind fun i =>
        (s.codec.map[i]?).map fun e => (0#4, selOf s.codec.variant s.codec.map i e)
    let val : Byte := if write = 1#1 then value else 0#8
    exec (.txcEnc bcast write readback hybrid chip page addr value) s = .next (
      if s.codec.configured = false then { s with codec := c, error := s.error ||| 0x00000004#32 }
      else
        match target with
        | none => { s with codec := { c with mapLocked := true }, error := s.error ||| 0x00000008#32 }
        | some (op, sel) =>
          if s.codec.variant = .leg ∧ write = 1#1 ∧ readback = 1#1 then
            { s with codec := { c with
                mapLocked := true, encCount := 2#2
                encWord0 := op ++ sel ++ 0#1 ++ 0#1 ++ page ++ 0#1 ++ addr ++ val
                encWord1 := op ++ sel ++ 1#1 ++ 0#1 ++ page ++ 1#1 ++ addr ++ 0#8 } }
          else
            { s with codec := { c with
                mapLocked := true, encCount := 1#2
                encWord0 :=
                  op ++ sel ++ readback ++ 0#1 ++ page ++ (if write = 1#1 then 0#1 else 1#1) ++ addr ++ val } })

/-- R170 with R168 and the layout of R39: unconfigured, only the flag; configured, the table locks and `dec_out` gets
the fields of the word, the ids per variant, `failed` and `bcast` as the decode function says. -/
def Obligations.DecodeWordOutcome : Prop :=
  ∀ (s : State) (w : Word),
    (s.codec.configured = false → exec (.txcDec w) s = .next { s with error := s.error ||| 0x00000004#32 })
    ∧ (s.codec.configured = true →
      ∃ d : Word,
        exec (.txcDec w) s = .next { s with codec := { s.codec with mapLocked := true, decOut := d } }
        ∧ bits d 30 1 = bits w 16 1 ∧ bits d 29 1 = bits w 19 1 ∧ bits d 18 2 = 0#2 ∧ bits d 17 1 = bits w 17 1
        ∧ bits d 16 1 = 0#1 ∧ bits d 8 8 = bits w 8 8 ∧ bits d 0 8 = bits w 0 8
        ∧ (bits d 28 1 = 1#1 ↔ bits w 28 4 = 2#4)
        ∧ (bits w 28 4 = 2#4 → bits d 31 1 = bits w 18 1 ∧ bits d 24 4 = 0#4 ∧ bits d 20 4 = 0#4)
        ∧ (bits w 28 4 ≠ 0#4 → bits w 28 4 ≠ 2#4 → bits d 31 1 = 1#1 ∧ bits d 24 4 = 0#4 ∧ bits d 20 4 = 0#4)
        ∧ (bits w 28 4 = 0#4 → s.codec.variant = .leg →
            bits d 31 1 = bits w 18 1 ∧ bits d 24 4 = bits w 24 4 ∧ bits d 20 4 = bits w 20 4)
        ∧ (bits w 28 4 = 0#4 → s.codec.variant ≠ .leg →
            (∀ i e, unsel s.codec.variant s.codec.map (bits w 20 8) = some i → s.codec.map[i]? = some e →
              bits d 31 1 = bits w 18 1 ∧ bits d 24 4 = e.hybrid ∧ bits d 20 4 = e.chip)
            ∧ (unsel s.codec.variant s.codec.map (bits w 20 8) = none →
              bits d 31 1 = 1#1 ∧ bits d 24 4 = 0#4 ∧ bits d 20 4 = 0#4)))

/-- R173 with R117 and R165: the checks in their order, the lock before legality is judged, and the word at the tail
of the queue when all hold. -/
def Obligations.PushOutcome : Prop :=
  ∀ (s : State) (w : Word),
    (s.codec.configured = false → exec (.txcPush w) s = .next { s with error := s.error ||| 0x00000004#32 })
    ∧ (s.codec.configured = true →
      (¬ formatLegal s.codec.variant w →
        exec (.txcPush w) s =
          .next { s with codec := { s.codec with mapLocked := true }, error := s.error ||| 0x00000200#32 })
      ∧ (formatLegal s.codec.variant w → ¬ selectorResolves s.codec.variant s.codec.map w →
        exec (.txcPush w) s =
          .next { s with codec := { s.codec with mapLocked := true }, error := s.error ||| 0x00000008#32 })
      ∧ (formatLegal s.codec.variant w → selectorResolves s.codec.variant s.codec.map w →
          s.codec.cmdq.length = s.params.cmdFifoDepth →
        exec (.txcPush w) s =
          .next { s with codec := { s.codec with mapLocked := true }, error := s.error ||| 0x00000080#32 })
      ∧ (formatLegal s.codec.variant w → selectorResolves s.codec.variant s.codec.map w →
          s.codec.cmdq.length ≠ s.params.cmdFifoDepth →
        exec (.txcPush w) s =
          .next { s with codec := { s.codec with mapLocked := true, cmdq := s.codec.cmdq ++ [w] } }))

/-- R175: the head of the reply queue is popped and is what the read returns; an empty queue raises E_FIFO_UNF and
the read returns 0. -/
def Obligations.PopOutcome : Prop :=
  ∀ s : State,
    (s.codec.replyq = [] → exec .txcPop s = .next { s with rdata := 0#32, error := s.error ||| 0x00000100#32 })
    ∧ (∀ (w : Word) (q : List Word), s.codec.replyq = w :: q →
      exec .txcPop s = .next { s with rdata := w, codec := { s.codec with replyq := q } })

/-- R176 for the six forms of variant LEG: the word each form sends and the number of replies due to it (R119). The
replies are draws, so the statement holds for every answer of the bus. -/
def Obligations.LegacyFormsDispatch : Prop :=
  ∀ s : State, s.codec.replyq.length ≤ s.params.replyFifoDepth →
    ∀ (hybrid chip : Nibble) (page : BitVec 1) (addr value : Byte),
      exec (.legWr hybrid chip page addr value) s =
        .next (afterDispatch (0#4 ++ hybrid ++ chip ++ 0#1 ++ 0#1 ++ page ++ 0#1 ++ addr ++ value) [] s)
      ∧ (let w : Word := 0#4 ++ hybrid ++ chip ++ 0#1 ++ 0#1 ++ page ++ 1#1 ++ addr ++ value
         exec (.legRd hybrid chip page addr value) s = .next (afterDispatch w (drawnReplies w 1 s) s))
      ∧ (let w : Word := 0#4 ++ hybrid ++ chip ++ 1#1 ++ 0#1 ++ page ++ 1#1 ++ addr ++ value
         exec (.legRdb hybrid chip page addr value) s = .next (afterDispatch w (drawnReplies w 1 s) s))
      ∧ exec (.legBwr page addr value) s =
        .next (afterDispatch (2#4 ++ 0#8 ++ 0#1 ++ 0#1 ++ page ++ 0#1 ++ addr ++ value) [] s)
      ∧ (let w : Word := 2#4 ++ 0#8 ++ 0#1 ++ 0#1 ++ page ++ 1#1 ++ addr ++ value
         exec (.legBrd page addr value) s =
           .next (afterDispatch w (drawnReplies w s.codec.map.length s) s))
      ∧ (let w : Word := 2#4 ++ 0#8 ++ 1#1 ++ 0#1 ++ page ++ 1#1 ++ addr ++ value
         exec (.legBrdb page addr value) s =
           .next (afterDispatch w (drawnReplies w s.codec.map.length s) s))

/-- R176 for the eight forms of variant IDX. -/
def Obligations.IndexedFormsDispatch : Prop :=
  ∀ s : State, s.codec.replyq.length ≤ s.params.replyFifoDepth →
    ∀ (gidx : Byte) (page : BitVec 1) (addr value : Byte),
      exec (.idxWr gidx page addr value) s =
        .next (afterDispatch (0#4 ++ gidx ++ 0#1 ++ 0#1 ++ page ++ 0#1 ++ addr ++ value) [] s)
      ∧ (let w : Word := 0#4 ++ gidx ++ 1#1 ++ 0#1 ++ page ++ 0#1 ++ addr ++ value
         exec (.idxWrv gidx page addr value) s = .next (afterDispatch w (drawnReplies w 1 s) s))
      ∧ (let w : Word := 0#4 ++ gidx ++ 0#1 ++ 0#1 ++ page ++ 1#1 ++ addr ++ value
         exec (.idxRd gidx page addr value) s = .next (afterDispatch w (drawnReplies w 1 s) s))
      ∧ (let w : Word := 0#4 ++ gidx ++ 1#1 ++ 0#1 ++ page ++ 1#1 ++ addr ++ value
         exec (.idxRdb gidx page addr value) s = .next (afterDispatch w (drawnReplies w 1 s) s))
      ∧ exec (.idxBwr page addr value) s =
        .next (afterDispatch (2#4 ++ 0#8 ++ 0#1 ++ 0#1 ++ page ++ 0#1 ++ addr ++ value) [] s)
      ∧ (let w : Word := 2#4 ++ 0#8 ++ 1#1 ++ 0#1 ++ page ++ 0#1 ++ addr ++ value
         exec (.idxBwrv page addr value) s =
           .next (afterDispatch w (drawnReplies w s.codec.map.length s) s))
      ∧ (let w : Word := 2#4 ++ 0#8 ++ 0#1 ++ 0#1 ++ page ++ 1#1 ++ addr ++ value
         exec (.idxBrd page addr value) s =
           .next (afterDispatch w (drawnReplies w s.codec.map.length s) s))
      ∧ (let w : Word := 2#4 ++ 0#8 ++ 1#1 ++ 0#1 ++ page ++ 1#1 ++ addr ++ value
         exec (.idxBrdb page addr value) s =
           .next (afterDispatch w (drawnReplies w s.codec.map.length s) s))

/-- R176 for the eight forms of variant OPT. -/
def Obligations.OpticalFormsDispatch : Prop :=
  ∀ s : State, s.codec.replyq.length ≤ s.params.replyFifoDepth →
    ∀ (link lidx : Nibble) (page : BitVec 1) (addr value : Byte),
      exec (.optWr link lidx page addr value) s =
        .next (afterDispatch (0#4 ++ link ++ lidx ++ 0#1 ++ 0#1 ++ page ++ 0#1 ++ addr ++ value) [] s)
      ∧ (let w : Word := 0#4 ++ link ++ lidx ++ 1#1 ++ 0#1 ++ page ++ 0#1 ++ addr ++ value
         exec (.optWrv link lidx page addr value) s = .next (afterDispatch w (drawnReplies w 1 s) s))
      ∧ (let w : Word := 0#4 ++ link ++ lidx ++ 0#1 ++ 0#1 ++ page ++ 1#1 ++ addr ++ value
         exec (.optRd link lidx page addr value) s = .next (afterDispatch w (drawnReplies w 1 s) s))
      ∧ (let w : Word := 0#4 ++ link ++ lidx ++ 1#1 ++ 0#1 ++ page ++ 1#1 ++ addr ++ value
         exec (.optRdb link lidx page addr value) s = .next (afterDispatch w (drawnReplies w 1 s) s))
      ∧ exec (.optBwr page addr value) s =
        .next (afterDispatch (2#4 ++ 0#8 ++ 0#1 ++ 0#1 ++ page ++ 0#1 ++ addr ++ value) [] s)
      ∧ (let w : Word := 2#4 ++ 0#8 ++ 1#1 ++ 0#1 ++ page ++ 0#1 ++ addr ++ value
         exec (.optBwrv page addr value) s =
           .next (afterDispatch w (drawnReplies w s.codec.map.length s) s))
      ∧ (let w : Word := 2#4 ++ 0#8 ++ 0#1 ++ 0#1 ++ page ++ 1#1 ++ addr ++ value
         exec (.optBrd page addr value) s =
           .next (afterDispatch w (drawnReplies w s.codec.map.length s) s))
      ∧ (let w : Word := 2#4 ++ 0#8 ++ 1#1 ++ 0#1 ++ page ++ 1#1 ++ addr ++ value
         exec (.optBrdb page addr value) s =
           .next (afterDispatch w (drawnReplies w s.codec.map.length s) s))

/-- R164: MapLookup and MapByLocal find the unique entry they name, Sel packs what each variant packs, and Unsel
undoes Sel. Under OPT the local index is below 16 (R163), which the invariant supplies. -/
def Obligations.UnselInvertsSel : Prop :=
  ∀ s : State, CodecSound s → s.params.nSlaves ≤ 256 →
    (∀ (h c : Nibble) (i : Nat), mapLookup s.codec.map h c = some i ↔
        ∃ e, s.codec.map[i]? = some e ∧ e.hybrid = h ∧ e.chip = c)
    ∧ (∀ (k li : Nibble) (i : Nat), mapByLocal s.codec.map k li = some i ↔
        ∃ e, s.codec.map[i]? = some e ∧ e.link = k ∧ localIndex s.codec.map i k = li.toNat)
    ∧ (∀ (i : Nat) (e : MapEntry), s.codec.map[i]? = some e →
        (selOf .leg s.codec.map i e = e.hybrid ++ e.chip
          ∧ (selOf .idx s.codec.map i e).toNat = i
          ∧ (s.codec.variant = .opt →
              (selHi (selOf .opt s.codec.map i e) = e.link
                ∧ (selLo (selOf .opt s.codec.map i e)).toNat = localIndex s.codec.map i e.link)))
        ∧ unsel s.codec.variant s.codec.map (selOf s.codec.variant s.codec.map i e) = some i)

/-- R169, the round trip of the transaction codec through the machine: what TXC.ENC produces for a chip of the table,
or a broadcast, the decode function reads back under the same variant and table. -/
def Obligations.TransactionRoundTrip : Prop :=
  ∀ s : State, CodecSound s → s.params.nSlaves ≤ 256 → s.codec.configured = true →
    ∀ (bcast write readback : BitVec 1) (hybrid chip : Nibble) (page : BitVec 1) (addr value : Byte),
      (bcast = 1#1 ∨ ∃ e ∈ s.codec.map, e.hybrid = hybrid ∧ e.chip = chip) →
      ∃ t : State,
        exec (.txcEnc bcast write readback hybrid chip page addr value) s = .next t
        ∧ (let twoWords := s.codec.variant = .leg ∧ write = 1#1 ∧ readback = 1#1
           let h : Nibble := if bcast = 1#1 then 0#4 else hybrid
           let c : Nibble := if bcast = 1#1 then 0#4 else chip
           t.codec.encCount = (if twoWords then 2#2 else 1#2)
           ∧ decodeFields t.codec.variant t.codec.map t.codec.encWord0 =
               { failed := false, isRead := if write = 1#1 then 0#1 else 1#1
                 rb := if twoWords then 0#1 else readback, bcast := decide (bcast = 1#1)
                 hybrid := h, chip := c, page := page, addr := addr
                 value := if write = 1#1 then value else 0#8 }
           ∧ (twoWords →
               decodeFields t.codec.variant t.codec.map t.codec.encWord1 =
                 { failed := false, isRead := 1#1, rb := 1#1, bcast := decide (bcast = 1#1)
                   hybrid := h, chip := c, page := page, addr := addr, value := 0#8 })
           ∧ (¬ twoWords → t.codec.encWord1 = 0#32))

/-- Every word TXC.ENC produces is a legal request under the variant, so pushing it never raises E_TW_ILLEGAL or
E_ADDR_MISS (R166's corner cases, R117). -/
def Obligations.EncodedWordsAreLegal : Prop :=
  ∀ (s t : State) (bcast write readback : BitVec 1) (hybrid chip : Nibble) (page : BitVec 1) (addr value : Byte),
    CodecSound s → s.params.nSlaves ≤ 256 →
    exec (.txcEnc bcast write readback hybrid chip page addr value) s = .next t →
    (t.codec.encCount ≠ 0#2 →
      formatLegal t.codec.variant t.codec.encWord0 ∧ selectorResolves t.codec.variant t.codec.map t.codec.encWord0)
    ∧ (t.codec.encCount = 2#2 →
      formatLegal t.codec.variant t.codec.encWord1 ∧ selectorResolves t.codec.variant t.codec.map t.codec.encWord1)

/-- Every step keeps unit C's invariant (R60, R65, R163, R165, R173). -/
def Obligations.CodecInvariantKept : Prop := ∀ s t : State, CodecSound s → step s = .next t → CodecSound t

/-- From a state that meets unit C's invariant every step answers a next state: no queued word is ever without a
meaning, and no instruction stops (00_scope.md R15). -/
def Obligations.SoundStatesAlwaysStep : Prop := ∀ s : State, CodecSound s → ∃ t : State, step s = .next t

/-- R78: the variant changes only at TXC.CONFIGURE or a reset; a locked table, lock included, changes only there; the
four configuration registers of unit R change, while it is busy, only at a reset. -/
def Obligations.ImmutabilityWindows : Prop :=
  ∀ (ev : Event) (s t : State), resetsBlock ev = false → runEvent ev s = .next t →
    (ev ≠ .wr .codecCtrl 1#32 →
      t.codec.variant = s.codec.variant ∧ t.codec.configured = s.codec.configured
      ∧ (s.codec.mapLocked = true → t.codec.map = s.codec.map ∧ t.codec.mapLocked = true))
    ∧ (s.readout.state.busy = true →
      t.readout.cnfg = s.readout.cnfg ∧ t.readout.timeoutPolls = s.readout.timeoutPolls
      ∧ t.readout.trigCnfg = s.readout.trigCnfg ∧ t.readout.evsizeCnfg = s.readout.evsizeCnfg)

end UnitC

section UnitL

open Sys2Proof Sys2Proof.Machine

/-- R203 and R204 with layouts LR0 and LR1 of R44: the snapshot of the line's configuration, and of its status; a line
that does not exist raises E_LNK_BADLINE and nothing else. -/
def Obligations.LineStatusReplies : Prop :=
  (∀ (s : State) (h c l : Nibble),
     (findLine ⟨h, c, l⟩ s.link.lines = none →
       exec (.lnkGetcfg h c l) s = .next { s with error := s.error ||| 0x00000400#32 })
     ∧ (∀ e : LineEntry, findLine ⟨h, c, l⟩ s.link.lines = some e →
       ∃ d : Word,
         exec (.lnkGetcfg h c l) s = .next { s with link := { s.link with tuningReply := d } }
         ∧ bits d 28 4 = 0#4 ∧ bits d 26 2 = 0#2 ∧ bits d 24 2 = e.tuning.mode.code ∧ bits d 17 7 = 0#7
         ∧ bits d 16 1 = bit e.tuning.patValid ∧ bits d 8 8 = e.tuning.plen ∧ bits d 0 8 = e.tuning.pat))
  ∧ (∀ (s : State) (h c l : Nibble),
     (findLine ⟨h, c, l⟩ s.link.lines = none →
       exec (.lnkGetstat h c l) s = .next { s with error := s.error ||| 0x00000400#32 })
     ∧ (∀ e : LineEntry, findLine ⟨h, c, l⟩ s.link.lines = some e →
       ∃ d : Word,
         exec (.lnkGetstat h c l) s = .next { s with link := { s.link with tuningReply := d } }
         ∧ bits d 28 4 = 1#4 ∧ bits d 26 2 = 0#2 ∧ bits d 24 2 = e.tuning.mode.code ∧ bits d 19 5 = e.tuning.delay
         ∧ bits d 16 3 = e.tuning.bitslip ∧ bits d 15 1 = bit e.tuning.done ∧ bits d 12 3 = 0#3
         ∧ bits d 8 4 = e.tuning.waState.code ∧ bits d 4 4 = 0#4 ∧ bits d 0 4 = e.tuning.paState.code))

/-- R205: the record after each of the three modes, every other line as it was; mode 3 is illegal before the line is
looked up, a line that does not exist raises E_LNK_BADLINE. -/
def Obligations.SetmodeOutcome : Prop :=
  ∀ (s : State) (h c l : Nibble) (mode : BitVec 2) (delay : BitVec 5) (bitslip : BitVec 3),
    let store (e : LineEntry) (t : LineTuning) : State :=
      { s with link := { s.link with
          lines := s.link.lines.map fun k => if k.id = e.id then { k with tuning := t } else k } }
    (mode = 3#2 →
      exec (.lnkSetmode h c l mode delay bitslip) s = .next { s with error := s.error ||| 0x00000001#32 })
    ∧ (mode ≠ 3#2 → findLine ⟨h, c, l⟩ s.link.lines = none →
      exec (.lnkSetmode h c l mode delay bitslip) s = .next { s with error := s.error ||| 0x00000400#32 })
    ∧ (∀ e : LineEntry, findLine ⟨h, c, l⟩ s.link.lines = some e →
      (mode = 0#2 →
        exec (.lnkSetmode h c l mode delay bitslip) s =
          .next (store e { e.tuning with
            paState := .idle, waState := .idle, mode := .idle, done := false, patValid := false }))
      ∧ (mode = 1#2 →
        exec (.lnkSetmode h c l mode delay bitslip) s =
          .next (store e { e.tuning with
            paState := .idle, waState := .idle, mode := .patternInject, done := false }))
      ∧ (mode = 2#2 →
        exec (.lnkSetmode h c l mode delay bitslip) s =
          .next (store e { e.tuning with
            paState := .idle, waState := .idle, mode := .manual, delay := delay, bitslip := bitslip
            done := true })))

/-- R207: the pattern set, the phase result kept; length 0, a missing line and a line outside PatternInject mode are
refused, in that order. -/
def Obligations.SetpatOutcome : Prop :=
  ∀ (s : State) (h c l : Nibble) (plen pat : Byte),
    (plen = 0#8 → exec (.lnkSetpat h c l plen pat) s = .next { s with error := s.error ||| 0x00000001#32 })
    ∧ (plen ≠ 0#8 → findLine ⟨h, c, l⟩ s.link.lines = none →
      exec (.lnkSetpat h c l plen pat) s = .next { s with error := s.error ||| 0x00000400#32 })
    ∧ (plen ≠ 0#8 → ∀ e : LineEntry, findLine ⟨h, c, l⟩ s.link.lines = some e →
      (e.tuning.mode ≠ .patternInject →
        exec (.lnkSetpat h c l plen pat) s = .next { s with error := s.error ||| 0x00001000#32 })
      ∧ (e.tuning.mode = .patternInject →
        exec (.lnkSetpat h c l plen pat) s =
          .next { s with link := { s.link with
            lines := s.link.lines.map fun k =>
              if k.id = e.id then
                { k with tuning := { e.tuning with
                    pat := pat, plen := plen, patValid := true, waState := .idle, done := false } }
              else k } }))

/-- R208: the phase alignment started and the word-alignment result discarded, refused without PatternInject mode and a
pattern. R209: the word alignment started, refused without PatternInject mode and a tuned phase. -/
def Obligations.AlignmentStartOutcomes : Prop :=
  (∀ (s : State) (h c l : Nibble),
     (findLine ⟨h, c, l⟩ s.link.lines = none →
       exec (.lnkDopa h c l) s = .next { s with error := s.error ||| 0x00000400#32 })
     ∧ (∀ e : LineEntry, findLine ⟨h, c, l⟩ s.link.lines = some e →
       (e.tuning.mode ≠ .patternInject ∨ e.tuning.patValid = false →
         exec (.lnkDopa h c l) s = .next { s with error := s.error ||| 0x00001000#32 })
       ∧ (e.tuning.mode = .patternInject → e.tuning.patValid = true →
         exec (.lnkDopa h c l) s =
           .next { s with link := { s.link with
             lines := s.link.lines.map fun k =>
               if k.id = e.id then
                 { k with tuning := { e.tuning with paState := .running, waState := .idle, done := false } }
               else k } })))
  ∧ (∀ (s : State) (h c l : Nibble),
     (findLine ⟨h, c, l⟩ s.link.lines = none →
       exec (.lnkDowa h c l) s = .next { s with error := s.error ||| 0x00000400#32 })
     ∧ (∀ e : LineEntry, findLine ⟨h, c, l⟩ s.link.lines = some e →
       (e.tuning.mode ≠ .patternInject ∨ e.tuning.paState ≠ .tuned →
         exec (.lnkDowa h c l) s = .next { s with error := s.error ||| 0x00001000#32 })
       ∧ (e.tuning.mode = .patternInject → e.tuning.paState = .tuned →
         exec (.lnkDowa h c l) s =
           .next { s with link := { s.link with
             lines := s.link.lines.map fun k =>
               if k.id = e.id then { k with tuning := { e.tuning with waState := .running, done := false } }
               else k } })))

/-- R210: a capture draws `N_CAP_WORDS` words at the line's present delay and bitslip, counts the draw and changes no
line record; a line with an alignment running is busy. -/
def Obligations.CaptureOutcome : Prop :=
  ∀ (s : State) (h c l : Nibble),
    (findLine ⟨h, c, l⟩ s.link.lines = none →
      exec (.lnkCapture h c l) s = .next { s with error := s.error ||| 0x00000400#32 })
    ∧ (∀ e : LineEntry, findLine ⟨h, c, l⟩ s.link.lines = some e →
      (e.tuning.paState = .running ∨ e.tuning.waState = .running →
        exec (.lnkCapture h c l) s = .next { s with error := s.error ||| 0x00000800#32 })
      ∧ (e.tuning.paState ≠ .running → e.tuning.waState ≠ .running →
        exec (.lnkCapture h c l) s =
          .next { s with link := { s.link with
            lines := s.link.lines.map fun k => if k.id = e.id then { k with capSeq := k.capSeq + 1 } else k
            debugWords :=
              (List.range s.params.nCapWords).map fun j =>
                Config.lineCapture ⟨h, c, l⟩ e.capSeq e.tuning.delay e.tuning.bitslip j } }))

/-- R218: every link loses its three bits, one `core_reset` pulse, the selection and the lines untouched. R219: the link
selected when it exists, else E_LNK_BADLINE and nothing else. -/
def Obligations.OpticalCommandOutcomes : Prop :=
  (∀ s : State,
     exec .lnkOptrst s =
       .next { s with
         trace := s.trace ++ [.coreReset]
         link := { s.link with
           links := s.link.links.map fun k =>
             { k with status := { txReady := false, rxReady := false, desReady := false } } } })
  ∧ (∀ (s : State) (k : Nibble),
     (s.link.links.length ≤ k.toNat →
       exec (.lnkOptsel k) s = .next { s with error := s.error ||| 0x00000400#32 })
     ∧ (k.toNat < s.link.links.length →
       exec (.lnkOptsel k) s = .next { s with link := { s.link with optSel := k } }))

/-- R214 and R216: one step of a line's agent, for whatever the draw answers. That a turn given to it without the running
sub-state changes nothing is the model's choice (notes/assumptions/7.md). -/
def Obligations.LineAgentSteps : Prop :=
  ∀ (s : State) (x : LineId) (e : LineEntry), findLine x s.link.lines = some e → LinkSound s →
    (e.tuning.paState = .running →
      runEvent (.agent (.linePhase x)) s = .next { s with link := { s.link with
        lines := s.link.lines.map fun k =>
          if k.id = x then
            { k with
              paSeq := k.paSeq + 1
              tuning :=
                match Config.paAuto x e.paSeq with
                | some d => { e.tuning with delay := d, paState := .tuned, done := true }
                | none => { e.tuning with paState := .failed } }
          else k } })
    ∧ (e.tuning.paState ≠ .running → runEvent (.agent (.linePhase x)) s = .next s)
    ∧ (e.tuning.waState = .running →
      runEvent (.agent (.lineWord x)) s = .next { s with link := { s.link with
        lines := s.link.lines.map fun k =>
          if k.id = x then
            { k with
              waSeq := k.waSeq + 1
              tuning :=
                match Config.waAuto x e.waSeq with
                | some b => { e.tuning with bitslip := b, waState := .tuned, done := true }
                | none => { e.tuning with waState := .failed } }
          else k } })
    ∧ (e.tuning.waState ≠ .running → runEvent (.agent (.lineWord x)) s = .next s)
    ∧ ¬ (e.tuning.paState = .running ∧ e.tuning.waState = .running)

/-- R220: one step of a link's optical agent, always enabled, draws its three bits and counts the draw; the other links
stay. -/
def Obligations.OpticalAgentStep : Prop :=
  ∀ (s : State) (k : Nat), k < s.link.links.length →
    ∃ t : State, runEvent (.agent (.optical k)) s = .next t
      ∧ (∀ o : OptLink, s.link.links[k]? = some o →
        t.link.links[k]? = some { status := Config.optDraw k o.seq, seq := o.seq + 1 })
      ∧ (∀ j : Nat, j ≠ k → t.link.links[j]? = s.link.links[j]?)
      ∧ t = { s with link := { s.link with links := t.link.links } }

/-- R217: there is no coupling between lines. Whatever command names line `x`, or whichever of `x`'s agent steps runs,
every other line's entry stays as it was, and the lines stay the same lines. -/
def Obligations.OtherLinesStayAsTheyWere : Prop :=
  ∀ (s t : State) (x : LineId) (ev : Event),
    (∃ w : Word, ev = .wr .tuningCtrl w ∧ bits w 28 4 = x.hybrid ∧ bits w 24 4 = x.chip ∧ bits w 20 4 = x.line)
      ∨ ev = .agent (.linePhase x) ∨ ev = .agent (.lineWord x) →
    runEvent ev s = .next t →
    (∀ y : LineId, y ≠ x → findLine y t.link.lines = findLine y s.link.lines)
    ∧ t.lineIds = s.lineIds ∧ t.link.links = s.link.links ∧ t.link.optSel = s.link.optSel
    ∧ t.codec = s.codec ∧ t.readout = s.readout ∧ t.trace = s.trace

/-- R202: whatever event happens short of a reset, a line's main state stays or moves along the state chart, and it
moves only when that event is the chart's cause for that line. -/
def Obligations.LineStateChartIsComplete : Prop :=
  ∀ (s t : State) (ev : Event), LinkSound s → resetsBlock ev = false → runEvent ev s = .next t →
    ∀ (x : LineId) (e : LineEntry), findLine x s.link.lines = some e →
      ∃ (e' : LineEntry) (a b : MainState),
        findLine x t.link.lines = some e' ∧ e.tuning.mainState = some a ∧ e'.tuning.mainState = some b
        ∧ (b = a ∨ ∃ cause : LineCause, isCause x ev cause ∧ lineChart cause a = some b)

/-- Every step keeps unit L's invariant (R62, R217). -/
def Obligations.LinkInvariantKept : Prop := ∀ s t : State, LinkSound s → step s = .next t → LinkSound t

end UnitL

section UnitR

open Sys2Proof Sys2Proof.Machine

/-- R243: accepted in every state; the pulse, the cleared registers, and nothing else. -/
def Obligations.RoeResetOutcome : Prop :=
  ∀ s : State,
    exec .roeReset s =
      .next { s with
        trace := s.trace ++ [.bufReset]
        readout := { s.readout with
          cursor := 0#32, state := .idle, result := .none, kind := .av, reqN := 0#28, polls := 0#32, noprog := 0#8
          lastTrig := 0#32, sawReq := false, recovCount := 0#8, latWc := 0#32, latTrig := 0#32, out := []
          frameOffs := [] } }

/-- R244: refused while busy, else the request started. -/
def Obligations.ReadavOutcome : Prop :=
  ∀ s : State,
    (s.readout.state.busy = true → exec .roeReadav s = .next { s with error := s.error ||| 0x00002000#32 })
    ∧ (s.readout.state.busy = false →
      exec .roeReadav s =
        .next { s with readout := { s.readout with
          kind := .av, reqN := 0#28, polls := 0#32, noprog := 0#8, lastTrig := 0#32, sawReq := false
          recovCount := 0#8, latWc := 0#32, latTrig := 0#32, result := .none, out := [], frameOffs := []
          state := .waitingForWords } })

/-- R245: the three checks in their order, the product over the naturals, else the request started. -/
def Obligations.ReadnOutcome : Prop :=
  ∀ (s : State) (n : BitVec 28),
    exec (.roeReadn n) s = .next (
      if n = 0#28 then { s with error := s.error ||| 0x00000001#32 }
      else if s.readout.state.busy = true then { s with error := s.error ||| 0x00002000#32 }
      else if n.toNat * s.readout.evSize > s.params.roOutDepth then { s with error := s.error ||| 0x00020000#32 }
      else
        { s with readout := { s.readout with
            kind := .n, reqN := n, polls := 0#32, noprog := 0#8, lastTrig := 0#32, sawReq := false
            recovCount := 0#8, latWc := 0#32, latTrig := 0#32, result := .none, out := [], frameOffs := []
            state := .waitingForWords } })

/-- R69: the event size rounded up to the boundary, the two targets, over the naturals; the trigger target fits 32
bits. -/
def Obligations.DerivedQuantities : Prop :=
  ∀ r : Readout,
    let raw := (bits r.evsizeCnfg 0 16).toNat
    let al := (bits r.evsizeCnfg 16 8).toNat
    (al ≤ 1 → r.evSize = raw)
    ∧ (2 ≤ al → r.evSize % al = 0 ∧ raw ≤ r.evSize ∧ r.evSize < raw + al)
    ∧ r.targetTrig = (bits r.trigCnfg 0 24).toNat * ((bits r.trigCnfg 24 8).toNat + 1)
    ∧ r.targetTrig < 2 ^ 32
    ∧ r.targetWords = r.reqN.toNat * r.evSize

/-- R247: the poll step on the sample the buffer answers, in handshake and in direct mode. The poll counter is
compared after its increment; it does not wrap in any state that meets unit R's invariant (R264). -/
def Obligations.PollStep : Prop :=
  ∀ s : State, s.readout.state = .waitingForWords →
    let smp : BufSample := Config.bufSample s.readout.smpSeq
    let r : Readout := { s.readout with smpSeq := s.readout.smpSeq + 1 }
    let latched : Readout := { r with latWc := smp.wc, latTrig := smp.trig }
    let noprog : Byte := if 0 < r.polls.toNat ∧ smp.trig = r.lastTrig then r.noprog + 1#8 else 0#8
    let polls : Word := r.polls + 1#32
    let after : Readout :=
      if bits r.cnfg 0 1 = 1#1 then
        if smp.req = true then { latched with sawReq := true, state := .handshake }
        else if polls.toNat ≥ r.timeoutPolls.toNat ∨ noprog.toNat ≥ 5 then
          if smp.trig.toNat < r.targetTrig ∨ smp.wc = 0#32 then
            { latched with noprog := noprog, lastTrig := smp.trig, polls := polls, state := .stalled }
          else { latched with noprog := noprog, lastTrig := smp.trig, polls := polls, state := .handshake }
        else { r with noprog := noprog, lastTrig := smp.trig, polls := polls }
      else if r.kind = .av ∨ smp.wc.toNat ≥ r.targetWords then { latched with state := .directRead }
      else if polls.toNat ≥ r.timeoutPolls.toNat then { latched with polls := polls, state := .stalled }
      else { r with polls := polls }
    runEvent (.agent .engine) s = .next { s with readout := after }

/-- R250 and R251 with R252: how many words each read step takes, when it stalls, when it is too many, and what the
block read leaves in the output buffer, the cursor and the draw counter before the frames are carved. -/
def Obligations.ReadSteps : Prop :=
  ∀ s : State,
    let loaded (n : Nat) : Readout :=
      { s.readout with
        out := (List.range n).map fun j =>
          Config.acqRead s.readout.rdSeq (if bits s.readout.cnfg 1 1 = 1#1 then s.readout.cursor else 0#32) n j
        rdSeq := s.readout.rdSeq + 1
        cursor :=
          if bits s.readout.cnfg 1 1 = 1#1 then
            if s.readout.sawReq = true then 0#32
            else BitVec.ofNat 32 ((s.readout.cursor.toNat + n) % s.params.ddr3RingWords)
          else s.readout.cursor }
    let tooMany : State :=
      { s with
        error := s.error ||| 0x00020000#32
        readout := { s.readout with result := .overflow, state := .error } }
    (s.readout.state = .handshake →
      runEvent (.agent .engine) s = .next (
        if s.readout.latWc = 0#32 then { s with readout := { s.readout with state := .stalled } }
        else if s.readout.latWc.toNat > s.params.roOutDepth then tooMany
        else finishStep (loaded s.readout.latWc.toNat).carve s))
    ∧ (s.readout.state = .directRead →
      let n := if s.readout.kind = .av then s.readout.latWc.toNat else s.readout.targetWords
      runEvent (.agent .engine) s = .next (
        if n > s.params.roOutDepth then tooMany else finishStep (loaded n).carve s))

/-- R262 with R254: a buffer that is a row of whole frames carves into exactly those frames; a request for another
number of frames ends in COUNT_MISMATCH with the count kept; any other buffer is a decoding error that reports no
frame and keeps the words. -/
def Obligations.CarvingLaw : Prop :=
  ∀ r : Readout,
    (∀ fs : List (List Word), (∀ f ∈ fs, WholeFrame f) → r.out = fs.flatten →
      r.carve =
        if r.kind = .n ∧ fs.length ≠ r.reqN.toNat then
          ({ r with
             frameOffs := (frameStarts 0 fs).map (BitVec.ofNat 32), result := .countMismatch, state := .error },
            some .roCount)
        else
          ({ r with frameOffs := (frameStarts 0 fs).map (BitVec.ofNat 32), result := .ok, state := .decoded }, none))
    ∧ ((¬ ∃ fs : List (List Word), (∀ f ∈ fs, WholeFrame f) ∧ r.out = fs.flatten) →
      r.carve = ({ r with frameOffs := [], result := .decodeErr, state := .error }, some .roDecode))

/-- R255: a stall below the cap goes to recovery, one at the cap ends the request with E_RO_FAILED. R256, R258, R259: the
three recovery steps, each with its pulse. -/
def Obligations.StallAndRecoverySteps : Prop :=
  (∀ s : State, s.readout.state = .stalled →
     (s.readout.recovCount.toNat < (bits s.readout.cnfg 8 8).toNat →
       runEvent (.agent .engine) s = .next { s with readout := { s.readout with state := .recoveryStop } })
     ∧ ((bits s.readout.cnfg 8 8).toNat ≤ s.readout.recovCount.toNat →
       runEvent (.agent .engine) s =
         .next { s with
           error := s.error ||| 0x00004000#32
           readout := { s.readout with result := .failed, state := .error } }))
  ∧ (∀ s : State,
     (s.readout.state = .recoveryStop →
       runEvent (.agent .engine) s =
         .next { s with trace := s.trace ++ [.trigStop], readout := { s.readout with state := .recoveryReset } })
     ∧ (s.readout.state = .recoveryReset →
       runEvent (.agent .engine) s =
         .next { s with
           trace := s.trace ++ [.bufReset]
           readout := { s.readout with cursor := 0#32, state := .recoveryStart } })
     ∧ (s.readout.state = .recoveryStart →
       runEvent (.agent .engine) s =
         .next { s with
           trace := s.trace ++ [.trigStart]
           readout := { s.readout with
             recovCount := s.readout.recovCount + 1#8, polls := 0#32, noprog := 0#8, lastTrig := 0#32, sawReq := false
             latWc := 0#32, latTrig := 0#32, state := .waitingForWords } }))

/-- R242: in Idle, Decoded and Error the engine waits; in every other state its step moves along the transitions the
rule lists. -/
def Obligations.EngineTransitions : Prop :=
  ∀ s t : State, runEvent (.agent .engine) s = .next t →
    (s.readout.state.busy = false → t = s)
    ∧ (s.readout.state = .waitingForWords →
        t.readout.state = .waitingForWords ∨ t.readout.state = .handshake ∨ t.readout.state = .directRead
          ∨ t.readout.state = .stalled)
    ∧ (s.readout.state = .handshake →
        t.readout.state = .decoded ∨ t.readout.state = .stalled ∨ t.readout.state = .error)
    ∧ (s.readout.state = .directRead → t.readout.state = .decoded ∨ t.readout.state = .error)
    ∧ (s.readout.state = .stalled → t.readout.state = .recoveryStop ∨ t.readout.state = .error)
    ∧ (s.readout.state = .recoveryStop → t.readout.state = .recoveryReset)
    ∧ (s.readout.state = .recoveryReset → t.readout.state = .recoveryStart)
    ∧ (s.readout.state = .recoveryStart → t.readout.state = .waitingForWords)
    ∧ t.codec = s.codec ∧ t.link = s.link ∧ t.params = s.params

/-- R260, for the engine's own turns: from the start of a request, whatever the buffer answers, the pulses on the trace
are one triple stop, reset, start per recovery cycle done, and the beginning of the cycle in progress. -/
def Obligations.RecoveryTriplesOnTheTrace : Prop :=
  ∀ s : State, s.readout.state = .waitingForWords → s.readout.recovCount = 0#8 →
    ∀ k : Nat,
      (engineTurns k s).trace =
        s.trace ++ (List.replicate (engineTurns k s).readout.recovCount.toNat recoveryTriple).flatten
          ++ (match (engineTurns k s).readout.state with
              | .idle => []
              | .waitingForWords => []
              | .handshake => []
              | .directRead => []
              | .decoded => []
              | .stalled => []
              | .recoveryStop => []
              | .recoveryReset => [.trigStop]
              | .recoveryStart => [.trigStop, .bufReset]
              | .error => [])

/-- R263: from its acceptance every request ends in Decoded or Error, whatever the buffer answers, within the rule's
bound on the engine's steps: `max_recovery + 1` waits of at most `max(timeout_polls, 1)` unseen polls each, and at
most `6 * max_recovery + 3` other steps. -/
def Obligations.EveryRequestEnds : Prop :=
  ∀ s : State, s.readout.state = .waitingForWords → s.readout.polls = 0#32 → s.readout.recovCount = 0#8 →
    ∃ k : Nat,
      k ≤ ((bits s.readout.cnfg 8 8).toNat + 1) * max s.readout.timeoutPolls.toNat 1
            + (6 * (bits s.readout.cnfg 8 8).toNat + 3)
      ∧ ((engineTurns k s).readout.state = .decoded ∨ (engineTurns k s).readout.state = .error)

/-- R248: in handshake mode the engine comes to a read only through a sample with the request flag, or with the trigger
target reached and words present; every step keeps that, through any event. -/
def Obligations.HandshakeReadIsJustified : Prop :=
  ∀ s t : State,
    (s.readout.state = .handshake →
      s.readout.sawReq = true ∨ (s.readout.targetTrig ≤ s.readout.latTrig.toNat ∧ s.readout.latWc ≠ 0#32)) →
    step s = .next t →
    t.readout.state = .handshake →
      t.readout.sawReq = true ∨ (t.readout.targetTrig ≤ t.readout.latTrig.toNat ∧ t.readout.latWc ≠ 0#32)

/-- Every step keeps unit R's invariant, for parameters in their ranges: R24, R48, R51, R66, R67, R244, R264. -/
def Obligations.ReadoutInvariantKept : Prop :=
  ∀ s t : State, s.params.inRange = true → ReadoutSound s → step s = .next t → ReadoutSound t

end UnitR

section WholeBlock

open Sys2Proof Sys2Proof.Machine

/-- R371 with R76 and R370: SYS.RESET, and the reset input, leave every piece of state at its reset value, emit no
pulse, and keep the draw counters, the output trace, the parameters, the lines and the links. -/
def Obligations.ResetLeavesResetValues : Prop :=
  ∀ s : State,
    let t : State :=
      { s with
        error := 0#32
        codec :=
          { variant := .leg, configured := false, mapLocked := false, map := [], mapSel := 0#8, encCount := 0#2
            encWord0 := 0#32, encWord1 := 0#32, decOut := 0#32, cmdq := [], replyq := [], busSeq := s.codec.busSeq }
        link :=
          { lines := s.link.lines.map fun e =>
              { e with tuning :=
                { mode := .idle, delay := 0#5, bitslip := 0#3, done := false, paState := .idle, waState := .idle
                  pat := 0#8, plen := 0#8, patValid := false } }
            tuningReply := 0#32
            debugWords := List.replicate s.params.nCapWords 0#32
            links := s.link.links.map fun k => { k with status := { txReady := false, rxReady := false, desReady := false } }
            optSel := 0#4 }
        readout :=
          { cnfg := 0#16 ++ s.params.maxRecoveryReset ++ 0#8, timeoutPolls := 0#32, trigCnfg := 0#32
            evsizeCnfg := 0#32, state := .idle, kind := .av, reqN := 0#28, polls := 0#32, noprog := 0#8
            lastTrig := 0#32, recovCount := 0#8, sawReq := false, result := .none, latWc := 0#32, latTrig := 0#32
            out := [], frameOffs := [], cursor := 0#32, smpSeq := s.readout.smpSeq, rdSeq := s.readout.rdSeq } }
    exec .sysReset s = .next t ∧ runEvent .rst s = .next t

/-- After power-on, for all parameters in their ranges, every list of lines and every number of links R8 admits, the
machine meets every invariant and its registers read as 10_state.md R76 says; `State.reset` is that state at the
parameters of the configuration (notes/assumptions/1.md). -/
def Obligations.ResetStateIsSound : Prop :=
  (∀ (p : Params) (ls : List LineId) (n : Nat), p.inRange = true → n ≤ 16 →
    let s := State.powerOn p ls n
    Sound s
      ∧ (∀ x : LineId, x ∈ s.lineIds ↔ x ∈ ls) ∧ s.link.links.length = n
      ∧ readReg .error 0 s = 0#32 ∧ readReg .codecStat 0 s = 0#32 ∧ readReg .mapSel 0 s = 0#32
      ∧ readReg .mapRd 0 s = 0#32 ∧ readReg .encCount 0 s = 0#32 ∧ readReg .encWord0 0 s = 0#32
      ∧ readReg .encWord1 0 s = 0#32 ∧ readReg .decOut 0 s = 0#32 ∧ readReg .fifoStat 0 s = 0#32
      ∧ readReg .tuningReply 0 s = 0#32 ∧ (∀ k : Nat, readReg .debugWords k s = 0#32)
      ∧ readReg .opticalStat 0 s = 0#32
      ∧ readReg .roCnfg 0 s = 0#16 ++ p.maxRecoveryReset ++ 0#8 ∧ readReg .roTimeoutPolls 0 s = 0#32
      ∧ readReg .roTrigCnfg 0 s = 0#32 ∧ readReg .roEvsizeCnfg 0 s = 0#32 ∧ readReg .roStat 0 s = 0#32
      ∧ readReg .roWordCount 0 s = 0#32 ∧ readReg .roFrameCount 0 s = 0#32
      ∧ (∀ k : Nat, readReg .roData k s = 0#32 ∧ readReg .roFrameOffs k s = 0#32)
      ∧ readReg .roCursor 0 s = 0#32 ∧ readReg .roPolls 0 s = 0#32 ∧ readReg .roNoprog 0 s = 0#32)
  ∧ Sound State.reset ∧ readReg .roCnfg 0 State.reset = 0x00000300#32

/-- R28, R331, R333: short of a reset, an event leaves every flag set, sets at most one, and the reserved bits keep
reading 0. -/
def Obligations.FlagsAreStickyAndAtMostOneIsRaised : Prop :=
  ∀ (ev : Event) (s t : State), resetsBlock ev = false → runEvent ev s = .next t →
    FlagsKept s.error t.error ∧ (t.error = s.error ∨ ∃ e : Err, t.error = s.error ||| e.mask)
    ∧ (bits s.error 18 14 = 0#14 → bits t.error 18 14 = 0#14)

/-- R8, R76, R73: no event changes a parameter, the lines or the number of links; the output trace only grows; the
draw counters never fall. -/
def Obligations.ParametersStayAndTheTraceOnlyGrows : Prop :=
  ∀ (ev : Event) (s t : State), runEvent ev s = .next t →
    t.params = s.params ∧ t.lineIds = s.lineIds ∧ t.link.links.length = s.link.links.length
    ∧ (∃ ps : List Pulse, t.trace = s.trace ++ ps)
    ∧ s.codec.busSeq ≤ t.codec.busSeq ∧ s.readout.smpSeq ≤ t.readout.smpSeq ∧ s.readout.rdSeq ≤ t.readout.rdSeq
    ∧ (∀ (j : Nat) (e : LineEntry), s.link.lines[j]? = some e →
      ∃ e' : LineEntry, t.link.lines[j]? = some e' ∧ e'.id = e.id
        ∧ e.paSeq ≤ e'.paSeq ∧ e.waSeq ≤ e'.waSeq ∧ e.capSeq ≤ e'.capSeq)
    ∧ (∀ (k : Nat) (o : OptLink), s.link.links[k]? = some o →
      ∃ o' : OptLink, t.link.links[k]? = some o' ∧ o.seq ≤ o'.seq)

/-- R89: the commands it lists as idempotent, issued twice in a row, leave what one issue leaves (ROE.RESET its pulse
aside, so it is not here). -/
def Obligations.RepeatedCommandsAreIdempotent : Prop :=
  ∀ (i : Instr) (s t u : State),
    (i = .txcConfigure ∨ i = .txcFlush ∨ (∃ h c l m d b, i = .lnkSetmode h c l m d b)
      ∨ (∃ h c l n p, i = .lnkSetpat h c l n p) ∨ (∃ k, i = .lnkOptsel k)
      ∨ (∃ h c l, i = .lnkGetcfg h c l) ∨ (∃ h c l, i = .lnkGetstat h c l)) →
    exec i s = .next t → exec i t = .next u → u = t

/-- R16, weak fairness a premise: from a sound state, under any schedule whose run is weakly fair, the run never stops,
and what waits for an agent does not wait for ever. Whatever else happens, from every point of the run a non-empty
command queue comes to a turn of the bus agent or is emptied, a running alignment ends, and a readout request ends.
The schedule is an argument; at `Config.schedule` the run is the model's own. -/
def Obligations.FairRunsFinishWhatWaits : Prop :=
  ∀ (sched : Nat → Event) (s : State), Sound s → WeaklyFair sched s →
    ∀ n : Nat, ∃ t : State, runUnder sched n s = some t
      ∧ (t.codec.cmdq ≠ [] →
        ∃ m, n ≤ m ∧ runMeets sched s m fun u => u.codec.cmdq = [] ∨ (eventUnder sched u).1 = .agent .bus)
      ∧ (∀ (x : LineId) (e : LineEntry), findLine x t.link.lines = some e →
        (e.tuning.paState = .running →
          ∃ m, n < m ∧ runMeets sched s m fun u =>
            ∃ e', findLine x u.link.lines = some e' ∧ e'.tuning.paState ≠ .running)
        ∧ (e.tuning.waState = .running →
          ∃ m, n < m ∧ runMeets sched s m fun u =>
            ∃ e', findLine x u.link.lines = some e' ∧ e'.tuning.waState ≠ .running))
      ∧ (t.readout.state.busy = true →
        ∃ m, n < m ∧ runMeets sched s m fun u => u.readout.state.busy = false)

end WholeBlock

section AroundTheBlock

open Sys2Proof Sys2Proof.Machine

/-- R177: the ideal bus returns exactly the nominal number of replies to a word of opcode 0 or 2, and keeps its
memory's canonical form. -/
def Obligations.IdealBusReturnsTheNominalReplies : Prop :=
  ∀ (v : Variant) (m : List MapEntry) (mem : ChipMem) (w : Word),
    (bits w 28 4 = 0#4 ∨ bits w 28 4 = 2#4 →
      (idealBus v m mem w).2.length = nomReplies m.length w)
    ∧ (ChipMem.wf mem = true → ChipMem.wf (idealBus v m mem w).1 = true)

/-- R177 and R176's intended meaning of the forms: a write to one chip, then a read of the same register, answers the
written value with the word's own selector, page and address and bit 18 zero; every other address of the chips reads
as before. -/
def Obligations.IdealBusReadsBackWhatWasWritten : Prop :=
  ∀ (v : Variant) (m : List MapEntry) (mem : ChipMem) (sel : Byte) (page : BitVec 1) (addr value : Byte),
    ChipMem.wf mem = true →
    let wr := twWord 0#4 sel 0#1 0#1 page 0#1 addr value
    let rd := twWord 0#4 sel 0#1 0#1 page 1#1 addr 0#8
    let d := decodeFields v m wr
    (idealBus v m (idealBus v m mem wr).1 rd).2 = [twWord 0#4 sel 0#1 0#1 page 1#1 addr value]
    ∧ (∀ a : Nat, a ≠ chipAddr d.hybrid d.chip page addr →
        ChipMem.read (idealBus v m mem wr).1 a = ChipMem.read mem a)

/-- R295: the chunks of a batch are the batch, in order, none empty, each within both queues and the longest such prefix
of what remained: one word more would be one too many for the command queue or one reply too many. The chunking answers
exactly when no word alone has more replies due than the reply queue holds. -/
def Obligations.ChunksCoverTheBatch : Prop :=
  ∀ (hp : HostParams) (nEntries : Nat) (words : List Word), 1 ≤ hp.cmdFifoDepth →
    ((∃ chunks, chunksFrom hp nEntries words.length words = some chunks) ↔
      ∀ w ∈ words, nomReplies nEntries w ≤ hp.replyFifoDepth)
    ∧ ∀ chunks : List (List Word), chunksFrom hp nEntries words.length words = some chunks →
      chunks.flatten = words
      ∧ (∀ ch ∈ chunks, ch ≠ [] ∧ ch.length ≤ hp.cmdFifoDepth ∧ dueReplies nEntries ch ≤ hp.replyFifoDepth)
      ∧ ∀ (before after : List (List Word)) (ch rest : List Word) (w : Word),
        chunks = before ++ ch :: (w :: rest) :: after →
        hp.cmdFifoDepth < (ch ++ [w]).length ∨ hp.replyFifoDepth < dueReplies nEntries (ch ++ [w])

end AroundTheBlock
end

