-- ==== Sys2Proof/Laws/Fields.lean ====
section
/-! SUPPORT. The number a packed word is, and the field of each packed word a decoder reads: the bit-level facts every
encoding statement rests on. -/

namespace Sys2Proof

/-- A concatenation as a number. -/
theorem append_toNat {m n : Nat} (x : BitVec m) (y : BitVec n) : (x ++ y).toNat = x.toNat * 2 ^ n + y.toNat := by
  rw [BitVec.toNat_append, Nat.shiftLeft_eq, Nat.mul_comm, Nat.two_pow_add_eq_or_of_lt y.isLt]

/-- A field as a number. -/
theorem bits_toNat (w : Word) (lo n : Nat) : (bits w lo n).toNat = w.toNat / 2 ^ lo % 2 ^ n := by
  simp [bits, BitVec.extractLsb'_toNat, Nat.shiftRight_eq_div_pow]

/-- Two fields are equal when their numbers are. -/
theorem bits_eq_iff (w : Word) (lo n : Nat) (x : BitVec n) : bits w lo n = x ↔ w.toNat / 2 ^ lo % 2 ^ n = x.toNat := by
  rw [← bits_toNat]; exact BitVec.toNat_inj.symm

theorem nibbleSel_toNat (hi lo : Nibble) : (nibbleSel hi lo).toNat = hi.toNat * 2 ^ 4 + lo.toNat :=
  append_toNat hi lo

theorem twWord_toNat (op : Nibble) (sel : Byte) (rb fail page rd : BitVec 1) (addr value : Byte) :
    (twWord op sel rb fail page rd addr value).toNat =
      op.toNat * 2 ^ 28 + sel.toNat * 2 ^ 20 + rb.toNat * 2 ^ 19 + fail.toNat * 2 ^ 18 + page.toNat * 2 ^ 17
        + rd.toNat * 2 ^ 16 + addr.toNat * 2 ^ 8 + value.toNat := by
  refine (append_toNat (op ++ sel ++ rb ++ fail ++ page ++ rd ++ addr) value).trans ?_
  simp only [append_toNat]
  omega

theorem cmWord_toNat (link hybrid chip : Nibble) (bw : BitVec 2) (busAddr : BitVec 7) :
    (cmWord link hybrid chip bw busAddr).toNat =
      link.toNat * 2 ^ 24 + hybrid.toNat * 2 ^ 20 + chip.toNat * 2 ^ 16 + bw.toNat * 2 ^ 8 + busAddr.toNat := by
  refine (append_toNat (0#4 ++ link ++ hybrid ++ chip ++ 0#6 ++ bw ++ 0#1) busAddr).trans ?_
  simp only [append_toNat, BitVec.toNat_ofNat]
  omega

theorem ceWord_toNat (bcast write readback : BitVec 1) (hybrid chip : Nibble) (page : BitVec 1) (addr value : Byte) :
    (ceWord bcast write readback hybrid chip page addr value).toNat =
      bcast.toNat * 2 ^ 31 + write.toNat * 2 ^ 30 + readback.toNat * 2 ^ 29 + hybrid.toNat * 2 ^ 24
        + chip.toNat * 2 ^ 20 + page.toNat * 2 ^ 17 + addr.toNat * 2 ^ 8 + value.toNat := by
  refine (append_toNat (bcast ++ write ++ readback ++ 0#1 ++ hybrid ++ chip ++ 0#2 ++ page ++ 0#1 ++ addr)
    value).trans ?_
  simp only [append_toNat, BitVec.toNat_ofNat]
  omega

theorem ltWord_toNat (hybrid chip line ctype : Nibble) (payload : BitVec 16) :
    (ltWord hybrid chip line ctype payload).toNat =
      hybrid.toNat * 2 ^ 28 + chip.toNat * 2 ^ 24 + line.toNat * 2 ^ 20 + ctype.toNat * 2 ^ 16 + payload.toNat := by
  refine (append_toNat (hybrid ++ chip ++ line ++ ctype) payload).trans ?_
  simp only [append_toNat]
  omega

theorem setmodePayload_toNat (mode : BitVec 2) (delay : BitVec 5) (bitslip : BitVec 3) :
    (setmodePayload mode delay bitslip).toNat = mode.toNat * 2 ^ 12 + delay.toNat * 2 ^ 3 + bitslip.toNat := by
  refine (append_toNat (0#2 ++ mode ++ 0#4 ++ delay) bitslip).trans ?_
  simp only [append_toNat, BitVec.toNat_ofNat]
  omega

theorem setpatPayload_toNat (plen pat : Byte) : (setpatPayload plen pat).toNat = plen.toNat * 2 ^ 8 + pat.toNat :=
  append_toNat plen pat

theorem loWord_toNat (link code : Nibble) : (loWord link code).toNat = link.toNat * 2 ^ 8 + code.toNat := by
  refine (append_toNat (0#20 ++ link ++ 0#4) code).trans ?_
  simp only [append_toNat, BitVec.toNat_ofNat]
  omega

theorem rcWord_toNat (operand : BitVec 28) (code : Nibble) :
    (rcWord operand code).toNat = operand.toNat * 2 ^ 4 + code.toNat :=
  append_toNat operand code

section Transaction

variable (op : Nibble) (sel : Byte) (rb fail page rd : BitVec 1) (addr value : Byte)

@[simp] theorem twWord_op : bits (twWord op sel rb fail page rd addr value) 28 4 = op := by
  rw [bits_eq_iff, twWord_toNat]; omega

@[simp] theorem twWord_sel : bits (twWord op sel rb fail page rd addr value) 20 8 = sel := by
  rw [bits_eq_iff, twWord_toNat]; omega

@[simp] theorem twWord_rb : bits (twWord op sel rb fail page rd addr value) 19 1 = rb := by
  rw [bits_eq_iff, twWord_toNat]; omega

@[simp] theorem twWord_fail : bits (twWord op sel rb fail page rd addr value) 18 1 = fail := by
  rw [bits_eq_iff, twWord_toNat]; omega

@[simp] theorem twWord_page : bits (twWord op sel rb fail page rd addr value) 17 1 = page := by
  rw [bits_eq_iff, twWord_toNat]; omega

@[simp] theorem twWord_rd : bits (twWord op sel rb fail page rd addr value) 16 1 = rd := by
  rw [bits_eq_iff, twWord_toNat]; omega

@[simp] theorem twWord_addr : bits (twWord op sel rb fail page rd addr value) 8 8 = addr := by
  rw [bits_eq_iff, twWord_toNat]; omega

@[simp] theorem twWord_value : bits (twWord op sel rb fail page rd addr value) 0 8 = value := by
  rw [bits_eq_iff, twWord_toNat]; omega

/-- The upper nibble of a two-nibble selector, read from the word. -/
@[simp] theorem twWord_selHi (hi lo : Nibble) :
    bits (twWord op (nibbleSel hi lo) rb fail page rd addr value) 24 4 = hi := by
  rw [bits_eq_iff, twWord_toNat, nibbleSel_toNat]; omega

/-- The lower nibble of a two-nibble selector, read from the word. -/
@[simp] theorem twWord_selLo (hi lo : Nibble) :
    bits (twWord op (nibbleSel hi lo) rb fail page rd addr value) 20 4 = lo := by
  rw [bits_eq_iff, twWord_toNat, nibbleSel_toNat]; omega

end Transaction

/-- A word is its transaction fields. -/
theorem twWord_bits (w : Word) :
    twWord (bits w 28 4) (bits w 20 8) (bits w 19 1) (bits w 18 1) (bits w 17 1) (bits w 16 1) (bits w 8 8)
      (bits w 0 8) = w := by
  apply BitVec.eq_of_toNat_eq
  simp only [twWord_toNat, bits_toNat]
  omega

/-- A selector is its two nibbles. -/
theorem nibbleSel_bits (w : Word) : nibbleSel (bits w 24 4) (bits w 20 4) = bits w 20 8 := by
  apply BitVec.eq_of_toNat_eq
  simp only [nibbleSel_toNat, bits_toNat]
  omega

/-- A one-bit field is 0 or 1. -/
theorem bit_eq_zero_or_one (b : BitVec 1) : b = 0#1 ∨ b = 1#1 := by
  revert b; decide

end Sys2Proof
end

