-- ==== Sys2Proof/Laws/State.lean ====
section
/-! SUPPORT. One lemma per field per update of the state, true by definition, so that no later proof unfolds a record
update; and the fields of the events' bookkeeping. -/

namespace Sys2Proof.Machine

@[simp] theorem raise_params (e : Err) (s : State) : (raise e s).params = s.params := rfl
@[simp] theorem raise_error (e : Err) (s : State) : (raise e s).error = s.error ||| e.mask := rfl
@[simp] theorem raise_codec (e : Err) (s : State) : (raise e s).codec = s.codec := rfl
@[simp] theorem raise_link (e : Err) (s : State) : (raise e s).link = s.link := rfl
@[simp] theorem raise_readout (e : Err) (s : State) : (raise e s).readout = s.readout := rfl
@[simp] theorem raise_trace (e : Err) (s : State) : (raise e s).trace = s.trace := rfl
@[simp] theorem raise_rdata (e : Err) (s : State) : (raise e s).rdata = s.rdata := rfl
@[simp] theorem raise_script (e : Err) (s : State) : (raise e s).script = s.script := rfl
@[simp] theorem raise_turn (e : Err) (s : State) : (raise e s).turn = s.turn := rfl

@[simp] theorem emit_params (p : Pulse) (s : State) : (emit p s).params = s.params := rfl
@[simp] theorem emit_error (p : Pulse) (s : State) : (emit p s).error = s.error := rfl
@[simp] theorem emit_codec (p : Pulse) (s : State) : (emit p s).codec = s.codec := rfl
@[simp] theorem emit_link (p : Pulse) (s : State) : (emit p s).link = s.link := rfl
@[simp] theorem emit_readout (p : Pulse) (s : State) : (emit p s).readout = s.readout := rfl
@[simp] theorem emit_trace (p : Pulse) (s : State) : (emit p s).trace = s.trace ++ [p] := rfl
@[simp] theorem emit_rdata (p : Pulse) (s : State) : (emit p s).rdata = s.rdata := rfl
@[simp] theorem emit_script (p : Pulse) (s : State) : (emit p s).script = s.script := rfl
@[simp] theorem emit_turn (p : Pulse) (s : State) : (emit p s).turn = s.turn := rfl

@[simp] theorem setCodec_params (c : Codec) (s : State) : (setCodec c s).params = s.params := rfl
@[simp] theorem setCodec_error (c : Codec) (s : State) : (setCodec c s).error = s.error := rfl
@[simp] theorem setCodec_codec (c : Codec) (s : State) : (setCodec c s).codec = c := rfl
@[simp] theorem setCodec_link (c : Codec) (s : State) : (setCodec c s).link = s.link := rfl
@[simp] theorem setCodec_readout (c : Codec) (s : State) : (setCodec c s).readout = s.readout := rfl
@[simp] theorem setCodec_trace (c : Codec) (s : State) : (setCodec c s).trace = s.trace := rfl
@[simp] theorem setCodec_rdata (c : Codec) (s : State) : (setCodec c s).rdata = s.rdata := rfl
@[simp] theorem setCodec_script (c : Codec) (s : State) : (setCodec c s).script = s.script := rfl
@[simp] theorem setCodec_turn (c : Codec) (s : State) : (setCodec c s).turn = s.turn := rfl

@[simp] theorem setLink_params (l : Link) (s : State) : (setLink l s).params = s.params := rfl
@[simp] theorem setLink_error (l : Link) (s : State) : (setLink l s).error = s.error := rfl
@[simp] theorem setLink_codec (l : Link) (s : State) : (setLink l s).codec = s.codec := rfl
@[simp] theorem setLink_link (l : Link) (s : State) : (setLink l s).link = l := rfl
@[simp] theorem setLink_readout (l : Link) (s : State) : (setLink l s).readout = s.readout := rfl
@[simp] theorem setLink_trace (l : Link) (s : State) : (setLink l s).trace = s.trace := rfl
@[simp] theorem setLink_rdata (l : Link) (s : State) : (setLink l s).rdata = s.rdata := rfl
@[simp] theorem setLink_script (l : Link) (s : State) : (setLink l s).script = s.script := rfl
@[simp] theorem setLink_turn (l : Link) (s : State) : (setLink l s).turn = s.turn := rfl

@[simp] theorem setReadout_params (r : Readout) (s : State) : (setReadout r s).params = s.params := rfl
@[simp] theorem setReadout_error (r : Readout) (s : State) : (setReadout r s).error = s.error := rfl
@[simp] theorem setReadout_codec (r : Readout) (s : State) : (setReadout r s).codec = s.codec := rfl
@[simp] theorem setReadout_link (r : Readout) (s : State) : (setReadout r s).link = s.link := rfl
@[simp] theorem setReadout_readout (r : Readout) (s : State) : (setReadout r s).readout = r := rfl
@[simp] theorem setReadout_trace (r : Readout) (s : State) : (setReadout r s).trace = s.trace := rfl
@[simp] theorem setReadout_rdata (r : Readout) (s : State) : (setReadout r s).rdata = s.rdata := rfl
@[simp] theorem setReadout_script (r : Readout) (s : State) : (setReadout r s).script = s.script := rfl
@[simp] theorem setReadout_turn (r : Readout) (s : State) : (setReadout r s).turn = s.turn := rfl

@[simp] theorem setRdata_params (w : Word) (s : State) : (setRdata w s).params = s.params := rfl
@[simp] theorem setRdata_error (w : Word) (s : State) : (setRdata w s).error = s.error := rfl
@[simp] theorem setRdata_codec (w : Word) (s : State) : (setRdata w s).codec = s.codec := rfl
@[simp] theorem setRdata_link (w : Word) (s : State) : (setRdata w s).link = s.link := rfl
@[simp] theorem setRdata_readout (w : Word) (s : State) : (setRdata w s).readout = s.readout := rfl
@[simp] theorem setRdata_trace (w : Word) (s : State) : (setRdata w s).trace = s.trace := rfl
@[simp] theorem setRdata_rdata (w : Word) (s : State) : (setRdata w s).rdata = w := rfl
@[simp] theorem setRdata_script (w : Word) (s : State) : (setRdata w s).script = s.script := rfl
@[simp] theorem setRdata_turn (w : Word) (s : State) : (setRdata w s).turn = s.turn := rfl

@[simp] theorem setTuning_params (x : LineId) (t : LineTuning) (s : State) : (setTuning x t s).params = s.params := rfl
@[simp] theorem setTuning_error (x : LineId) (t : LineTuning) (s : State) : (setTuning x t s).error = s.error := rfl
@[simp] theorem setTuning_codec (x : LineId) (t : LineTuning) (s : State) : (setTuning x t s).codec = s.codec := rfl
@[simp] theorem setTuning_readout (x : LineId) (t : LineTuning) (s : State) : (setTuning x t s).readout = s.readout := rfl
@[simp] theorem setTuning_trace (x : LineId) (t : LineTuning) (s : State) : (setTuning x t s).trace = s.trace := rfl
@[simp] theorem setTuning_rdata (x : LineId) (t : LineTuning) (s : State) : (setTuning x t s).rdata = s.rdata := rfl
@[simp] theorem setTuning_script (x : LineId) (t : LineTuning) (s : State) : (setTuning x t s).script = s.script := rfl
@[simp] theorem setTuning_turn (x : LineId) (t : LineTuning) (s : State) : (setTuning x t s).turn = s.turn := rfl

@[simp] theorem setTuning_link (x : LineId) (t : LineTuning) (s : State) :
    (setTuning x t s).link =
      { s.link with lines := updateLine x (fun e => { e with tuning := t }) s.link.lines } := rfl

@[simp] theorem raiseOpt_none (s : State) : raiseOpt none s = s := rfl
@[simp] theorem raiseOpt_some (e : Err) (s : State) : raiseOpt (some e) s = raise e s := rfl

@[simp] theorem raiseOpt_params (e : Option Err) (s : State) : (raiseOpt e s).params = s.params := by cases e <;> rfl
@[simp] theorem raiseOpt_codec (e : Option Err) (s : State) : (raiseOpt e s).codec = s.codec := by cases e <;> rfl
@[simp] theorem raiseOpt_link (e : Option Err) (s : State) : (raiseOpt e s).link = s.link := by cases e <;> rfl
@[simp] theorem raiseOpt_readout (e : Option Err) (s : State) : (raiseOpt e s).readout = s.readout := by cases e <;> rfl
@[simp] theorem raiseOpt_trace (e : Option Err) (s : State) : (raiseOpt e s).trace = s.trace := by cases e <;> rfl
@[simp] theorem raiseOpt_rdata (e : Option Err) (s : State) : (raiseOpt e s).rdata = s.rdata := by cases e <;> rfl
@[simp] theorem raiseOpt_script (e : Option Err) (s : State) : (raiseOpt e s).script = s.script := by cases e <;> rfl
@[simp] theorem raiseOpt_turn (e : Option Err) (s : State) : (raiseOpt e s).turn = s.turn := by cases e <;> rfl

@[simp] theorem takeEvent_params (s : State) : (takeEvent s).2.params = s.params := by
  unfold takeEvent; split <;> rfl
@[simp] theorem takeEvent_error (s : State) : (takeEvent s).2.error = s.error := by
  unfold takeEvent; split <;> rfl
@[simp] theorem takeEvent_codec (s : State) : (takeEvent s).2.codec = s.codec := by
  unfold takeEvent; split <;> rfl
@[simp] theorem takeEvent_link (s : State) : (takeEvent s).2.link = s.link := by
  unfold takeEvent; split <;> rfl
@[simp] theorem takeEvent_readout (s : State) : (takeEvent s).2.readout = s.readout := by
  unfold takeEvent; split <;> rfl
@[simp] theorem takeEvent_trace (s : State) : (takeEvent s).2.trace = s.trace := by
  unfold takeEvent; split <;> rfl
@[simp] theorem takeEvent_rdata (s : State) : (takeEvent s).2.rdata = s.rdata := by
  unfold takeEvent; split <;> rfl

/-- With a script, its head is the next event. -/
theorem takeEvent_script (e : Event) (es : List Event) (s : State) (h : s.script = e :: es) :
    takeEvent s = (e, { s with script := es }) := by
  unfold takeEvent; rw [h]

/-- Without one, the free schedule decides. -/
theorem takeEvent_free (s : State) (h : s.script = []) :
    takeEvent s = (Config.schedule s.turn, { s with turn := s.turn + 1 }) := by
  unfold takeEvent; rw [h]

end Sys2Proof.Machine
end

