-- ==== Sys2Proof/Laws/Codec.lean ====
section
/-! SUPPORT. What the shared operations of unit C do, said once: the replies appended to the reply queue, and the
lookups of the slave-address table. -/

namespace Sys2Proof.Machine

/-- Replies that fit come in whole, in order, and raise nothing; otherwise those that fit come in, the rest is lost
and E_FIFO_OVF is raised. Nothing else changes. -/
theorem appendReplies_spec (rs : List Word) (s : State) (h : s.codec.replyq.length ≤ s.params.replyFifoDepth) :
    appendReplies rs s =
      { s with
        error := if s.codec.replyq.length + rs.length ≤ s.params.replyFifoDepth then s.error
          else s.error ||| Err.fifoOvf.mask
        codec := { s.codec with
          replyq := s.codec.replyq ++ rs.take (s.params.replyFifoDepth - s.codec.replyq.length) } } := by
  induction rs generalizing s with
  | nil => simp [appendReplies, h]
  | cons r rs ih =>
    by_cases hf : s.codec.replyq.length = s.params.replyFifoDepth
    · simp [appendReplies, hf, raise]
    · have hlt : s.codec.replyq.length < s.params.replyFifoDepth := by omega
      have hl : (s.codec.replyq ++ [r]).length = s.codec.replyq.length + 1 := by simp
      have hs : s.params.replyFifoDepth - s.codec.replyq.length =
          (s.params.replyFifoDepth - (s.codec.replyq.length + 1)) + 1 := by omega
      have hc : s.codec.replyq.length + 1 + rs.length = s.codec.replyq.length + (rs.length + 1) := by omega
      rw [appendReplies, if_neg hf, ih _ (by simpa [hl] using hlt)]
      simp [setCodec, hl, hs, hc]

/-- Whatever comes back, only the reply queue and the error register change. -/
theorem appendReplies_frame (rs : List Word) (s : State) :
    ∃ q err, appendReplies rs s = { s with error := err, codec := { s.codec with replyq := q } }
      ∧ (err = s.error ∨ err = s.error ||| Err.fifoOvf.mask) := by
  induction rs generalizing s with
  | nil => exact ⟨s.codec.replyq, s.error, rfl, .inl rfl⟩
  | cons r rs ih =>
    rw [appendReplies]
    split
    · exact ⟨s.codec.replyq, _, rfl, .inr rfl⟩
    · obtain ⟨q, err, h, he⟩ := ih (setCodec { s.codec with replyq := s.codec.replyq ++ [r] } s)
      exact ⟨q, err, h, he⟩

/-- A lookup by ids answers an entry with those ids. -/
theorem mapLookup_some {m : List MapEntry} {h c : Nibble} {i : Nat} (hl : mapLookup m h c = some i) :
    ∃ e, m[i]? = some e ∧ e.hybrid = h ∧ e.chip = c := by
  obtain ⟨hi, hp, -⟩ := List.findIdx?_eq_some_iff_getElem.mp hl
  exact ⟨m[i], List.getElem?_eq_getElem hi, of_decide_eq_true hp⟩

/-- A lookup by ids misses exactly when no entry has them. -/
theorem mapLookup_none_iff {m : List MapEntry} {h c : Nibble} :
    mapLookup m h c = none ↔ ¬ ∃ e ∈ m, e.hybrid = h ∧ e.chip = c := by
  simp [mapLookup]

/-- Two entries of a table with unique keys have the same place when they have the same ids. -/
theorem index_unique {m : List MapEntry} (hk : m.Pairwise fun a b => ¬ (a.hybrid = b.hybrid ∧ a.chip = b.chip))
    {i j : Nat} {a b : MapEntry} (hi : m[i]? = some a) (hj : m[j]? = some b)
    (h : a.hybrid = b.hybrid ∧ a.chip = b.chip) : i = j := by
  obtain ⟨hi', rfl⟩ := List.getElem?_eq_some_iff.mp hi
  obtain ⟨hj', rfl⟩ := List.getElem?_eq_some_iff.mp hj
  have hp := List.pairwise_iff_getElem.mp hk
  rcases Nat.lt_trichotomy i j with hlt | heq | hgt
  · exact absurd h (hp i j hi' hj' hlt)
  · exact heq
  · exact absurd ⟨h.1.symm, h.2.symm⟩ (hp j i hj' hi' hgt)

/-- The local index of an entry is below the number of entries of its link. -/
theorem localIndex_lt {m : List MapEntry} {i : Nat} {e : MapEntry} (hi : m[i]? = some e) :
    localIndex m i e.link < localCount m e.link := by
  obtain ⟨hi', he⟩ := List.getElem?_eq_some_iff.mp hi
  have hd : m.drop i = e :: m.drop (i + 1) := by rw [List.drop_eq_getElem_cons hi', he]
  have hc : localCount m e.link = localIndex m i e.link + (m.drop i).countP fun x => decide (x.link = e.link) := by
    rw [localIndex, localCount, localCount, ← List.countP_append, List.take_append_drop]
  rw [hc, hd, List.countP_cons]
  simp

/-- Local indices rise along the entries of a link. -/
theorem localIndex_lt_of_lt {m : List MapEntry} {i j : Nat} {e : MapEntry} (hi : m[i]? = some e) (hij : i < j) :
    localIndex m i e.link < localIndex m j e.link := by
  have hi' : (m.take j)[i]? = some e := by rw [List.getElem?_take_of_lt hij]; exact hi
  have h := localIndex_lt hi'
  simpa [localIndex, List.take_take, Nat.min_eq_left (Nat.le_of_lt hij)] using h

/-- A lookup by link and local index answers an entry of that link with that local index. -/
theorem isLocal_iff {m : List MapEntry} {k li : Nibble} {i : Nat} :
    isLocal m k li i = true ↔ ∃ e, m[i]? = some e ∧ e.link = k ∧ localIndex m i k = li.toNat := by
  unfold isLocal
  cases h : m[i]? <;> simp

end Sys2Proof.Machine
end

