-- ==== Sys2Proof/Laws/Lines.lean ====
section
/-! SUPPORT. What the operations on the table of line records do, said once: finding an entry, replacing the entry of
one line, and that no other line is touched. -/

namespace Sys2Proof.Machine

/-- A found entry is the line's own and is in the table. -/
theorem findLine_some {x : LineId} {ls : List LineEntry} {e : LineEntry} (h : findLine x ls = some e) :
    e.id = x ∧ e ∈ ls :=
  ⟨by simpa using List.find?_some h, List.mem_of_find?_eq_some h⟩

/-- A line is found exactly when it is one of the lines. -/
theorem findLine_isSome_iff (x : LineId) (ls : List LineEntry) :
    (findLine x ls).isSome = true ↔ x ∈ ls.map LineEntry.id := by
  simp [findLine]

/-- With one entry per line, an entry of the table is the one found. -/
theorem findLine_of_mem {ls : List LineEntry} {e : LineEntry} (hn : (ls.map LineEntry.id).Nodup) (he : e ∈ ls) :
    findLine e.id ls = some e := by
  induction ls with
  | nil => cases he
  | cons a as ih =>
    simp only [List.map_cons, List.nodup_cons] at hn
    rcases List.mem_cons.mp he with rfl | he
    · simp [findLine]
    · have hne : a.id ≠ e.id := fun h => hn.1 (h ▸ List.mem_map_of_mem he)
      simpa [findLine, hne] using ih hn.2 he

/-- Replacing an entry by one of the same line keeps the lines. -/
theorem updateLine_ids {x : LineId} {f : LineEntry → LineEntry} (hf : ∀ e, (f e).id = e.id) (ls : List LineEntry) :
    (updateLine x f ls).map LineEntry.id = ls.map LineEntry.id := by
  simp only [updateLine, List.map_map]
  refine List.map_congr_left fun e _ => ?_
  by_cases h : e.id = x <;> simp [h, hf]

/-- The line replaced is found as the replacement of what was found. -/
theorem findLine_updateLine {x : LineId} {f : LineEntry → LineEntry} (hf : ∀ e, (f e).id = e.id)
    (ls : List LineEntry) : findLine x (updateLine x f ls) = (findLine x ls).map f := by
  induction ls with
  | nil => rfl
  | cons a as ih =>
    by_cases h : a.id = x
    · simp [findLine, updateLine, h, hf]
    · simpa [findLine, updateLine, h] using ih

/-- Every other line is found as before. -/
theorem findLine_updateLine_ne {x y : LineId} {f : LineEntry → LineEntry} (hf : ∀ e, (f e).id = e.id) (h : y ≠ x)
    (ls : List LineEntry) : findLine y (updateLine x f ls) = findLine y ls := by
  induction ls with
  | nil => rfl
  | cons a as ih =>
    by_cases ha : a.id = x
    · have hy : ¬ x = y := fun e => h e.symm
      simpa [findLine, updateLine, ha, hf, hy] using ih
    · by_cases hy : a.id = y <;> simp_all [findLine, updateLine]

/-- An entry of the updated table is an untouched one, or the replacement of an entry of the line. -/
theorem mem_updateLine {x : LineId} {f : LineEntry → LineEntry} {ls : List LineEntry} {e' : LineEntry}
    (h : e' ∈ updateLine x f ls) : (∃ e ∈ ls, e.id = x ∧ e' = f e) ∨ (e' ∈ ls ∧ e'.id ≠ x) := by
  obtain ⟨e, he, rfl⟩ := List.mem_map.mp h
  by_cases hx : e.id = x
  · exact .inl ⟨e, he, hx, by simp [hx]⟩
  · exact .inr ⟨by simpa [hx] using he, by simp [hx]⟩

/-- The common front of a line command: a line that does not exist raises, one that exists goes on. -/
theorem onLine_none {x : LineId} {s : State} (k : LineEntry → State) (h : findLine x s.link.lines = none) :
    onLine x s k = raise .lnkBadline s := by
  simp [onLine, h]

theorem onLine_some {x : LineId} {s : State} {e : LineEntry} (k : LineEntry → State)
    (h : findLine x s.link.lines = some e) : onLine x s k = k e := by
  simp [onLine, h]

end Sys2Proof.Machine
end

