-- ==== Sys2Proof/Laws/Exec.lean ====
section
/-! SUPPORT. What an instruction and an event can do, said once: the dispatch of a transaction word, the queued words
that have a meaning, and what becomes of the parameters and of unit R. -/

namespace Sys2Proof.Machine

/-- A dispatch sends its word, counts a draw, and may grow the reply queue and raise E_FIFO_OVF; nothing else. -/
theorem dispatch_frame (w : Word) (s : State) :
    ∃ q err,
      dispatch w s =
        { s with
          error := err
          trace := s.trace ++ [.cmdBus w]
          codec := { s.codec with busSeq := s.codec.busSeq + 1, replyq := q } }
      ∧ (err = s.error ∨ err = s.error ||| Err.fifoOvf.mask)
      ∧ (s.codec.replyq.length ≤ s.params.replyFifoDepth → q.length ≤ s.params.replyFifoDepth) := by
  by_cases h : s.codec.replyq.length ≤ s.params.replyFifoDepth
  · simp only [dispatch, dispatchWith]
    rw [appendReplies_spec _ _ (by simpa [setCodec, emit] using h)]
    refine ⟨_, _, rfl, ?_, ?_⟩
    · simp only [setCodec, emit]
      by_cases hx : s.codec.replyq.length + (drawReplies w s).length ≤ s.params.replyFifoDepth <;> simp [hx]
    · intro _; simp [setCodec, emit]; omega
  · obtain ⟨q, err, h1, h2⟩ :=
      appendReplies_frame (drawReplies w s) (setCodec { s.codec with busSeq := s.codec.busSeq + 1 } (emit (.cmdBus w) s))
    exact ⟨q, err, h1, h2, fun h' => absurd h' h⟩

@[simp] theorem dispatch_params (w : Word) (s : State) : (dispatch w s).params = s.params := by
  obtain ⟨q, err, h, -⟩ := dispatch_frame w s; rw [h]

@[simp] theorem dispatch_readout (w : Word) (s : State) : (dispatch w s).readout = s.readout := by
  obtain ⟨q, err, h, -⟩ := dispatch_frame w s; rw [h]

@[simp] theorem dispatch_link (w : Word) (s : State) : (dispatch w s).link = s.link := by
  obtain ⟨q, err, h, -⟩ := dispatch_frame w s; rw [h]

theorem decodeSingle_ok (v : Variant) (w : Word) (h : ¬ (v = .leg ∧ bits w 16 1 = 0#1 ∧ bits w 19 1 = 1#1)) :
    ∃ i, decodeSingle v w = .ok i := by
  unfold decodeSingle
  rcases bit_eq_zero_or_one (bits w 16 1) with h1 | h1 <;> rcases bit_eq_zero_or_one (bits w 19 1) with h2 | h2 <;>
    cases v <;> simp only [h1, h2] at h ⊢ <;> first | exact ⟨_, rfl⟩ | exact absurd ⟨trivial, trivial, trivial⟩ h

theorem decodeBroadcast_ok (v : Variant) (w : Word) (h : ¬ (v = .leg ∧ bits w 16 1 = 0#1 ∧ bits w 19 1 = 1#1)) :
    ∃ i, decodeBroadcast v w = .ok i := by
  unfold decodeBroadcast
  rcases bit_eq_zero_or_one (bits w 16 1) with h1 | h1 <;> rcases bit_eq_zero_or_one (bits w 19 1) with h2 | h2 <;>
    cases v <;> simp only [h1, h2] at h ⊢ <;> first | exact ⟨_, rfl⟩ | exact absurd ⟨trivial, trivial, trivial⟩ h

/-- A word that passes the five checks of a push is one of the forms of its variant. -/
theorem legal_decodes (v : Variant) (m : List MapEntry) (w : Word) (h : illegalRequest v m w = none) :
    ∃ i, decode (.dispatch v w) = .ok i := by
  simp only [illegalRequest] at h
  split at h; · cases h
  split at h; · cases h
  split at h; · cases h
  split at h; · cases h
  rename_i h1 h2 h3 h4
  rw [not_not] at h2
  change ∃ i, decodeTransaction v w = .ok i
  unfold decodeTransaction
  by_cases h0 : bits w 28 4 = 0#4
  · rw [if_pos h0, if_pos h2]; exact decodeSingle_ok v w h3
  · have hb : bits w 28 4 = 2#4 := by
      by_contra hb
      exact h1 ⟨h0, hb⟩
    have hs : bits w 20 8 = 0#8 := by
      by_contra hs
      exact h4 ⟨hb, hs⟩
    rw [if_neg h0, if_pos hb, if_pos h2, if_neg h3, if_pos hs]; exact decodeBroadcast_ok v w h3

/-- A dispatched form sends a word: a decoded transaction runs as one dispatch. -/
theorem decoded_dispatches (v : Variant) (w : Word) (i : Instr) (h : decode (.dispatch v w) = .ok i) :
    ∃ w', ∀ s, exec i s = .next (dispatch w' s) := by
  simp only [decode, decodeTransaction, decodeSingle, decodeBroadcast] at h
  (repeat' split at h) <;> cases h <;> exact ⟨_, fun _ => rfl⟩

/-- What a step short of a reset can make of unit R: nothing, an abort, a start, a configuration write while idle, or
a turn of the engine. -/
inductive ReadoutMove (s : State) : Readout → Prop where
  | same : ReadoutMove s s.readout
  | abort : ReadoutMove s s.readout.aborted
  | reset : ReadoutMove s (Readout.initial s.params s.readout.smpSeq s.readout.rdSeq)
  | startAv (h : s.readout.state.busy = false) :
      ReadoutMove s ({ s.readout with kind := .av, reqN := 0#28 } : Readout).start
  | startN (n : BitVec 28) (hn : n ≠ 0#28) (h : s.readout.state.busy = false)
      (hf : n.toNat * s.readout.evSize ≤ s.params.roOutDepth) :
      ReadoutMove s ({ s.readout with kind := .n, reqN := n } : Readout).start
  | cnfg (w : Word) (h : s.readout.state.busy = false) : ReadoutMove s { s.readout with cnfg := w &&& cnfgMask }
  | timeout (w : Word) (h : s.readout.state.busy = false) : ReadoutMove s { s.readout with timeoutPolls := w }
  | trig (w : Word) (h : s.readout.state.busy = false) : ReadoutMove s { s.readout with trigCnfg := w }
  | evsize (w : Word) (h : s.readout.state.busy = false) :
      ReadoutMove s { s.readout with evsizeCnfg := w &&& evsizeMask }
  | turn : ReadoutMove s (engineTurn s).readout

theorem ReadoutMove.of_eq {s : State} {r : Readout} (h : r = s.readout) : ReadoutMove s r := h ▸ .same

theorem ReadoutMove.onLine {s : State} {x : LineId} {k : LineEntry → State} (h : ∀ e, (k e).readout = s.readout) :
    (onLine x s k).readout = s.readout := by
  unfold Machine.onLine; split
  · rfl
  · exact h _

/-- An instruction never changes a parameter, and moves unit R only as listed. -/
theorem exec_readout (i : Instr) (s t : State) (h : exec i s = .next t) :
    t.params = s.params ∧ ReadoutMove s t.readout := by
  cases i
  case sysReset => cases h; exact ⟨rfl, .reset⟩
  case txcConfigure =>
    cases h; unfold configure
    split <;> exact ⟨rfl, .same⟩
  case txcFlush => cases h; exact ⟨rfl, .same⟩
  case txcMapadd =>
    cases h; unfold mapadd
    split <;> exact ⟨rfl, .same⟩
  case txcEnc =>
    cases h; unfold encodeRequest
    dsimp only
    split
    · exact ⟨rfl, .same⟩
    · split <;> exact ⟨rfl, .same⟩
  case txcDec =>
    cases h; unfold decodeWord
    split <;> exact ⟨rfl, .same⟩
  case txcPush =>
    cases h; unfold pushCommand
    dsimp only
    split
    · exact ⟨rfl, .same⟩
    · split
      · exact ⟨rfl, .same⟩
      · split <;> exact ⟨rfl, .same⟩
  case txcPop =>
    cases h; unfold popReply
    split <;> exact ⟨rfl, .same⟩
  case lnkGetcfg => cases h; unfold getCfg onLine; split <;> exact ⟨rfl, .same⟩
  case lnkGetstat => cases h; unfold getStat onLine; split <;> exact ⟨rfl, .same⟩
  case lnkSetmode =>
    cases h; unfold setMode onLine
    split
    · exact ⟨rfl, .same⟩
    · split <;> exact ⟨rfl, .same⟩
  case lnkSetpat =>
    cases h; unfold setPat onLine
    split
    · exact ⟨rfl, .same⟩
    · split
      · exact ⟨rfl, .same⟩
      · dsimp only; split <;> exact ⟨rfl, .same⟩
  case lnkDopa =>
    cases h; unfold doPhase onLine
    split
    · exact ⟨rfl, .same⟩
    · dsimp only; split <;> exact ⟨rfl, .same⟩
  case lnkDowa =>
    cases h; unfold doWord onLine
    split
    · exact ⟨rfl, .same⟩
    · dsimp only; split <;> exact ⟨rfl, .same⟩
  case lnkCapture =>
    cases h; unfold capture onLine
    split
    · exact ⟨rfl, .same⟩
    · dsimp only; split <;> exact ⟨rfl, .same⟩
  case lnkOptrst => cases h; exact ⟨rfl, .same⟩
  case lnkOptsel =>
    cases h; unfold selectLink
    split <;> exact ⟨rfl, .same⟩
  case roeReset => cases h; exact ⟨rfl, .abort⟩
  case roeReadav =>
    cases h; unfold readAvailable
    split
    · exact ⟨rfl, .same⟩
    · rename_i hb; exact ⟨rfl, .startAv (by simpa using hb)⟩
  case roeReadn n =>
    cases h; unfold readN
    split
    · exact ⟨rfl, .same⟩
    · rename_i hn
      split
      · exact ⟨rfl, .same⟩
      · rename_i hb
        split
        · exact ⟨rfl, .same⟩
        · rename_i hf
          exact ⟨rfl, .startN n (by simpa [eventsOk] using hn) (by simpa using hb) (by omega)⟩
  all_goals
    cases h
    exact ⟨dispatch_params _ _, .of_eq (dispatch_readout _ _)⟩

/-- An event never changes a parameter, and moves unit R only as listed. -/
theorem runEvent_readout (ev : Event) (s t : State) (h : runEvent ev s = .next t) :
    t.params = s.params ∧ ReadoutMove s t.readout := by
  cases ev with
  | wr r w =>
    have hw : (writeReg r w s).params = s.params ∧ ReadoutMove s (writeReg r w s).readout := by
      unfold writeReg writeConfig
      split
      · exact ⟨rfl, .same⟩
      · split
        · exact ⟨rfl, .same⟩
        · rename_i hb; exact ⟨rfl, .cnfg w (by simpa using hb)⟩
      · split
        · exact ⟨rfl, .same⟩
        · rename_i hb; exact ⟨rfl, .timeout w (by simpa using hb)⟩
      · split
        · exact ⟨rfl, .same⟩
        · rename_i hb; exact ⟨rfl, .trig w (by simpa using hb)⟩
      · split
        · exact ⟨rfl, .same⟩
        · rename_i hb; exact ⟨rfl, .evsize w (by simpa using hb)⟩
      · exact ⟨rfl, .same⟩
    simp only [runEvent, hostWrite] at h
    split at h
    · split at h
      · exact exec_readout _ s t h
      · cases h; exact ⟨rfl, .same⟩
    · cases h; exact hw
    · cases h; exact hw
    · cases h; exact hw
  | rd r k =>
    simp only [runEvent, hostRead] at h
    split at h
    · exact exec_readout _ s t h
    · cases h; exact ⟨rfl, .same⟩
  | rst => cases h; exact ⟨rfl, .reset⟩
  | agent a =>
    cases a with
    | bus =>
      simp only [runEvent, agentTurn, busTurn] at h
      split at h
      · cases h; exact ⟨rfl, .same⟩
      · split at h
        · rename_i w q hq i hd
          obtain ⟨w', he⟩ := decoded_dispatches _ _ _ hd
          rw [he] at h
          cases h
          exact ⟨dispatch_params _ _, .of_eq (dispatch_readout _ _)⟩
        · cases h
    | linePhase x =>
      cases h; unfold phaseTurn
      split
      · exact ⟨rfl, .same⟩
      · split <;> exact ⟨rfl, .same⟩
    | lineWord x =>
      cases h; unfold wordTurn
      split
      · exact ⟨rfl, .same⟩
      · split <;> exact ⟨rfl, .same⟩
    | optical k => cases h; exact ⟨rfl, .same⟩
    | engine =>
      cases h
      refine ⟨?_, .turn⟩
      unfold engineTurn
      split <;> first | rfl | simp only [finishStep, raiseOpt_params, setReadout_params]

end Sys2Proof.Machine
end

