-- ==== Sys2Proof/Laws/Readout.lean ====
section
/-! SUPPORT. What each step of the readout engine can do, said once: the engine's turn state by state, the outcomes of
a poll, of a read step and of the carving, and the frame of a step that may raise. -/

namespace Sys2Proof.Machine

@[simp] theorem finishStep_params (q : Readout × Option Err) (s : State) : (finishStep q s).params = s.params := by
  rcases q with ⟨r, _ | e⟩ <;> rfl

@[simp] theorem finishStep_codec (q : Readout × Option Err) (s : State) : (finishStep q s).codec = s.codec := by
  rcases q with ⟨r, _ | e⟩ <;> rfl

@[simp] theorem finishStep_link (q : Readout × Option Err) (s : State) : (finishStep q s).link = s.link := by
  rcases q with ⟨r, _ | e⟩ <;> rfl

@[simp] theorem finishStep_readout (q : Readout × Option Err) (s : State) : (finishStep q s).readout = q.1 := by
  rcases q with ⟨r, _ | e⟩ <;> rfl

@[simp] theorem finishStep_trace (q : Readout × Option Err) (s : State) : (finishStep q s).trace = s.trace := by
  rcases q with ⟨r, _ | e⟩ <;> rfl

@[simp] theorem finishStep_script (q : Readout × Option Err) (s : State) : (finishStep q s).script = s.script := by
  rcases q with ⟨r, _ | e⟩ <;> rfl

@[simp] theorem finishStep_turn (q : Readout × Option Err) (s : State) : (finishStep q s).turn = s.turn := by
  rcases q with ⟨r, _ | e⟩ <;> rfl

/-- The flag a step may raise is all it does to the error register. -/
theorem finishStep_error (q : Readout × Option Err) (s : State) :
    (finishStep q s).error = s.error ∨ ∃ e, q.2 = some e ∧ (finishStep q s).error = s.error ||| e.mask := by
  rcases q with ⟨r, _ | e⟩
  · exact .inl rfl
  · exact .inr ⟨e, rfl, rfl⟩

theorem engineTurn_waiting (s : State) (h : s.readout.state = .waitingForWords) :
    engineTurn s = setReadout (s.readout.poll (Config.bufSample s.readout.smpSeq)) s := by simp only [engineTurn, h]

theorem engineTurn_handshake (s : State) (h : s.readout.state = .handshake) :
    engineTurn s = finishStep (s.readout.handshakeRead s.params) s := by simp only [engineTurn, h]

theorem engineTurn_directRead (s : State) (h : s.readout.state = .directRead) :
    engineTurn s = finishStep (s.readout.directReadStep s.params) s := by simp only [engineTurn, h]

theorem engineTurn_stalled (s : State) (h : s.readout.state = .stalled) :
    engineTurn s = finishStep s.readout.stall s := by simp only [engineTurn, h]

/-- Idle, Decoded and Error: the engine waits. -/
theorem engineTurn_waits (s : State) (h : s.readout.state.busy = false) : engineTurn s = s := by
  cases hs : s.readout.state <;> simp [engineTurn, hs, RoState.busy] at *

/-- What a poll can do: latch and read, latch and stall, latch and force a handshake read, or wait on. -/
theorem Readout.poll_cases (r : Readout) (smp : BufSample) :
    let r0 := { r with smpSeq := r.smpSeq + 1 }
    (r.handshakeEn = true ∧ smp.req = true
        ∧ r.poll smp = { r0.latch smp with sawReq := true, state := .handshake })
    ∨ (r.handshakeEn = true ∧ smp.req = false
        ∧ (r.timeoutPolls.toNat ≤ (r.polls + 1#32).toNat ∨ Config.noprogLimit ≤ (r.noprogNext smp).toNat)
        ∧ (smp.trig.toNat < r.targetTrig ∨ smp.wc = 0#32)
        ∧ r.poll smp = { (r0.counted smp).latch smp with state := .stalled })
    ∨ (r.handshakeEn = true ∧ smp.req = false
        ∧ (r.timeoutPolls.toNat ≤ (r.polls + 1#32).toNat ∨ Config.noprogLimit ≤ (r.noprogNext smp).toNat)
        ∧ r.targetTrig ≤ smp.trig.toNat ∧ smp.wc ≠ 0#32
        ∧ r.poll smp = { (r0.counted smp).latch smp with state := .handshake })
    ∨ (r.handshakeEn = true ∧ smp.req = false
        ∧ (r.polls + 1#32).toNat < r.timeoutPolls.toNat ∧ (r.noprogNext smp).toNat < Config.noprogLimit
        ∧ r.poll smp = r0.counted smp)
    ∨ (r.handshakeEn = false ∧ (r.kind = .av ∨ r.targetWords ≤ smp.wc.toNat)
        ∧ r.poll smp = { r0.latch smp with state := .directRead })
    ∨ (r.handshakeEn = false ∧ r.kind ≠ .av ∧ smp.wc.toNat < r.targetWords
        ∧ r.timeoutPolls.toNat ≤ (r.polls + 1#32).toNat
        ∧ r.poll smp = { { r0 with polls := r.polls + 1#32 }.latch smp with state := .stalled })
    ∨ (r.handshakeEn = false ∧ r.kind ≠ .av ∧ smp.wc.toNat < r.targetWords
        ∧ (r.polls + 1#32).toNat < r.timeoutPolls.toNat
        ∧ r.poll smp = { r0 with polls := r.polls + 1#32 }) := by
  intro r0
  cases hh : r.handshakeEn with
  | true =>
    cases hq : smp.req with
    | true => exact .inl ⟨rfl, rfl, (if_pos hh).trans (if_pos hq)⟩
    | false =>
      have hp : r.poll smp = r0.pollNoReq smp := (if_pos hh).trans (if_neg (by simp [hq]))
      by_cases ha : r.timeoutPolls.toNat ≤ (r.polls + 1#32).toNat ∨ Config.noprogLimit ≤ (r.noprogNext smp).toNat
      · by_cases hb : smp.trig.toNat < r.targetTrig ∨ smp.wc = 0#32
        · refine .inr (.inl ⟨rfl, rfl, ha, hb, ?_⟩)
          exact hp.trans ((if_pos ha).trans (if_pos hb))
        · have hc := not_or.1 hb
          refine .inr (.inr (.inl ⟨rfl, rfl, ha, by omega, hc.2, ?_⟩))
          exact hp.trans ((if_pos ha).trans (if_neg hb))
      · have hc := not_or.1 ha
        refine .inr (.inr (.inr (.inl ⟨rfl, rfl, by omega, by omega, ?_⟩)))
        exact hp.trans ((if_neg ha))
  | false =>
    have hp : r.poll smp = r0.pollDirect smp := if_neg (by rw [Bool.not_eq_true]; exact hh)
    refine .inr (.inr (.inr (.inr ?_)))
    by_cases hk : r.kind = .av
    · refine .inl ⟨rfl, .inl hk, ?_⟩
      exact hp.trans ((if_pos hk))
    · by_cases hw : r.targetWords ≤ smp.wc.toNat
      · refine .inl ⟨rfl, .inr hw, ?_⟩
        exact hp.trans ((if_neg hk).trans (if_pos hw))
      · by_cases ht : r.timeoutPolls.toNat ≤ (r.polls + 1#32).toNat
        · refine .inr (.inl ⟨rfl, hk, by omega, ht, ?_⟩)
          exact hp.trans ((if_neg hk).trans ((if_neg hw).trans (if_pos ht)))
        · refine .inr (.inr ⟨rfl, hk, by omega, by omega, ?_⟩)
          exact hp.trans ((if_neg hk).trans ((if_neg hw).trans (if_neg ht)))

/-- `noprog` after a poll is one more than before, or 0. -/
theorem Readout.noprogNext_cases (r : Readout) (smp : BufSample) :
    r.noprogNext smp = r.noprog + 1#8 ∨ r.noprogNext smp = 0#8 := by
  unfold Readout.noprogNext
  split
  · exact .inl rfl
  · exact .inr rfl

/-- What the carving can do; the frames, the result and the state are all it writes. -/
theorem Readout.carve_cases (r : Readout) :
    (carveOffsets r.out = none
        ∧ r.carve = ({ r with frameOffs := [], result := .decodeErr, state := .error }, some .roDecode))
    ∨ ∃ os, carveOffsets r.out = some os ∧
        ((r.kind = .n ∧ os.length ≠ r.reqN.toNat
            ∧ r.carve =
              ({ r with frameOffs := os.map (BitVec.ofNat 32), result := .countMismatch, state := .error },
                some .roCount))
          ∨ (¬ (r.kind = .n ∧ os.length ≠ r.reqN.toNat)
            ∧ r.carve =
              ({ r with frameOffs := os.map (BitVec.ofNat 32), result := .ok, state := .decoded }, none))) := by
  cases h : carveOffsets r.out with
  | none => exact .inl ⟨rfl, by simp only [Readout.carve, h]⟩
  | some os =>
    refine .inr ⟨os, rfl, ?_⟩
    by_cases hc : r.kind = .n ∧ os.length ≠ r.reqN.toNat
    · exact .inl ⟨hc.1, hc.2, by simp only [Readout.carve, h, if_pos hc]⟩
    · exact .inr ⟨hc, by simp only [Readout.carve, h, if_neg hc]⟩

/-- The number of words a block read draws. -/
@[simp] theorem Readout.drawWords_length (r : Readout) (n : Nat) : (r.drawWords n).length = n := by
  simp [Readout.drawWords]

/-- What a read step can do: refuse, or load and carve. -/
theorem Readout.readStep_cases (r : Readout) (p : Params) (n : Nat) :
    (p.roOutDepth < n ∧ r.readStep p n = ({ r with result := .overflow, state := .error }, some .roOvf))
    ∨ (n ≤ p.roOutDepth ∧ r.readStep p n = (r.load p.ddr3RingWords (r.drawWords n)).carve) := by
  by_cases h : p.roOutDepth < n
  · exact .inl ⟨h, by simp only [Readout.readStep, if_pos h]⟩
  · exact .inr ⟨by omega, by simp only [Readout.readStep, if_neg h]⟩

/-- The registers no read step writes, and where it leaves the engine. -/
theorem Readout.readStep_frame (r : Readout) (p : Params) (n : Nat) :
    (r.readStep p n).1.cnfg = r.cnfg ∧ (r.readStep p n).1.timeoutPolls = r.timeoutPolls
    ∧ (r.readStep p n).1.trigCnfg = r.trigCnfg ∧ (r.readStep p n).1.evsizeCnfg = r.evsizeCnfg
    ∧ (r.readStep p n).1.kind = r.kind ∧ (r.readStep p n).1.reqN = r.reqN
    ∧ (r.readStep p n).1.recovCount = r.recovCount ∧ (r.readStep p n).1.smpSeq = r.smpSeq
    ∧ ((r.readStep p n).1.state = .decoded ∨ (r.readStep p n).1.state = .error) := by
  rcases r.readStep_cases p n with ⟨-, h⟩ | ⟨-, h⟩ <;> rw [h]
  · simp
  · rcases (r.load p.ddr3RingWords (r.drawWords n)).carve_cases with
      ⟨-, hc⟩ | ⟨os, -, ⟨-, -, hc⟩ | ⟨-, hc⟩⟩ <;> rw [hc] <;> simp [Readout.load]

end Sys2Proof.Machine
end

