-- ==== Sys2Proof/Laws/Fairness.lean ====
section
/-! SUPPORT. Runs under a schedule: the model's step is one of them, what a turn of an agent leaves alone, and that every
state has a weakly fair schedule, the one that gives each agent its turn in rotation. -/

namespace Sys2Proof.Machine

/-- The model's step is the step under its own schedule. -/
theorem stepUnder_schedule (s : State) : stepUnder Config.schedule s = step s := rfl

theorem eventUnder_scripted (sched : Nat → Event) (s : State) (e : Event) (es : List Event) (h : s.script = e :: es) :
    eventUnder sched s = (e, { s with script := es }) := by simp only [eventUnder, h]

theorem eventUnder_free (sched : Nat → Event) (s : State) (h : s.script = []) :
    eventUnder sched s = (sched s.turn, { s with turn := s.turn + 1 }) := by simp only [eventUnder, h]

/-- A run goes on from a state by the event the schedule gives there. -/
theorem runUnder_succ {sched : Nat → Event} {n : Nat} {s u : State} (h : runUnder sched (n + 1) s = some u) :
    ∃ t, runUnder sched n s = some t ∧ stepUnder sched t = .next u := by
  cases ht : runUnder sched n s with
  | none => simp [runUnder, ht] at h
  | some t =>
    refine ⟨t, rfl, ?_⟩
    simp only [runUnder, ht] at h
    split at h
    · rename_i hu; cases h; exact hu
    · cases h
    · cases h

/-- What a turn of any agent leaves alone: the script, the schedule's count, the lines there are and the links. -/
structure AgentFrame (s t : State) : Prop where
  script : t.script = s.script
  turn : t.turn = s.turn
  ids : t.lineIds = s.lineIds
  links : t.link.links.length = s.link.links.length

theorem agentTurn_frame (a : Agent) (s t : State) (h : agentTurn a s = .next t) : AgentFrame s t := by
  cases a with
  | bus =>
    simp only [agentTurn, busTurn] at h
    split at h
    · cases h; exact ⟨rfl, rfl, rfl, rfl⟩
    · split at h
      · rename_i i hd
        obtain ⟨w, he⟩ := decoded_dispatches _ _ _ hd
        rw [he] at h
        cases h
        obtain ⟨q, err, hq, -⟩ := dispatch_frame w (setCodec { s.codec with cmdq := _ } s)
        rw [hq]; exact ⟨rfl, rfl, rfl, rfl⟩
      · cases h
  | linePhase x =>
    cases h; unfold phaseTurn
    split
    · exact ⟨rfl, rfl, rfl, rfl⟩
    · split
      · exact ⟨rfl, rfl, updateLine_ids (f := LineEntry.phaseStep) (fun _ => rfl) _, rfl⟩
      · exact ⟨rfl, rfl, rfl, rfl⟩
  | lineWord x =>
    cases h; unfold wordTurn
    split
    · exact ⟨rfl, rfl, rfl, rfl⟩
    · split
      · exact ⟨rfl, rfl, updateLine_ids (f := LineEntry.wordStep) (fun _ => rfl) _, rfl⟩
      · exact ⟨rfl, rfl, rfl, rfl⟩
  | optical k => cases h; exact ⟨rfl, rfl, rfl, by simp [opticalTurn]⟩
  | engine =>
    cases h; unfold engineTurn
    split <;> first
      | exact ⟨rfl, rfl, rfl, rfl⟩
      | exact ⟨finishStep_script _ _, finishStep_turn _ _, by simp [State.lineIds], by simp⟩

/-- Every agent a state has: the bus agent, the engine, one per line for each of its two steps, one per link. -/
def agentsOf (s : State) : List Agent :=
  [.bus, .engine] ++ s.lineIds.map .linePhase ++ s.lineIds.map .lineWord ++ (List.range s.link.links.length).map .optical

/-- Each agent of a list in turn, over and over. -/
def rotation (as : List Agent) (n : Nat) : Event := .agent (as.getD (n % as.length) .bus)

/-- An enabled agent is one the state has. -/
theorem agentEnabled_mem (a : Agent) (s : State) (h : agentEnabled a s = true) : a ∈ agentsOf s := by
  have found : ∀ (x : LineId) (p : LineEntry → Bool), (findLine x s.link.lines).any p = true → x ∈ s.lineIds := by
    intro x p hp
    cases hf : findLine x s.link.lines with
    | none => simp [hf] at hp
    | some e => exact List.mem_map.2 ⟨e, (findLine_some hf).2, (findLine_some hf).1⟩
  cases a with
  | bus => simp [agentsOf]
  | linePhase x => simpa [agentsOf] using found x _ h
  | lineWord x => simpa [agentsOf] using found x _ h
  | optical k => simpa [agentsOf, agentEnabled] using h
  | engine => simp [agentsOf]

/-- A run in rotation keeps count, and the state keeps its agents. -/
theorem rotation_run (as : List Agent) (s : State) (h0 : s.script = []) (h1 : s.turn = 0) (n : Nat) (t : State)
    (h : runUnder (rotation as) n s = some t) : t.script = [] ∧ t.turn = n ∧ agentsOf t = agentsOf s := by
  induction n generalizing t with
  | zero => cases h; exact ⟨h0, h1, rfl⟩
  | succ n ih =>
    obtain ⟨u, hu, hs⟩ := runUnder_succ h
    obtain ⟨i1, i2, i3⟩ := ih u hu
    rw [stepUnder, eventUnder_free _ _ i1] at hs
    obtain ⟨f1, f2, f3, f4⟩ := agentTurn_frame _ _ _ hs
    refine ⟨f1.trans i1, f2.trans (congrArg (· + 1) i2), ?_⟩
    rw [← i3, agentsOf, f3, f4]; rfl

/-- Rotation over all the agents of a state is weakly fair: every state has a fair schedule (R16). -/
theorem rotation_weaklyFair (s : State) (h0 : s.script = []) (h1 : s.turn = 0) :
    WeaklyFair (rotation (agentsOf s)) s := by
  intro a n he
  obtain ⟨t, ht, hea⟩ := he n (Nat.le_refl n)
  have hmem : a ∈ agentsOf s := (rotation_run _ s h0 h1 n t ht).2.2 ▸ agentEnabled_mem a t hea
  obtain ⟨j, hj, hja⟩ := List.mem_iff_getElem.1 hmem
  have hm : n ≤ n * (agentsOf s).length + j :=
    Nat.le_trans (Nat.le_mul_of_pos_right n (Nat.lt_of_le_of_lt (Nat.zero_le j) hj)) (Nat.le_add_right _ j)
  obtain ⟨u, hu, -⟩ := he _ hm
  obtain ⟨r1, r2, -⟩ := rotation_run _ s h0 h1 _ u hu
  refine ⟨_, hm, u, hu, ?_⟩
  show (eventUnder (rotation (agentsOf s)) u).1 = .agent a
  rw [eventUnder_free _ _ r1, r2]
  have hmod : (n * (agentsOf s).length + j) % (agentsOf s).length = j := by
    rw [Nat.add_comm, Nat.add_mul_mod_self_right, Nat.mod_eq_of_lt hj]
  simp only [rotation, hmod, List.getD_eq_getElem?_getD, List.getElem?_eq_getElem hj, hja, Option.getD_some]

end Sys2Proof.Machine
end

