-- ==== Sys2Proof/Laws/Host.lean ====
section
/-! SUPPORT. The host's parameters at the spec's defaults lie in the ranges of R8. -/

namespace Sys2Proof.Machine

/-- Given families with pattern lengths and a poll bound, which the spec leaves OPEN, the defaults are in range. -/
theorem HostParams.atDefaults_inRange (cplOffset : Family → Bool) (patLengths : Family → List Byte) (roPollMax : Nat)
    (h1 : ∀ f, patLengths f ≠ []) (h2 : ∀ f, ∀ n ∈ patLengths f, n ≠ 0#8) (h3 : 1 ≤ roPollMax) :
    (HostParams.atDefaults cplOffset patLengths roPollMax).InRange := by
  have timeout : ∀ n : BitVec 28, (BitVec.ofNat 32 (max 1 n.toNat)).toNat = max 1 n.toNat := fun n =>
    Nat.mod_eq_of_lt (by have := n.isLt; omega)
  refine
    { linksFit := Nat.le_of_lt_succ Config.nLinks.isLt
      stubLineExists := show (1#4 : Nibble) ≠ 0#4 by decide
      lengthsGiven := h1
      lengthsLegal := h2
      captureWords := show 1 ≤ 1 by decide
      commandDepth := show 1 ≤ 512 ∧ 512 ≤ 65535 by decide
      replyDepth := show 1 ≤ 512 ∧ 512 ≤ 65535 by decide
      linePolls := show 1 ≤ 10 by decide
      opticalPolls := show 1 ≤ 1 by decide
      transactionPolls := show 1 ≤ 100 by decide
      readoutPolls := h3
      timeoutPositive := fun n _ h => ?_
      timeoutMonotone := fun n m _ h => ?_ }
  · have := (timeout n).symm.trans (congrArg BitVec.toNat h)
    simp at this
  · show (BitVec.ofNat 32 _).toNat ≤ (BitVec.ofNat 32 _).toNat
    rw [timeout, timeout]; omega

end Sys2Proof.Machine
end

