-- ==== Sys2Proof/Laws/Memory.lean ====
section
/-! SUPPORT. The laws of the one sparse memory of the package, the chips' memory of the ideal bus: every write keeps the
canonical form, a read after a write gives the byte written, and every other address reads as before. -/

namespace Sys2Proof.Machine

/-- A bound below may be lowered or dropped. -/
theorem ChipMem.risingFrom_mono {lo lo' : Option Nat} {m : ChipMem} (h : ChipMem.risingFrom lo m = true)
    (hl : ∀ l', lo' = some l' → ∃ l, lo = some l ∧ l' ≤ l) : ChipMem.risingFrom lo' m = true := by
  cases m with
  | nil => rfl
  | cons c m =>
    simp only [ChipMem.risingFrom, Bool.and_eq_true] at h ⊢
    refine ⟨⟨?_, h.1.2⟩, h.2⟩
    cases lo' with
    | none => rfl
    | some l' =>
      obtain ⟨l, rfl, hle⟩ := hl _ rfl
      have := h.1.1
      simp at this ⊢
      omega

/-- An entry above the bound, not 0, before entries above it. -/
theorem ChipMem.rising_cons {lo : Option Nat} {a : Nat} {b : Byte} {m : ChipMem} (hl : ∀ l, lo = some l → l < a)
    (hb : b ≠ 0#8) (hm : ChipMem.risingFrom (some a) m = true) : ChipMem.risingFrom lo ((a, b) :: m) = true := by
  simp only [ChipMem.risingFrom, Bool.and_eq_true]
  refine ⟨⟨?_, by simpa using hb⟩, hm⟩
  cases lo with
  | none => rfl
  | some l => simpa using hl l rfl

theorem ChipMem.write_rising (m : ChipMem) (a : Nat) (b : Byte) (lo : Option Nat)
    (h : ChipMem.risingFrom lo m = true) (hl : ∀ l, lo = some l → l < a) :
    ChipMem.risingFrom lo (ChipMem.write m a b) = true := by
  induction m generalizing lo with
  | nil =>
    unfold ChipMem.write
    split
    · rfl
    · rename_i hb
      exact ChipMem.rising_cons hl hb rfl
  | cons c m ih =>
    have h' := h
    simp only [ChipMem.risingFrom, Bool.and_eq_true] at h
    unfold ChipMem.write
    split
    · rename_i ha
      split
      · exact ChipMem.risingFrom_mono h.2 (by rintro l' rfl; exact ⟨c.1, rfl, by have := hl _ rfl; omega⟩)
      · rename_i hb
        exact ChipMem.rising_cons hl hb (ha ▸ h.2)
    · split
      · split
        · exact h'
        · rename_i ha hb
          refine ChipMem.rising_cons hl hb ?_
          simp only [ChipMem.risingFrom, Bool.and_eq_true]
          exact ⟨⟨by simpa using ha, h.1.2⟩, h.2⟩
      · simp only [ChipMem.risingFrom, Bool.and_eq_true]
        exact ⟨h.1, ih _ h.2 (by rintro l ⟨⟩; omega)⟩

/-- A write keeps the canonical form. -/
theorem ChipMem.write_wf (m : ChipMem) (a : Nat) (b : Byte) (h : ChipMem.wf m = true) :
    ChipMem.wf (ChipMem.write m a b) = true := ChipMem.write_rising m a b none h (by simp)

theorem ChipMem.read_below (m : ChipMem) (a l : Nat) (h : ChipMem.risingFrom (some l) m = true) (ha : a ≤ l) :
    ChipMem.read m a = 0#8 := by
  induction m generalizing l with
  | nil => rfl
  | cons c m ih =>
    simp only [ChipMem.risingFrom, Bool.and_eq_true, decide_eq_true_eq] at h
    unfold ChipMem.read
    rw [if_neg (by omega), ih _ h.2 (by omega)]

theorem ChipMem.read_write_rising (m : ChipMem) (a x : Nat) (b : Byte) (lo : Option Nat)
    (h : ChipMem.risingFrom lo m = true) :
    ChipMem.read (ChipMem.write m a b) x = if x = a then b else ChipMem.read m x := by
  induction m generalizing lo with
  | nil =>
    unfold ChipMem.write
    by_cases hx : x = a
    · split <;> simp_all [ChipMem.read]
    · rw [if_neg hx]
      split
      · rfl
      · simp only [ChipMem.read]
        rw [if_neg (by omega)]
  | cons c m ih =>
    simp only [ChipMem.risingFrom, Bool.and_eq_true] at h
    unfold ChipMem.write
    split
    · rename_i ha
      split
      · rename_i hb
        by_cases hx : x = a
        · rw [if_pos hx, hb]; exact ChipMem.read_below m x c.1 h.2 (by omega)
        · rw [if_neg hx]
          conv_rhs => unfold ChipMem.read
          rw [if_neg (by omega)]
      · simp only [ChipMem.read]
        by_cases hx : x = a
        · simp [hx]
        · rw [if_neg (by omega), if_neg hx, if_neg (by omega)]
    · split
      · split
        · rename_i hlt hb
          by_cases hx : x = a
          · rw [if_pos hx, hb]
            unfold ChipMem.read
            rw [if_neg (by omega)]
            exact ChipMem.read_below m x c.1 h.2 (by omega)
          · rw [if_neg hx]
        · simp only [ChipMem.read]
          by_cases hx : x = a
          · simp [hx]
          · rw [if_neg (by omega), if_neg hx]
      · simp only [ChipMem.read]
        rw [ih _ h.2]
        by_cases hx : x = a
        · rw [if_neg (by omega), if_pos hx, if_pos hx]
        · rw [if_neg hx, if_neg hx]

/-- A read after a write: the byte written at its address, what was there before at every other. -/
theorem ChipMem.read_write (m : ChipMem) (a x : Nat) (b : Byte) (h : ChipMem.wf m = true) :
    ChipMem.read (ChipMem.write m a b) x = if x = a then b else ChipMem.read m x :=
  ChipMem.read_write_rising m a x b none h

/-- The store of a bus word keeps the canonical form. -/
theorem chipStore_wf (d : Decoded) (hybrid chip : Nibble) (mem : ChipMem) (h : ChipMem.wf mem = true) :
    ChipMem.wf (chipStore d hybrid chip mem) = true := by
  unfold chipStore
  split
  · exact ChipMem.write_wf _ _ _ h
  · exact h

end Sys2Proof.Machine
end

