-- ==== Sys2Proof/Laws/PerInstr.lean ====
section
/-! SUPPORT. Statements made per instruction. `TableFixedBits`: the word the encoder gives a well-formed instruction
has the bits spec/opcode_table.json fixes for its row. -/

namespace Sys2Proof.Laws

/-- A field of fixed bits `[hi:lo]` of an opcode-table row and its value. -/
structure FixedField where
  hi    : Nat
  lo    : Nat
  value : Nat
deriving DecidableEq, Repr

/-- The `fixed` fields of each instruction's row, copied from spec/opcode_table.json. -/
def tableFixed : Instr → List FixedField
  | .legWr _ _ _ _ _ => [⟨16, 16, 0⟩, ⟨19, 18, 0⟩, ⟨31, 28, 0⟩]
  | .legRd _ _ _ _ _ => [⟨16, 16, 1⟩, ⟨19, 18, 0⟩, ⟨31, 28, 0⟩]
  | .legRdb _ _ _ _ _ => [⟨16, 16, 1⟩, ⟨19, 18, 2⟩, ⟨31, 28, 0⟩]
  | .legBwr _ _ _ => [⟨16, 16, 0⟩, ⟨31, 18, 2048⟩]
  | .legBrd _ _ _ => [⟨16, 16, 1⟩, ⟨31, 18, 2048⟩]
  | .legBrdb _ _ _ => [⟨16, 16, 1⟩, ⟨31, 18, 2050⟩]
  | .idxWr _ _ _ _ => [⟨16, 16, 0⟩, ⟨19, 18, 0⟩, ⟨31, 28, 0⟩]
  | .idxWrv _ _ _ _ => [⟨16, 16, 0⟩, ⟨19, 18, 2⟩, ⟨31, 28, 0⟩]
  | .idxRd _ _ _ _ => [⟨16, 16, 1⟩, ⟨19, 18, 0⟩, ⟨31, 28, 0⟩]
  | .idxRdb _ _ _ _ => [⟨16, 16, 1⟩, ⟨19, 18, 2⟩, ⟨31, 28, 0⟩]
  | .idxBwr _ _ _ => [⟨16, 16, 0⟩, ⟨31, 18, 2048⟩]
  | .idxBwrv _ _ _ => [⟨16, 16, 0⟩, ⟨31, 18, 2050⟩]
  | .idxBrd _ _ _ => [⟨16, 16, 1⟩, ⟨31, 18, 2048⟩]
  | .idxBrdb _ _ _ => [⟨16, 16, 1⟩, ⟨31, 18, 2050⟩]
  | .optWr _ _ _ _ _ => [⟨16, 16, 0⟩, ⟨19, 18, 0⟩, ⟨31, 28, 0⟩]
  | .optWrv _ _ _ _ _ => [⟨16, 16, 0⟩, ⟨19, 18, 2⟩, ⟨31, 28, 0⟩]
  | .optRd _ _ _ _ _ => [⟨16, 16, 1⟩, ⟨19, 18, 0⟩, ⟨31, 28, 0⟩]
  | .optRdb _ _ _ _ _ => [⟨16, 16, 1⟩, ⟨19, 18, 2⟩, ⟨31, 28, 0⟩]
  | .optBwr _ _ _ => [⟨16, 16, 0⟩, ⟨31, 18, 2048⟩]
  | .optBwrv _ _ _ => [⟨16, 16, 0⟩, ⟨31, 18, 2050⟩]
  | .optBrd _ _ _ => [⟨16, 16, 1⟩, ⟨31, 18, 2048⟩]
  | .optBrdb _ _ _ => [⟨16, 16, 1⟩, ⟨31, 18, 2050⟩]
  | .sysReset => [⟨31, 0, 1⟩]
  | .txcConfigure => [⟨31, 0, 1⟩]
  | .txcFlush => [⟨31, 0, 2⟩]
  | .txcMapadd _ _ _ _ _ => [⟨7, 7, 0⟩, ⟨15, 10, 0⟩, ⟨31, 28, 0⟩]
  | .txcEnc _ _ _ _ _ _ _ _ => [⟨16, 16, 0⟩, ⟨19, 18, 0⟩, ⟨28, 28, 0⟩]
  | .txcDec _ => []
  | .txcPush _ => []
  | .txcPop => []
  | .lnkGetcfg _ _ _ => [⟨19, 0, 0⟩]
  | .lnkGetstat _ _ _ => [⟨19, 0, 65536⟩]
  | .lnkSetmode _ _ _ _ _ _ => [⟨11, 8, 0⟩, ⟨19, 14, 8⟩]
  | .lnkSetpat _ _ _ _ _ => [⟨19, 16, 3⟩]
  | .lnkDopa _ _ _ => [⟨19, 0, 262144⟩]
  | .lnkDowa _ _ _ => [⟨19, 0, 327680⟩]
  | .lnkCapture _ _ _ => [⟨19, 0, 393216⟩]
  | .lnkOptrst => [⟨31, 0, 1⟩]
  | .lnkOptsel _ => [⟨7, 0, 2⟩, ⟨31, 12, 0⟩]
  | .roeReset => [⟨31, 0, 1⟩]
  | .roeReadav => [⟨31, 0, 2⟩]
  | .roeReadn _ => [⟨3, 0, 3⟩]

/-- The value of a field of a word. -/
abbrev FixedField.agrees (f : FixedField) (w : Word) : Prop := w.toNat / 2 ^ f.lo % 2 ^ (f.hi + 1 - f.lo) = f.value

/-- The encoded word agrees with the fixed bits of the instruction's row. -/
def TableFixedBits.Statement (i : Instr) : Prop :=
  i.wellFormed = true → ∀ w, (encode i).word = some w → ∀ f ∈ tableFixed i, f.agrees w

theorem TableFixedBits.legWr (hybrid chip : Nibble) (page : BitVec 1) (addr value : Byte) : TableFixedBits.Statement (.legWr hybrid chip page addr value) := by
  intro _ w hw f hf
  cases hw
  simp only [tableFixed, List.mem_cons, List.not_mem_nil, or_false] at hf
  rcases hf with rfl | rfl | rfl <;> simp only [FixedField.agrees, twWord_toNat, BitVec.toNat_ofNat] <;> omega

theorem TableFixedBits.legRd (hybrid chip : Nibble) (page : BitVec 1) (addr value : Byte) : TableFixedBits.Statement (.legRd hybrid chip page addr value) := by
  intro _ w hw f hf
  cases hw
  simp only [tableFixed, List.mem_cons, List.not_mem_nil, or_false] at hf
  rcases hf with rfl | rfl | rfl <;> simp only [FixedField.agrees, twWord_toNat, BitVec.toNat_ofNat] <;> omega

theorem TableFixedBits.legRdb (hybrid chip : Nibble) (page : BitVec 1) (addr value : Byte) : TableFixedBits.Statement (.legRdb hybrid chip page addr value) := by
  intro _ w hw f hf
  cases hw
  simp only [tableFixed, List.mem_cons, List.not_mem_nil, or_false] at hf
  rcases hf with rfl | rfl | rfl <;> simp only [FixedField.agrees, twWord_toNat, BitVec.toNat_ofNat] <;> omega

theorem TableFixedBits.legBwr (page : BitVec 1) (addr value : Byte) : TableFixedBits.Statement (.legBwr page addr value) := by
  intro _ w hw f hf
  cases hw
  simp only [tableFixed, List.mem_cons, List.not_mem_nil, or_false] at hf
  rcases hf with rfl | rfl <;> simp only [FixedField.agrees, twWord_toNat, BitVec.toNat_ofNat] <;> omega

theorem TableFixedBits.legBrd (page : BitVec 1) (addr value : Byte) : TableFixedBits.Statement (.legBrd page addr value) := by
  intro _ w hw f hf
  cases hw
  simp only [tableFixed, List.mem_cons, List.not_mem_nil, or_false] at hf
  rcases hf with rfl | rfl <;> simp only [FixedField.agrees, twWord_toNat, BitVec.toNat_ofNat] <;> omega

theorem TableFixedBits.legBrdb (page : BitVec 1) (addr value : Byte) : TableFixedBits.Statement (.legBrdb page addr value) := by
  intro _ w hw f hf
  cases hw
  simp only [tableFixed, List.mem_cons, List.not_mem_nil, or_false] at hf
  rcases hf with rfl | rfl <;> simp only [FixedField.agrees, twWord_toNat, BitVec.toNat_ofNat] <;> omega

theorem TableFixedBits.idxWr (gidx : Byte) (page : BitVec 1) (addr value : Byte) : TableFixedBits.Statement (.idxWr gidx page addr value) := by
  intro _ w hw f hf
  cases hw
  simp only [tableFixed, List.mem_cons, List.not_mem_nil, or_false] at hf
  rcases hf with rfl | rfl | rfl <;> simp only [FixedField.agrees, twWord_toNat, BitVec.toNat_ofNat] <;> omega

theorem TableFixedBits.idxWrv (gidx : Byte) (page : BitVec 1) (addr value : Byte) : TableFixedBits.Statement (.idxWrv gidx page addr value) := by
  intro _ w hw f hf
  cases hw
  simp only [tableFixed, List.mem_cons, List.not_mem_nil, or_false] at hf
  rcases hf with rfl | rfl | rfl <;> simp only [FixedField.agrees, twWord_toNat, BitVec.toNat_ofNat] <;> omega

theorem TableFixedBits.idxRd (gidx : Byte) (page : BitVec 1) (addr value : Byte) : TableFixedBits.Statement (.idxRd gidx page addr value) := by
  intro _ w hw f hf
  cases hw
  simp only [tableFixed, List.mem_cons, List.not_mem_nil, or_false] at hf
  rcases hf with rfl | rfl | rfl <;> simp only [FixedField.agrees, twWord_toNat, BitVec.toNat_ofNat] <;> omega

theorem TableFixedBits.idxRdb (gidx : Byte) (page : BitVec 1) (addr value : Byte) : TableFixedBits.Statement (.idxRdb gidx page addr value) := by
  intro _ w hw f hf
  cases hw
  simp only [tableFixed, List.mem_cons, List.not_mem_nil, or_false] at hf
  rcases hf with rfl | rfl | rfl <;> simp only [FixedField.agrees, twWord_toNat, BitVec.toNat_ofNat] <;> omega

theorem TableFixedBits.idxBwr (page : BitVec 1) (addr value : Byte) : TableFixedBits.Statement (.idxBwr page addr value) := by
  intro _ w hw f hf
  cases hw
  simp only [tableFixed, List.mem_cons, List.not_mem_nil, or_false] at hf
  rcases hf with rfl | rfl <;> simp only [FixedField.agrees, twWord_toNat, BitVec.toNat_ofNat] <;> omega

theorem TableFixedBits.idxBwrv (page : BitVec 1) (addr value : Byte) : TableFixedBits.Statement (.idxBwrv page addr value) := by
  intro _ w hw f hf
  cases hw
  simp only [tableFixed, List.mem_cons, List.not_mem_nil, or_false] at hf
  rcases hf with rfl | rfl <;> simp only [FixedField.agrees, twWord_toNat, BitVec.toNat_ofNat] <;> omega

theorem TableFixedBits.idxBrd (page : BitVec 1) (addr value : Byte) : TableFixedBits.Statement (.idxBrd page addr value) := by
  intro _ w hw f hf
  cases hw
  simp only [tableFixed, List.mem_cons, List.not_mem_nil, or_false] at hf
  rcases hf with rfl | rfl <;> simp only [FixedField.agrees, twWord_toNat, BitVec.toNat_ofNat] <;> omega

theorem TableFixedBits.idxBrdb (page : BitVec 1) (addr value : Byte) : TableFixedBits.Statement (.idxBrdb page addr value) := by
  intro _ w hw f hf
  cases hw
  simp only [tableFixed, List.mem_cons, List.not_mem_nil, or_false] at hf
  rcases hf with rfl | rfl <;> simp only [FixedField.agrees, twWord_toNat, BitVec.toNat_ofNat] <;> omega

theorem TableFixedBits.optWr (link lidx : Nibble) (page : BitVec 1) (addr value : Byte) : TableFixedBits.Statement (.optWr link lidx page addr value) := by
  intro _ w hw f hf
  cases hw
  simp only [tableFixed, List.mem_cons, List.not_mem_nil, or_false] at hf
  rcases hf with rfl | rfl | rfl <;> simp only [FixedField.agrees, twWord_toNat, BitVec.toNat_ofNat] <;> omega

theorem TableFixedBits.optWrv (link lidx : Nibble) (page : BitVec 1) (addr value : Byte) : TableFixedBits.Statement (.optWrv link lidx page addr value) := by
  intro _ w hw f hf
  cases hw
  simp only [tableFixed, List.mem_cons, List.not_mem_nil, or_false] at hf
  rcases hf with rfl | rfl | rfl <;> simp only [FixedField.agrees, twWord_toNat, BitVec.toNat_ofNat] <;> omega

theorem TableFixedBits.optRd (link lidx : Nibble) (page : BitVec 1) (addr value : Byte) : TableFixedBits.Statement (.optRd link lidx page addr value) := by
  intro _ w hw f hf
  cases hw
  simp only [tableFixed, List.mem_cons, List.not_mem_nil, or_false] at hf
  rcases hf with rfl | rfl | rfl <;> simp only [FixedField.agrees, twWord_toNat, BitVec.toNat_ofNat] <;> omega

theorem TableFixedBits.optRdb (link lidx : Nibble) (page : BitVec 1) (addr value : Byte) : TableFixedBits.Statement (.optRdb link lidx page addr value) := by
  intro _ w hw f hf
  cases hw
  simp only [tableFixed, List.mem_cons, List.not_mem_nil, or_false] at hf
  rcases hf with rfl | rfl | rfl <;> simp only [FixedField.agrees, twWord_toNat, BitVec.toNat_ofNat] <;> omega

theorem TableFixedBits.optBwr (page : BitVec 1) (addr value : Byte) : TableFixedBits.Statement (.optBwr page addr value) := by
  intro _ w hw f hf
  cases hw
  simp only [tableFixed, List.mem_cons, List.not_mem_nil, or_false] at hf
  rcases hf with rfl | rfl <;> simp only [FixedField.agrees, twWord_toNat, BitVec.toNat_ofNat] <;> omega

theorem TableFixedBits.optBwrv (page : BitVec 1) (addr value : Byte) : TableFixedBits.Statement (.optBwrv page addr value) := by
  intro _ w hw f hf
  cases hw
  simp only [tableFixed, List.mem_cons, List.not_mem_nil, or_false] at hf
  rcases hf with rfl | rfl <;> simp only [FixedField.agrees, twWord_toNat, BitVec.toNat_ofNat] <;> omega

theorem TableFixedBits.optBrd (page : BitVec 1) (addr value : Byte) : TableFixedBits.Statement (.optBrd page addr value) := by
  intro _ w hw f hf
  cases hw
  simp only [tableFixed, List.mem_cons, List.not_mem_nil, or_false] at hf
  rcases hf with rfl | rfl <;> simp only [FixedField.agrees, twWord_toNat, BitVec.toNat_ofNat] <;> omega

theorem TableFixedBits.optBrdb (page : BitVec 1) (addr value : Byte) : TableFixedBits.Statement (.optBrdb page addr value) := by
  intro _ w hw f hf
  cases hw
  simp only [tableFixed, List.mem_cons, List.not_mem_nil, or_false] at hf
  rcases hf with rfl | rfl <;> simp only [FixedField.agrees, twWord_toNat, BitVec.toNat_ofNat] <;> omega

theorem TableFixedBits.sysReset : TableFixedBits.Statement .sysReset := by
  intro _ w hw f hf
  cases hw
  simp only [tableFixed, List.mem_cons, List.not_mem_nil, or_false] at hf
  subst hf
  decide

theorem TableFixedBits.txcConfigure : TableFixedBits.Statement .txcConfigure := by
  intro _ w hw f hf
  cases hw
  simp only [tableFixed, List.mem_cons, List.not_mem_nil, or_false] at hf
  subst hf
  decide

theorem TableFixedBits.txcFlush : TableFixedBits.Statement .txcFlush := by
  intro _ w hw f hf
  cases hw
  simp only [tableFixed, List.mem_cons, List.not_mem_nil, or_false] at hf
  subst hf
  decide

theorem TableFixedBits.txcMapadd (link hybrid chip : Nibble) (bw : BitVec 2) (busAddr : BitVec 7) : TableFixedBits.Statement (.txcMapadd link hybrid chip bw busAddr) := by
  intro _ w hw f hf
  cases hw
  simp only [tableFixed, List.mem_cons, List.not_mem_nil, or_false] at hf
  rcases hf with rfl | rfl | rfl <;> simp only [FixedField.agrees, cmWord_toNat] <;> omega

theorem TableFixedBits.txcEnc (bcast write readback : BitVec 1) (hybrid chip : Nibble) (page : BitVec 1) (addr value : Byte) : TableFixedBits.Statement (.txcEnc bcast write readback hybrid chip page addr value) := by
  intro _ w hw f hf
  cases hw
  simp only [tableFixed, List.mem_cons, List.not_mem_nil, or_false] at hf
  rcases hf with rfl | rfl | rfl <;> simp only [FixedField.agrees, ceWord_toNat] <;> omega

theorem TableFixedBits.txcDec (word : Word) : TableFixedBits.Statement (.txcDec word) := by
  intro _ w _ f hf; exact absurd hf (List.not_mem_nil)

theorem TableFixedBits.txcPush (word : Word) : TableFixedBits.Statement (.txcPush word) := by
  intro _ w _ f hf; exact absurd hf (List.not_mem_nil)

theorem TableFixedBits.txcPop : TableFixedBits.Statement .txcPop := by
  intro _ w _ f hf; exact absurd hf (List.not_mem_nil)

theorem TableFixedBits.lnkGetcfg (hybrid chip line : Nibble) : TableFixedBits.Statement (.lnkGetcfg hybrid chip line) := by
  intro _ w hw f hf
  cases hw
  simp only [tableFixed, List.mem_cons, List.not_mem_nil, or_false] at hf
  subst hf
  simp only [FixedField.agrees, ltWord_toNat, BitVec.toNat_ofNat]
  omega

theorem TableFixedBits.lnkGetstat (hybrid chip line : Nibble) : TableFixedBits.Statement (.lnkGetstat hybrid chip line) := by
  intro _ w hw f hf
  cases hw
  simp only [tableFixed, List.mem_cons, List.not_mem_nil, or_false] at hf
  subst hf
  simp only [FixedField.agrees, ltWord_toNat, BitVec.toNat_ofNat]
  omega

theorem TableFixedBits.lnkSetmode (hybrid chip line : Nibble) (mode : BitVec 2) (delay : BitVec 5) (bitslip : BitVec 3) : TableFixedBits.Statement (.lnkSetmode hybrid chip line mode delay bitslip) := by
  intro _ w hw f hf
  cases hw
  simp only [tableFixed, List.mem_cons, List.not_mem_nil, or_false] at hf
  rcases hf with rfl | rfl <;> simp only [FixedField.agrees, ltWord_toNat, setmodePayload_toNat, BitVec.toNat_ofNat] <;> omega

theorem TableFixedBits.lnkSetpat (hybrid chip line : Nibble) (plen pat : Byte) : TableFixedBits.Statement (.lnkSetpat hybrid chip line plen pat) := by
  intro _ w hw f hf
  cases hw
  simp only [tableFixed, List.mem_cons, List.not_mem_nil, or_false] at hf
  subst hf
  simp only [FixedField.agrees, ltWord_toNat, setpatPayload_toNat, BitVec.toNat_ofNat]
  omega

theorem TableFixedBits.lnkDopa (hybrid chip line : Nibble) : TableFixedBits.Statement (.lnkDopa hybrid chip line) := by
  intro _ w hw f hf
  cases hw
  simp only [tableFixed, List.mem_cons, List.not_mem_nil, or_false] at hf
  subst hf
  simp only [FixedField.agrees, ltWord_toNat, BitVec.toNat_ofNat]
  omega

theorem TableFixedBits.lnkDowa (hybrid chip line : Nibble) : TableFixedBits.Statement (.lnkDowa hybrid chip line) := by
  intro _ w hw f hf
  cases hw
  simp only [tableFixed, List.mem_cons, List.not_mem_nil, or_false] at hf
  subst hf
  simp only [FixedField.agrees, ltWord_toNat, BitVec.toNat_ofNat]
  omega

theorem TableFixedBits.lnkCapture (hybrid chip line : Nibble) : TableFixedBits.Statement (.lnkCapture hybrid chip line) := by
  intro _ w hw f hf
  cases hw
  simp only [tableFixed, List.mem_cons, List.not_mem_nil, or_false] at hf
  subst hf
  simp only [FixedField.agrees, ltWord_toNat, BitVec.toNat_ofNat]
  omega

theorem TableFixedBits.lnkOptrst : TableFixedBits.Statement .lnkOptrst := by
  intro _ w hw f hf
  cases hw
  simp only [tableFixed, List.mem_cons, List.not_mem_nil, or_false] at hf
  subst hf
  decide

theorem TableFixedBits.lnkOptsel (link : Nibble) : TableFixedBits.Statement (.lnkOptsel link) := by
  intro _ w hw f hf
  cases hw
  simp only [tableFixed, List.mem_cons, List.not_mem_nil, or_false] at hf
  rcases hf with rfl | rfl <;> simp only [FixedField.agrees, loWord_toNat, BitVec.toNat_ofNat] <;> omega

theorem TableFixedBits.roeReset : TableFixedBits.Statement .roeReset := by
  intro _ w hw f hf
  cases hw
  simp only [tableFixed, List.mem_cons, List.not_mem_nil, or_false] at hf
  subst hf
  decide

theorem TableFixedBits.roeReadav : TableFixedBits.Statement .roeReadav := by
  intro _ w hw f hf
  cases hw
  simp only [tableFixed, List.mem_cons, List.not_mem_nil, or_false] at hf
  subst hf
  decide

theorem TableFixedBits.roeReadn (n : BitVec 28) : TableFixedBits.Statement (.roeReadn n) := by
  intro _ w hw f hf
  cases hw
  simp only [tableFixed, List.mem_cons, List.not_mem_nil, or_false] at hf
  subst hf
  simp only [FixedField.agrees, rcWord_toNat, BitVec.toNat_ofNat]
  omega

end Sys2Proof.Laws
end

