-- ==== Sys2Proof/Tests/Slice0.lean ====
section
/-! SUPPORT. Tests: the ill-formed terms the checks refuse, every constructor's decoding from a word written out from
30_encoding.md, single steps with the results 95_test_vectors.md gives (its ids in the comments), and a witness for
every statement that has hypotheses. No test rests on a value of an oracle. -/

namespace Sys2Proof.Tests

open Sys2Proof.Machine

/-! ## Small states -/

/-- Parameters small enough to reach every bound. -/
def params (ver : Word) : Params where
  busProtoVer := ver
  nSlaves := 4
  nCapWords := 1
  cmdFifoDepth := 2
  replyFifoDepth := 2
  roOutDepth := 65536
  ddr3RingWords := 2 ^ 32
  maxRecoveryReset := 3#8

def lineA : LineId := ⟨1#4, 2#4, 0#4⟩
def lineB : LineId := ⟨1#4, 2#4, 1#4⟩

/-- After power-on: two lines, two links. -/
def start (ver : Word) : State := State.powerOn (params ver) [lineA, lineB] 2

/-- The four entries of the common start of 95_test_vectors.md 2.1. -/
def table : List MapEntry :=
  [⟨0#4, 0#4, 0#4, 0x41#7, 1#2⟩, ⟨0#4, 0#4, 1#4, 0x42#7, 1#2⟩, ⟨1#4, 2#4, 3#4, 0x43#7, 1#2⟩,
   ⟨1#4, 2#4, 5#4, 0x44#7, 2#2⟩]

/-- The common start of 2.1 under a variant. -/
def configured (v : Variant) : State :=
  { start 0#32 with codec := { Codec.initial 0 with variant := v, configured := true, map := table } }

/-- The common start with both queues full (LEG). -/
def queued : State :=
  { configured .leg with
    codec := { (configured .leg).codec with
      mapLocked := true, cmdq := [0x02304FA5#32, 0x02394F00#32], replyq := [0x02394FA5#32, 0#32] } }

/-- Line A holding a record, line B fresh. -/
def onRecord (t : LineTuning) : State :=
  { start 0#32 with link := { (start 0#32).link with
      lines :=
        [{ id := lineA, tuning := t, paSeq := 0, waSeq := 0, capSeq := 0 },
         { id := lineB, tuning := LineTuning.initial, paSeq := 0, waSeq := 0, capSeq := 0 }] } }

/-- PatternInject with pattern 0xAA of 8 bits, phase and word sub-states as given (after K1 and K2). -/
def pattern (pa wa : SubState) (delay : BitVec 5) (done : Bool) : LineTuning :=
  { LineTuning.initial with
    mode := .patternInject, pat := 0xAA#8, plen := 8#8, patValid := true, paState := pa, waState := wa
    delay := delay, done := done }

/-- Unit R after reset. -/
def engine0 : Readout := Readout.initial (params 0#32) 0 0

/-- A block whose unit R is as given. -/
def reading (r : Readout) : State := { start 0#32 with readout := r }

/-- A request just accepted in unit R's state `st`. -/
def requested (st : RoState) : Readout := { engine0 with state := st }

/-- One field of the next state, none when the step stops. -/
def after {α : Type} (o : Host.Outcome State Fault Refusal) (f : State → α) : Option α :=
  match o with
  | .next s => some (f s)
  | .fault _ => none
  | .refused _ => none

/-! ## WellFormed: each check refuses an ill-formed term (R132, R134, R136) -/

theorem test_wf_bw0 : Instr.wellFormed (.txcMapadd 1#4 2#4 3#4 0#2 0x43#7) = false := by decide
theorem test_wf_bw3 : Instr.wellFormed (.txcMapadd 1#4 2#4 3#4 3#2 0x43#7) = false := by decide
theorem test_wf_mode3 : Instr.wellFormed (.lnkSetmode 1#4 2#4 0#4 3#2 0#5 0#3) = false := by decide
theorem test_wf_plen0 : Instr.wellFormed (.lnkSetpat 1#4 2#4 0#4 0#8 0xAA#8) = false := by decide
theorem test_wf_n0 : Instr.wellFormed (.roeReadn 0#28) = false := by decide

/-! ## Decoding: words written out from R112 to R119 and R131 to R141 -/

-- op 0, hybrid 2, chip 3, then rb fail page rd, then addr 0x4F, value 0xA5
theorem test_dec_leg_wr : decode (.dispatch .leg 0b00000010001100000100111110100101#32) =
    .ok (.legWr 2#4 3#4 0#1 0x4F#8 0xA5#8) := by decide
theorem test_dec_leg_rd : decode (.dispatch .leg 0b00000010001100010100111100000000#32) =
    .ok (.legRd 2#4 3#4 0#1 0x4F#8 0#8) := by decide
theorem test_dec_leg_rdb : decode (.dispatch .leg 0b00000010001110010100111100000000#32) =
    .ok (.legRdb 2#4 3#4 0#1 0x4F#8 0#8) := by decide
theorem test_dec_leg_bwr : decode (.dispatch .leg 0b00100000000000100010000001111110#32) =
    .ok (.legBwr 1#1 0x20#8 0x7E#8) := by decide
theorem test_dec_leg_brd : decode (.dispatch .leg 0b00100000000000010011001100000000#32) =
    .ok (.legBrd 0#1 0x33#8 0#8) := by decide
theorem test_dec_leg_brdb : decode (.dispatch .leg 0b00100000000010110010000000000000#32) =
    .ok (.legBrdb 1#1 0x20#8 0#8) := by decide
-- op 0, gidx 2
theorem test_dec_idx_wr : decode (.dispatch .idx 0b00000000001000000100111110100101#32) =
    .ok (.idxWr 2#8 0#1 0x4F#8 0xA5#8) := by decide
theorem test_dec_idx_wrv : decode (.dispatch .idx 0b00000000001010000100111110100101#32) =
    .ok (.idxWrv 2#8 0#1 0x4F#8 0xA5#8) := by decide
theorem test_dec_idx_rd : decode (.dispatch .idx 0b00000000001000110001000000000000#32) =
    .ok (.idxRd 2#8 1#1 0x10#8 0#8) := by decide
theorem test_dec_idx_rdb : decode (.dispatch .idx 0b00000000001110010000000000000000#32) =
    .ok (.idxRdb 3#8 0#1 0#8 0#8) := by decide
theorem test_dec_idx_bwr : decode (.dispatch .idx 0x2002207E#32) = .ok (.idxBwr 1#1 0x20#8 0x7E#8) := by decide
theorem test_dec_idx_bwrv : decode (.dispatch .idx 0x200A207E#32) = .ok (.idxBwrv 1#1 0x20#8 0x7E#8) := by decide
theorem test_dec_idx_brd : decode (.dispatch .idx 0x20013300#32) = .ok (.idxBrd 0#1 0x33#8 0#8) := by decide
theorem test_dec_idx_brdb : decode (.dispatch .idx 0x20093300#32) = .ok (.idxBrdb 0#1 0x33#8 0#8) := by decide
-- op 0, link 1, lidx 0
theorem test_dec_opt_wr : decode (.dispatch .opt 0b00000001000000000100111110100101#32) =
    .ok (.optWr 1#4 0#4 0#1 0x4F#8 0xA5#8) := by decide
theorem test_dec_opt_wrv : decode (.dispatch .opt 0b00000001000010000100111110100101#32) =
    .ok (.optWrv 1#4 0#4 0#1 0x4F#8 0xA5#8) := by decide
theorem test_dec_opt_rd : decode (.dispatch .opt 0b00000001000000110001000000000000#32) =
    .ok (.optRd 1#4 0#4 1#1 0x10#8 0#8) := by decide
theorem test_dec_opt_rdb : decode (.dispatch .opt 0b00000001000110010000000000000000#32) =
    .ok (.optRdb 1#4 1#4 0#1 0#8 0#8) := by decide
theorem test_dec_opt_bwr : decode (.dispatch .opt 0x2002207E#32) = .ok (.optBwr 1#1 0x20#8 0x7E#8) := by decide
theorem test_dec_opt_bwrv : decode (.dispatch .opt 0x200A207E#32) = .ok (.optBwrv 1#1 0x20#8 0x7E#8) := by decide
theorem test_dec_opt_brd : decode (.dispatch .opt 0x20013300#32) = .ok (.optBrd 0#1 0x33#8 0#8) := by decide
theorem test_dec_opt_brdb : decode (.dispatch .opt 0x20093300#32) = .ok (.optBrdb 0#1 0x33#8 0#8) := by decide
-- what R117 refuses, by its check's name
theorem test_dec_reserved : decode (.dispatch .idx 0x10004FA5#32) = .error .reservedOpcode := by decide
theorem test_dec_fail : decode (.dispatch .idx 0x00044FA5#32) = .error .failBitSet := by decide
theorem test_dec_leg_wrv : decode (.dispatch .leg 0x02384FA5#32) = .error .legacyWriteReadback := by decide
theorem test_dec_bcast_sel : decode (.dispatch .opt 0x20100000#32) = .error .broadcastSelector := by decide
-- the commands
theorem test_dec_sys_reset : decode (.write .ctrlReset 0x00000001#32) = .ok .sysReset := by decide
theorem test_dec_configure : decode (.write .codecCtrl 0x00000001#32) = .ok .txcConfigure := by decide
theorem test_dec_flush : decode (.write .codecCtrl 0x00000002#32) = .ok .txcFlush := by decide
-- 0000 link 1, hybrid 2, chip 3, 000000 bw 1, 0 bus_addr 0x43
theorem test_dec_mapadd : decode (.write .mapAdd 0b00000001001000110000000101000011#32) =
    .ok (.txcMapadd 1#4 2#4 3#4 1#2 0x43#7) := by decide
-- bcast 0, write 1, readback 1, 0, hybrid 2, chip 3, 00, page 0, 0, addr, value
theorem test_dec_enc : decode (.write .encReq 0b01100010001100000100111110100101#32) =
    .ok (.txcEnc 0#1 1#1 1#1 2#4 3#4 0#1 0x4F#8 0xA5#8) := by decide
theorem test_dec_dec : decode (.write .decIn 0xFFFFFFFF#32) = .ok (.txcDec 0xFFFFFFFF#32) := by decide
theorem test_dec_push : decode (.write .cmdFifo 0x10000000#32) = .ok (.txcPush 0x10000000#32) := by decide
theorem test_dec_pop : decode (.read .replyFifo) = .ok .txcPop := by decide
-- hybrid 1, chip 2, line 0, ctype, payload
theorem test_dec_getcfg : decode (.write .tuningCtrl 0x12000000#32) = .ok (.lnkGetcfg 1#4 2#4 0#4) := by decide
theorem test_dec_getstat : decode (.write .tuningCtrl 0x12010000#32) = .ok (.lnkGetstat 1#4 2#4 0#4) := by decide
-- 0001 0010 0001 0010 | 00 mode 10 | 0000 | delay 01101 | bitslip 101
theorem test_dec_setmode : decode (.write .tuningCtrl 0b00010010000100100010000001101101#32) =
    .ok (.lnkSetmode 1#4 2#4 1#4 2#2 13#5 5#3) := by decide
theorem test_dec_setpat : decode (.write .tuningCtrl 0b00010010000000110000100010101010#32) =
    .ok (.lnkSetpat 1#4 2#4 0#4 8#8 0xAA#8) := by decide
theorem test_dec_dopa : decode (.write .tuningCtrl 0x12040000#32) = .ok (.lnkDopa 1#4 2#4 0#4) := by decide
theorem test_dec_dowa : decode (.write .tuningCtrl 0x12050000#32) = .ok (.lnkDowa 1#4 2#4 0#4) := by decide
theorem test_dec_capture : decode (.write .tuningCtrl 0x12160000#32) = .ok (.lnkCapture 1#4 2#4 1#4) := by decide
theorem test_dec_optrst : decode (.write .opticalCtrl 0x00000001#32) = .ok .lnkOptrst := by decide
theorem test_dec_optsel : decode (.write .opticalCtrl 0x00000302#32) = .ok (.lnkOptsel 3#4) := by decide
theorem test_dec_ro_reset : decode (.write .roCtrl 0x00000001#32) = .ok .roeReset := by decide
theorem test_dec_readav : decode (.write .roCtrl 0x00000002#32) = .ok .roeReadav := by decide
theorem test_dec_readn : decode (.write .roCtrl 0xFFFFFFF3#32) = .ok (.roeReadn 0xFFFFFFF#28) := by decide
-- T10, E2, K12, K13, K14, K15, O5, O6, Q17: refused words
theorem test_dec_refused :
    decode (.write .encReq 0x52304FA5#32) = .error .illegalCommand
      ∧ decode (.write .mapAdd 0x00000041#32) = .error .illegalCommand
      ∧ decode (.write .tuningCtrl 0x120300AA#32) = .error .illegalCommand
      ∧ decode (.write .tuningCtrl 0x12023000#32) = .error .illegalCommand
      ∧ decode (.write .tuningCtrl 0x12070000#32) = .error .illegalCommand
      ∧ decode (.write .tuningCtrl 0x12010001#32) = .error .illegalCommand
      ∧ decode (.write .opticalCtrl 0x00000101#32) = .error .illegalCommand
      ∧ decode (.write .opticalCtrl 0x00000012#32) = .error .illegalCommand
      ∧ decode (.write .roCtrl 0x00000003#32) = .error .illegalCommand
      ∧ decode (.write .roCtrl 0x00000012#32) = .error .illegalCommand := by decide
-- a bare table word: the exact command ports first (notes/assumptions/3.md)
theorem test_table_word : decodeTableWord 32 0x00000023 = some (.roeReadn 2#28)
    ∧ decodeTableWord 0 0 = some .txcPop ∧ decodeTableWord 32 0x200A0000 = some (.idxBwrv 1#1 0#8 0#8) := by decide
theorem test_fetch_word :
    after (step ((start 0#32).withFetchWord 32 0x00000023)) (fun s => (s.readout.state, s.readout.reqN)) =
      some (.waitingForWords, 2#28) := by decide

/-! ## Single steps -/

-- R371: SYS.RESET of a busy block; R161's example; E7
theorem test_sys_reset :
    after (runEvent (.wr .ctrlReset 1#32) { reading (requested .waitingForWords) with error := 0x9#32 })
      (fun s => (s.error, s.readout.state, readReg .roCnfg 0 s)) = some (0#32, .idle, 0x00000300#32) := by decide
theorem test_configure :
    after (runEvent (.wr .codecCtrl 1#32) (start 1#32)) (readReg .codecStat 0) = some 0x00000005#32 := by decide
theorem test_configure_bad :
    after (runEvent (.wr .codecCtrl 1#32) { configured .leg with params := params 3#32 })
      (fun s => (s.error, readReg .codecStat 0 s)) = some (0x00000002#32, 0x00000000#32) := by decide
theorem test_flush :
    after (runEvent (.wr .codecCtrl 2#32) queued) (readReg .fifoStat 0) = some 0#32 := by decide
-- R163's example, E3
theorem test_mapadd :
    after (runEvent (.wr .mapAdd 0x01230143#32)
        { start 0#32 with codec := { Codec.initial 0 with configured := true } }) (readReg .mapRd 0) =
      some 0x81230143#32 := by decide
theorem test_mapadd_dup :
    after (runEvent (.wr .mapAdd 0x00230150#32) (configured .leg)) (fun s => (s.error, s.codec.map.length)) =
      some (0x00000040#32, 4) := by decide
-- 2.1: map_rd of entry 3
theorem test_map_rd :
    after (runEvent (.wr .mapSel 3#32) (configured .opt)) (readReg .mapRd 0) = some 0x81251244#32 := by decide
-- T2 under the three variants, T6 under LEG, T9
theorem test_enc_leg :
    after (runEvent (.wr .encReq 0x62304FA5#32) (configured .leg))
      (fun s => (s.codec.encCount, s.codec.encWord0, s.codec.encWord1)) =
      some (2#2, 0x02304FA5#32, 0x02394F00#32) := by decide
theorem test_enc_opt :
    after (runEvent (.wr .encReq 0x62304FA5#32) (configured .opt))
      (fun s => (s.codec.encCount, s.codec.encWord0, s.codec.encWord1)) = some (1#2, 0x01084FA5#32, 0#32) := by decide
-- D5 and D8
theorem test_dec_opt_miss :
    after (runEvent (.wr .decIn 0x01284FA5#32) (configured .opt)) (readReg .decOut 0) = some 0xA0004FA5#32 := by decide
theorem test_dec_leg_unlisted :
    after (runEvent (.wr .decIn 0x07704FA5#32) (configured .leg)) (readReg .decOut 0) = some 0x07704FA5#32 := by decide
-- E13, E16 at the small depth
theorem test_push_miss :
    after (runEvent (.wr .cmdFifo 0x00404FA5#32) (configured .idx)) (fun s => (s.error, s.codec.cmdq)) =
      some (0x00000008#32, []) := by decide
theorem test_push_full :
    after (runEvent (.wr .cmdFifo 0x20000000#32) queued) (fun s => (s.error, s.codec.cmdq.length)) =
      some (0x00000080#32, 2) := by decide
-- R175, E15
theorem test_pop : after (runEvent (.rd .replyFifo 0) queued) (fun s => (s.rdata, s.codec.replyq.length)) =
    some (0x02394FA5#32, 1) := by decide
theorem test_pop_empty : after (runEvent (.rd .replyFifo 0) (start 0#32)) (fun s => (s.rdata, s.error)) =
    some (0#32, 0x00000100#32) := by decide
-- B1 without the replies, B2's and B3's replies on the ideal bus, a reply too many
theorem test_bus_word :
    after (runEvent (.agent .bus) queued) (fun s => (s.trace, s.codec.cmdq)) =
      some ([.cmdBus 0x02304FA5#32], [0x02394F00#32]) := by decide
theorem test_ideal_bus :
    (idealBus .leg table [] 0x02304FA5#32).2 = []
      ∧ (idealBus .leg table (idealBus .leg table [] 0x02304FA5#32).1 0x02394F00#32).2 = [0x02394FA5#32]
      ∧ (idealBus .leg table [] 0x20013300#32).2 =
          [0x00013300#32, 0x00113300#32, 0x02313300#32, 0x02513300#32] := by decide
theorem test_reply_overflow :
    (dispatchWith 0x20013300#32 [1#32, 2#32, 3#32] (configured .leg)).codec.replyq = [1#32, 2#32]
      ∧ (dispatchWith 0x20013300#32 [1#32, 2#32, 3#32] (configured .leg)).error = 0x00000080#32 := by decide
-- K1 to K5, K7, K19, K10, K16, K18
theorem test_setmode_pattern :
    after (runEvent (.wr .tuningCtrl 0x12021000#32) (start 0#32))
      (fun s => (findLine lineA s.link.lines).map fun e => e.tuning.statReply) = some (some 0x11000000#32) := by decide
theorem test_setmode_idle :
    after (runEvent (.wr .tuningCtrl 0x12020000#32) (onRecord (pattern .running .idle 0#5 false)))
      (fun s => (findLine lineA s.link.lines).map fun e => (e.tuning.statReply, e.tuning.cfgReply)) =
      some (some (0x10000000#32, 0x000008AA#32)) := by decide
theorem test_setpat :
    after (runEvent (.wr .tuningCtrl 0x120308AA#32)
        (onRecord { LineTuning.initial with mode := .patternInject }))
      (fun s => (findLine lineA s.link.lines).map fun e => e.tuning.cfgReply) = some (some 0x010108AA#32) := by decide
theorem test_getcfg :
    after (runEvent (.wr .tuningCtrl 0x12000000#32) (onRecord (pattern .idle .idle 0#5 false)))
      (readReg .tuningReply 0) = some 0x010108AA#32 := by decide
theorem test_getstat :
    after (runEvent (.wr .tuningCtrl 0x12010000#32) (onRecord (pattern .tuned .idle 13#5 true)))
      (readReg .tuningReply 0) = some 0x11688002#32 := by decide
theorem test_badline :
    after (runEvent (.wr .tuningCtrl 0x13010000#32) (start 0#32)) (fun s => (s.error, s.link.tuningReply)) =
      some (0x00000400#32, 0#32) := by decide
theorem test_dopa :
    after (runEvent (.wr .tuningCtrl 0x12040000#32) (onRecord (pattern .idle .idle 0#5 false)))
      (fun s => (findLine lineA s.link.lines).map fun e => e.tuning.statReply) = some (some 0x11000001#32) := by decide
theorem test_dopa_order :
    after (runEvent (.wr .tuningCtrl 0x12040000#32) (start 0#32)) (fun s => s.error) = some 0x00001000#32 := by decide
theorem test_dowa :
    after (runEvent (.wr .tuningCtrl 0x12050000#32) (onRecord (pattern .tuned .idle 13#5 true)))
      (fun s => (findLine lineA s.link.lines).map fun e => e.tuning.statReply) = some (some 0x11680102#32) := by decide
theorem test_capture_busy :
    after (runEvent (.wr .tuningCtrl 0x12060000#32) (onRecord (pattern .running .idle 0#5 false))) (fun s => s.error) =
      some 0x00000800#32 := by decide
theorem test_capture_counts :
    after (runEvent (.wr .tuningCtrl 0x12060000#32) (start 0#32))
      (fun s => ((findLine lineA s.link.lines).map fun e => e.capSeq, s.link.debugWords.length)) =
      some (some 1, 1) := by decide
-- K4 and K6: what the agent's outcome does to the record
theorem test_phase_result :
    ((pattern .running .idle 0#5 false).phaseResult (some 13#5)).statReply = 0x11688002#32 := by decide
theorem test_word_failed :
    ((pattern .tuned .running 13#5 false).wordResult none).statReply = 0x11680302#32 := by decide
-- R211
theorem test_match : matchesPattern [0xAAAAAAAA#32] 0xAA#8 = true ∧ matchesPattern [0xAAAAAA55#32] 0xAA#8 = false
    ∧ matchesPattern [0x55555555#32] 0xAA#8 = false ∧ matchesPattern [0#32] 0xAA#8 = false := by decide
-- R218, O1, O4
theorem test_optrst :
    after (runEvent (.wr .opticalCtrl 1#32)
        { start 0#32 with link := { (start 0#32).link with
            links := [⟨⟨true, true, true⟩, 0⟩, ⟨⟨true, true, true⟩, 0⟩] } })
      (fun s => (s.trace, s.link.links.map fun k => OptStatus.bits k.status)) =
      some ([.coreReset], [0#3, 0#3]) := by decide
theorem test_optsel :
    after (runEvent (.wr .opticalCtrl 0x00000102#32)
        { start 0#32 with link := { (start 0#32).link with links := [⟨linkDown, 0⟩, ⟨⟨true, true, true⟩, 0⟩] } })
      (readReg .opticalStat 0) = some 0x00000107#32 := by decide
theorem test_optsel_bad :
    after (runEvent (.wr .opticalCtrl 0x00000202#32) (start 0#32)) (fun s => (s.error, s.link.optSel)) =
      some (0x00000400#32, 0#4) := by decide
-- Q19, R244, R245 with Q16 and Q6
theorem test_ro_reset :
    after (runEvent (.wr .roCtrl 1#32) (reading (requested .waitingForWords)))
      (fun s => (readReg .roStat 0 s, s.trace)) = some (0#32, [.bufReset]) := by decide
theorem test_readav :
    after (runEvent (.wr .roCtrl 2#32) (start 0#32)) (readReg .roStat 0) = some 0x00010001#32 := by decide
theorem test_readav_busy :
    after (runEvent (.wr .roCtrl 2#32) (reading (requested .waitingForWords))) (fun s => s.error) =
      some 0x00002000#32 := by decide
theorem test_readn_too_many :
    after (runEvent (.wr .roCtrl 0x00000413#32) (reading { engine0 with evsizeCnfg := 0x00000400#32 }))
      (fun s => (s.error, readReg .roStat 0 s)) = some (0x00020000#32, 0#32) := by decide
theorem test_readn :
    after (runEvent (.wr .roCtrl 0x00000023#32) (reading { engine0 with evsizeCnfg := 0x00040006#32 }))
      (fun s => (s.readout.state, s.readout.targetWords)) = some (.waitingForWords, 16) := by decide
-- Q19: a configuration write while busy
theorem test_cnfg_busy :
    after (runEvent (.wr .roCnfg 1#32) (reading (requested .waitingForWords)))
      (fun s => (s.error, s.readout.cnfg)) = some (0x00002000#32, 0x00000300#32) := by decide
-- Q1's derived values, Q2's last poll, Q3's forced poll, Q20's poll
theorem test_derived :
    ({ engine0 with evsizeCnfg := 0x00040006#32, trigCnfg := 0x0100000A#32 } : Readout).evSize = 8
      ∧ ({ engine0 with trigCnfg := 0x0100000A#32 } : Readout).targetTrig = 20 := by decide
theorem test_poll_req :
    (({ requested .waitingForWords with cnfg := 0x301#32, polls := 2#32, timeoutPolls := 10#32 } : Readout).poll
      ⟨12#32, true, 10#32⟩).stat = 0x00030002#32 := by decide
theorem test_poll_forced :
    (({ requested .waitingForWords with
        cnfg := 0x301#32, polls := 5#32, noprog := 4#8, lastTrig := 20#32, timeoutPolls := 100#32
        trigCnfg := 0x0100000A#32 } : Readout).poll ⟨12#32, false, 20#32⟩).state = .handshake := by decide
-- Q4, Q7, Q9, Q10, Q12: carving
theorem test_carve :
    ({ requested .directRead with
        out := [0x00010001#32, 0x11#32, 0x12#32, 0x13#32, 0xABCD0002#32, 1#32, 2#32, 3#32, 4#32, 5#32, 6#32, 7#32]
      } : Readout).carve.1.frameOffs = [0#32, 4#32] := by decide
theorem test_carve_bad :
    ({ requested .directRead with
        out := [0x00010001#32, 1#32, 2#32, 3#32, 0xFFFF0000#32, 5#32, 6#32, 7#32] } : Readout).carve.1.stat =
      0x00000039#32 := by decide
theorem test_carve_count :
    ({ requested .directRead with kind := .n, reqN := 1#28 } : Readout).carve =
      ({ requested .directRead with kind := .n, reqN := 1#28, result := .countMismatch, state := .error },
        some .roCount) := by decide
-- Q5, Q14: the stall at the cap, the cursor after a readout request
theorem test_stall :
    after (runEvent (.agent .engine) (reading { requested .stalled with cnfg := 0x1#32 }))
      (fun s => (readReg .roStat 0 s, s.error)) = some (0x00000029#32, 0x00004000#32) := by decide
theorem test_cursor :
    ({ engine0 with cnfg := 0x303#32, cursor := 12#32, sawReq := true } : Readout).cursorAfter (2 ^ 32) 8 = 0#32
      ∧ ({ engine0 with cnfg := 0x302#32 } : Readout).cursorAfter (2 ^ 32) 12 = 12#32 := by decide
-- R297: the default comparison of a reply with its request
theorem test_default_eq : defaultEq 0x02304FA5#32 0x02394FA5#32 = true ∧ defaultEq 0x00284FA5#32 0x00284FA4#32 = false
    ∧ defaultEq 0x00284FA5#32 0x002C4FA5#32 = false ∧ defaultEq 0x00284FA5#32 0x00384FA5#32 = false := by decide

/-! ## Sound states: what the invariants ask for is met -/

theorem configured_sound (v : Variant) : CodecSound (configured v) where
  tableFits := by cases v <;> decide
  keysUnique := show table.Pairwise _ by decide
  widthsLegal := show ∀ e ∈ table, bwOk e.bw = true by decide
  linksFit := fun _ _ => Nat.le_trans List.countP_le_length (show table.length ≤ 16 by decide)
  unconfiguredEmpty := fun h => absurd h (show ¬ true = false by decide)
  queuedAfterLock := fun _ => rfl
  queuedLegal := fun _ h => absurd h List.not_mem_nil
  commandsFit := Nat.zero_le _
  repliesFit := Nat.zero_le _
  resultCount := show (0#2 : BitVec 2) ≠ 3#2 by decide

theorem queued_sound (es : List Event) : CodecSound { queued with script := es } where
  tableFits := show table.length ≤ 4 by decide
  keysUnique := (configured_sound .leg).keysUnique
  widthsLegal := (configured_sound .leg).widthsLegal
  linksFit := fun h => absurd h (show ¬ Variant.leg = .opt by decide)
  unconfiguredEmpty := fun h => absurd h (show ¬ true = false by decide)
  queuedAfterLock := fun h => absurd h (show ¬ true = false by decide)
  queuedLegal := by
    intro w hw
    rcases List.mem_cons.mp hw with rfl | hw
    · show illegalRequest .leg table 0x02304FA5#32 = none; decide
    · rw [List.mem_singleton.mp hw]; show illegalRequest .leg table 0x02394F00#32 = none; decide
  commandsFit := show 2 ≤ 2 from Nat.le_refl _
  repliesFit := show 2 ≤ 2 from Nat.le_refl _
  resultCount := show (0#2 : BitVec 2) ≠ 3#2 by decide

theorem link_sound (t : LineTuning) (h : t.Sound) : LinkSound (onRecord t) := by
  refine ⟨show [lineA, lineB].Nodup by decide, ?_, rfl, .inl rfl⟩
  intro e he
  rcases List.mem_cons.mp he with rfl | he
  · exact h
  · rcases List.mem_cons.mp he with rfl | he
    · constructor <;> decide
    · exact absurd he (by simp)

theorem running_phase_sound : (pattern .running .idle 0#5 false).Sound := by constructor <;> decide
theorem tuned_phase_sound : (pattern .tuned .idle 13#5 true).Sound := by constructor <;> decide
theorem running_word_sound : (pattern .tuned .running 13#5 false).Sound := by constructor <;> decide

/-- A request waiting with two polls left to its bound. -/
def waiting : Readout := { requested .waitingForWords with cnfg := 0x00000301#32, timeoutPolls := 3#32 }

theorem waiting_sound : ReadoutSound (reading waiting) := by constructor <;> decide

/-- A finished request for one frame of four words. -/
def carved : State :=
  reading { requested .decoded with result := .ok, out := [1#32, 2#32, 3#32, 4#32], frameOffs := [0#32] }

/-- Something waits for every kind of agent: words for the bus agent, a phase alignment on line A, a word alignment on
line B, a request for the engine; two links. -/
def everyoneWaits : State :=
  { queued with
    link := { (start 0#32).link with
      lines :=
        [{ id := lineA, tuning := pattern .running .idle 0#5 false, paSeq := 0, waSeq := 0, capSeq := 0 },
         { id := lineB, tuning := pattern .tuned .running 13#5 false, paSeq := 0, waSeq := 0, capSeq := 0 }] }
    readout := waiting }

theorem everyoneWaits_sound : Sound everyoneWaits where
  paramsInRange := by decide
  linksInRange := by decide
  errorReserved := by decide
  codec :=
    let h := queued_sound []
    ⟨h.tableFits, h.keysUnique, h.widthsLegal, h.linksFit, h.unconfiguredEmpty, h.queuedAfterLock, h.queuedLegal,
      h.commandsFit, h.repliesFit, h.resultCount⟩
  link := by
    refine ⟨show [lineA, lineB].Nodup by decide, ?_, rfl, .inl rfl⟩
    intro e he
    rcases List.mem_cons.mp he with rfl | he
    · exact running_phase_sound
    · rcases List.mem_cons.mp he with rfl | he
      · exact running_word_sound
      · exact absurd he List.not_mem_nil
  readout := by constructor <;> decide

/-! ## Witnesses: the hypotheses of each statement met by concrete states and operands, clause by clause -/

theorem witness_DecodeEncodeRoundTrip :
    Instr.wellFormed (.txcMapadd 15#4 15#4 15#4 1#2 0x7F#7) = true
      ∧ Instr.wellFormed (.txcMapadd 0#4 0#4 0#4 2#2 0#7) = true
      ∧ Instr.wellFormed (.lnkSetmode 15#4 15#4 15#4 0#2 31#5 7#3) = true
      ∧ Instr.wellFormed (.lnkSetmode 15#4 15#4 15#4 2#2 31#5 7#3) = true
      ∧ Instr.wellFormed (.lnkSetpat 0#4 0#4 0#4 1#8 0#8) = true
      ∧ Instr.wellFormed (.lnkSetpat 0#4 0#4 0#4 255#8 255#8) = true
      ∧ Instr.wellFormed (.roeReadn 1#28) = true ∧ Instr.wellFormed (.roeReadn 0xFFFFFFF#28) = true := by decide

theorem witness_EncodeDecodeRoundTrip :
    (∃ i, decode (.write .encReq 0xEFF2FFFF#32) = .ok i) ∧ (∃ i, decode (.dispatch .leg 0x0FF2FFFF#32) = .ok i)
      ∧ ∃ i, decode (.read .replyFifo) = .ok i := ⟨⟨_, rfl⟩, ⟨_, rfl⟩, ⟨_, rfl⟩⟩

theorem witness_DecodedIsWellFormed :
    (∃ i, decode (.write .mapAdd 0x0FFF027F#32) = .ok i) ∧ (∃ i, decode (.write .roCtrl 0x00000013#32) = .ok i)
      ∧ ∃ i, decode (.write .tuningCtrl 0xFFF301FF#32) = .ok i := ⟨⟨_, rfl⟩, ⟨_, rfl⟩, ⟨_, rfl⟩⟩

/-- The lowest and the highest word of each of the eight rows. -/
theorem witness_TransactionFormsFollowTheTable :
    (0x00000000#32 &&& 0xF00D0000#32 = 0x00000000#32 ∧ 0x0FF2FFFF#32 &&& 0xF00D0000#32 = 0x00000000#32)
      ∧ (0x00080000#32 &&& 0xF00D0000#32 = 0x00080000#32 ∧ 0x0FFAFFFF#32 &&& 0xF00D0000#32 = 0x00080000#32)
      ∧ (0x00010000#32 &&& 0xF00D0000#32 = 0x00010000#32 ∧ 0x0FF3FFFF#32 &&& 0xF00D0000#32 = 0x00010000#32)
      ∧ (0x00090000#32 &&& 0xF00D0000#32 = 0x00090000#32 ∧ 0x0FFBFFFF#32 &&& 0xF00D0000#32 = 0x00090000#32)
      ∧ (0x20000000#32 &&& 0xFFFD0000#32 = 0x20000000#32 ∧ 0x2002FFFF#32 &&& 0xFFFD0000#32 = 0x20000000#32)
      ∧ (0x20080000#32 &&& 0xFFFD0000#32 = 0x20080000#32 ∧ 0x200AFFFF#32 &&& 0xFFFD0000#32 = 0x20080000#32)
      ∧ (0x20010000#32 &&& 0xFFFD0000#32 = 0x20010000#32 ∧ 0x2003FFFF#32 &&& 0xFFFD0000#32 = 0x20010000#32)
      ∧ (0x20090000#32 &&& 0xFFFD0000#32 = 0x20090000#32 ∧ 0x200BFFFF#32 &&& 0xFFFD0000#32 = 0x20090000#32) := by
  decide

theorem witness_StepRunsTheDecodedInstruction :
    (∃ (s : State) (r : Reg) (w : Word) (es : List Event) (i : Instr),
        regClass r = .port ∧ s.script = .wr r w :: es ∧ decode (.write r w) = .ok i)
      ∧ (∃ (s : State) (es : List Event), s.script = .rd .replyFifo 0 :: es)
      ∧ (∃ (s : State) (w : Word) (q : List Word) (es : List Event) (i : Instr),
        s.script = .agent .bus :: es ∧ s.codec.cmdq = w :: q ∧ decode (.dispatch s.codec.variant w) = .ok i)
      ∧ ∃ s : State, s.script = [] :=
  ⟨⟨{ start 0#32 with script := [.wr .ctrlReset 1#32] }, .ctrlReset, 1#32, [], .sysReset, rfl, rfl, rfl⟩,
   ⟨{ start 0#32 with script := [.rd .replyFifo 0] }, [], rfl⟩,
   ⟨{ queued with script := [.agent .bus, .rst] }, _, _, _, _, rfl, rfl, rfl⟩,
   ⟨start 0#32, rfl⟩⟩

theorem witness_IllegalCommandWordOnlyRaises :
    (regClass .roCtrl = .port ∧ ∀ i : Instr, decode (.write .roCtrl 0x00000004#32) ≠ .ok i)
      ∧ (regClass .mapAdd = .port ∧ ∀ i : Instr, decode (.write .mapAdd 0x00000343#32) ≠ .ok i) := by
  have h1 : decode (.write .roCtrl 0x00000004#32) = .error .illegalCommand := by decide
  have h2 : decode (.write .mapAdd 0x00000343#32) = .error .illegalCommand := by decide
  exact ⟨⟨rfl, fun i h => by simp [h1] at h⟩, ⟨rfl, fun i h => by simp [h2] at h⟩⟩

theorem witness_ReadsChangeNothingAndReadOnlyIgnoresWrites :
    (Reg.error ≠ .replyFifo ∧ regClass .cmdFifo = .port ∧ regClass .error = .ro ∧ regClass .replyFifo = .pop)
      ∧ ((start 0#32).link.debugWords[0]? = some 0#32 ∧ (start 0#32).link.debugWords.length ≤ 1)
      ∧ (carved.readout.out.length < 2 ^ 32 ∧ carved.readout.frameOffs.length < 2 ^ 32)
      ∧ (carved.readout.out[3]? = some 4#32 ∧ carved.readout.out.length ≤ 4)
      ∧ carved.readout.frameOffs[0]? = some 0#32 ∧ carved.readout.frameOffs.length ≤ 1 := by
  decide

theorem witness_ConfigurationRegistersStoreOrRefuse :
    (start 0#32).readout.state.busy = false ∧ (reading waiting).readout.state.busy = true := by decide

theorem witness_StatusRegistersShowTheirFields :
    queued.codec.map.length < 512 ∧ queued.codec.replyq.length < 65536 ∧ queued.codec.cmdq.length < 65536
      ∧ (∃ k, queued.link.links[queued.link.optSel.toNat]? = some k)
      ∧ { queued with link := { queued.link with links := [] } }.link.links[queued.link.optSel.toNat]? = none
      ∧ { queued with codec := { queued.codec with mapSel := 4#8 } }.codec.map[(4#8 : Byte).toNat]? = none
      ∧ (∃ e, { queued with codec := { queued.codec with mapSel := 3#8 } }.codec.map[(3#8 : Byte).toNat]? = some e
          ∧ localIndex queued.codec.map 3 e.link < 16) :=
  ⟨by decide, by decide, by decide, ⟨_, rfl⟩, rfl, rfl, ⟨_, rfl, by decide⟩⟩

theorem witness_ConfigureAndFlushOutcomes :
    (start 0#32).params.busProtoVer = 0#32 ∧ (start 1#32).params.busProtoVer = 1#32
      ∧ (start 2#32).params.busProtoVer = 2#32 ∧ 2 < (start 3#32).params.busProtoVer.toNat
      ∧ 2 < (start 0xFFFFFFFF#32).params.busProtoVer.toNat := by decide

theorem witness_DecodeWordOutcome :
    (start 0#32).codec.configured = false ∧ (configured .opt).codec.configured = true
      ∧ bits 0x2002207E#32 28 4 = 2#4 ∧ (bits 0x10004FA5#32 28 4 ≠ 0#4 ∧ bits 0x10004FA5#32 28 4 ≠ 2#4)
      ∧ (bits 0x07704FA5#32 28 4 = 0#4 ∧ (configured .leg).codec.variant = .leg)
      ∧ (configured .opt).codec.variant ≠ .leg
      ∧ (unsel .opt table (bits 0x01184FA5#32 20 8) = some 3 ∧ table[3]? = some ⟨1#4, 2#4, 5#4, 0x44#7, 2#2⟩)
      ∧ unsel .opt table (bits 0x01284FA5#32 20 8) = none
      ∧ (unsel .idx table (bits 0x00304FA5#32 20 8) = some 3 ∧ unsel .idx table (bits 0x00404FA5#32 20 8) = none) := by
  decide

theorem witness_PushOutcome :
    (start 0#32).codec.configured = false
      ∧ ((configured .leg).codec.configured = true ∧ ¬ formatLegal .leg 0x02384FA5#32)
      ∧ (formatLegal .leg 0x07704FA5#32 ∧ ¬ selectorResolves .leg table 0x07704FA5#32)
      ∧ (formatLegal .leg 0x02304FA5#32 ∧ selectorResolves .leg table 0x02304FA5#32
          ∧ queued.codec.cmdq.length = queued.params.cmdFifoDepth)
      ∧ (formatLegal .leg 0x20000000#32 ∧ selectorResolves .leg table 0x20000000#32
          ∧ (configured .leg).codec.cmdq.length ≠ (configured .leg).params.cmdFifoDepth) := by
  refine ⟨by decide, ⟨by decide, ?_⟩, ⟨?_, ?_⟩, ⟨?_, ?_, by decide⟩, ⟨?_, ?_, by decide⟩⟩
  · unfold formatLegal; decide
  · unfold formatLegal; decide
  · unfold selectorResolves; decide
  · unfold formatLegal; decide
  · unfold selectorResolves; decide
  · unfold formatLegal; decide
  · unfold selectorResolves; decide

theorem witness_PopOutcome :
    (start 0#32).codec.replyq = [] ∧ queued.codec.replyq = 0x02394FA5#32 :: [0#32] := by decide

/-- An empty reply queue and a full one. -/
theorem witness_FormsDispatch :
    (configured .idx).codec.replyq.length ≤ (configured .idx).params.replyFifoDepth
      ∧ queued.codec.replyq.length = queued.params.replyFifoDepth := by decide

theorem witness_UnselInvertsSel :
    CodecSound (configured .opt) ∧ (configured .opt).params.nSlaves ≤ 256
      ∧ (configured .opt).codec.map[3]? = some ⟨1#4, 2#4, 5#4, 0x44#7, 2#2⟩
      ∧ (configured .opt).codec.variant = .opt := ⟨configured_sound .opt, by decide, rfl, rfl⟩

theorem witness_TransactionRoundTrip :
    CodecSound (configured .leg) ∧ (configured .leg).params.nSlaves ≤ 256 ∧ (configured .leg).codec.configured = true
      ∧ ∃ e ∈ (configured .leg).codec.map, e.hybrid = 2#4 ∧ e.chip = 5#4 :=
  ⟨configured_sound .leg, by decide, rfl, by decide⟩

theorem witness_EncodedWordsAreLegal :
    CodecSound (configured .leg) ∧ (configured .leg).params.nSlaves ≤ 256
      ∧ (∃ t, exec (.txcEnc 0#1 1#1 1#1 2#4 3#4 0#1 0x4F#8 0xA5#8) (configured .leg) = .next t
          ∧ t.codec.encCount = 2#2)
      ∧ ∃ t, exec (.txcEnc 1#1 1#1 1#1 9#4 9#4 0#1 0x4F#8 0xA5#8) (configured .idx) = .next t
          ∧ t.codec.encCount = 1#2 :=
  ⟨configured_sound .leg, by decide, ⟨_, rfl, by decide⟩, ⟨_, rfl, by decide⟩⟩

theorem witness_CodecInvariantKept :
    CodecSound { queued with script := [.agent .bus] } ∧ ∃ t, step { queued with script := [.agent .bus] } = .next t :=
  ⟨queued_sound _, _, rfl⟩

theorem witness_SoundStatesAlwaysStep : CodecSound queued := queued_sound _

theorem witness_ImmutabilityWindows :
    resetsBlock (.wr .mapAdd 0x00990150#32) = false
      ∧ Event.wr .mapAdd 0x00990150#32 ≠ .wr .codecCtrl 1#32
      ∧ (∃ t, runEvent (.wr .mapAdd 0x00990150#32) queued = .next t) ∧ queued.codec.mapLocked = true
      ∧ resetsBlock (.wr .ctrlReset 2#32) = false
      ∧ (∃ t, runEvent (.wr .roCnfg 1#32) (reading waiting) = .next t)
      ∧ (reading waiting).readout.state.busy = true :=
  ⟨by decide, by decide, ⟨_, rfl⟩, rfl, by decide, ⟨_, rfl⟩, rfl⟩

theorem witness_LineStatusReplies :
    findLine ⟨1#4, 3#4, 0#4⟩ (start 0#32).link.lines = none
      ∧ ∃ e, findLine lineB (start 0#32).link.lines = some e := ⟨by decide, _, rfl⟩

theorem witness_SetmodeOutcome :
    (3#2 : BitVec 2) = 3#2 ∧ (2#2 : BitVec 2) ≠ 3#2 ∧ findLine ⟨15#4, 15#4, 15#4⟩ (start 0#32).link.lines = none
      ∧ ∃ e, findLine ⟨1#4, 2#4, 0#4⟩ (onRecord (pattern .running .idle 0#5 false)).link.lines = some e :=
  ⟨by decide, by decide, by decide, _, rfl⟩

theorem witness_SetpatOutcome :
    findLine ⟨15#4, 15#4, 15#4⟩ (start 0#32).link.lines = none ∧ (1#8 : Byte) ≠ 0#8
      ∧ (∃ e, findLine ⟨1#4, 2#4, 0#4⟩ (start 0#32).link.lines = some e ∧ e.tuning.mode ≠ .patternInject)
      ∧ ∃ e, findLine ⟨1#4, 2#4, 0#4⟩ (onRecord (pattern .tuned .running 0#5 false)).link.lines = some e
          ∧ e.tuning.mode = .patternInject :=
  ⟨by decide, by decide, ⟨_, rfl, by decide⟩, ⟨_, rfl, by decide⟩⟩

theorem witness_AlignmentStartOutcomes :
    findLine ⟨15#4, 15#4, 15#4⟩ (start 0#32).link.lines = none
      ∧ (∃ e, findLine ⟨1#4, 2#4, 0#4⟩ (start 0#32).link.lines = some e
          ∧ e.tuning.mode ≠ .patternInject)
      ∧ (∃ e, findLine ⟨1#4, 2#4, 0#4⟩ (onRecord { LineTuning.initial with mode := .patternInject }).link.lines = some e
          ∧ e.tuning.patValid = false ∧ e.tuning.paState ≠ .tuned)
      ∧ (∃ e, findLine ⟨1#4, 2#4, 0#4⟩ (onRecord (pattern .idle .idle 0#5 false)).link.lines = some e
          ∧ e.tuning.mode = .patternInject ∧ e.tuning.patValid = true)
      ∧ ∃ e, findLine ⟨1#4, 2#4, 0#4⟩ (onRecord (pattern .tuned .idle 13#5 true)).link.lines = some e
          ∧ e.tuning.mode = .patternInject ∧ e.tuning.paState = .tuned :=
  ⟨by decide, ⟨_, rfl, by decide⟩, ⟨_, rfl, by decide⟩, ⟨_, rfl, by decide⟩, ⟨_, rfl, by decide⟩⟩

theorem witness_CaptureOutcome :
    findLine ⟨15#4, 15#4, 15#4⟩ (start 0#32).link.lines = none
      ∧ (∃ e, findLine ⟨1#4, 2#4, 0#4⟩ (onRecord (pattern .running .idle 0#5 false)).link.lines = some e
          ∧ e.tuning.paState = .running)
      ∧ (∃ e, findLine ⟨1#4, 2#4, 0#4⟩ (onRecord (pattern .tuned .running 0#5 false)).link.lines = some e
          ∧ e.tuning.waState = .running)
      ∧ ∃ e, findLine ⟨1#4, 2#4, 0#4⟩ (start 0#32).link.lines = some e
          ∧ e.tuning.paState ≠ .running ∧ e.tuning.waState ≠ .running :=
  ⟨by decide, ⟨_, rfl, by decide⟩, ⟨_, rfl, by decide⟩, ⟨_, rfl, by decide⟩⟩

/-- Two links: link 1 is the last that exists, link 2 the first that does not. -/
theorem witness_OpticalCommandOutcomes :
    (start 0#32).link.links.length ≤ (2#4 : Nibble).toNat ∧ (1#4 : Nibble).toNat < (start 0#32).link.links.length := by
  decide

theorem witness_LineAgentSteps :
    (LinkSound (onRecord (pattern .running .idle 0#5 false))
        ∧ ∃ e, findLine lineA (onRecord (pattern .running .idle 0#5 false)).link.lines = some e
          ∧ e.tuning.paState = .running ∧ e.tuning.waState ≠ .running)
      ∧ (LinkSound (onRecord (pattern .tuned .running 13#5 false))
        ∧ ∃ e, findLine lineA (onRecord (pattern .tuned .running 13#5 false)).link.lines = some e
          ∧ e.tuning.waState = .running ∧ e.tuning.paState ≠ .running) :=
  ⟨⟨link_sound _ running_phase_sound, _, rfl, by decide⟩, ⟨link_sound _ running_word_sound, _, rfl, by decide⟩⟩

theorem witness_OpticalAgentStep :
    (0 < (start 0#32).link.links.length ∧ 1 < (start 0#32).link.links.length)
      ∧ ∃ o, (start 0#32).link.links[1]? = some o := ⟨by decide, ⟨_, rfl⟩⟩

theorem witness_OtherLinesStayAsTheyWere :
    (bits 0x12040000#32 28 4 = lineA.hybrid ∧ bits 0x12040000#32 24 4 = lineA.chip ∧ bits 0x12040000#32 20 4 = lineA.line)
      ∧ (∃ t, runEvent (.wr .tuningCtrl 0x12040000#32) (onRecord (pattern .idle .idle 0#5 false)) = .next t)
      ∧ (∃ t, runEvent (.agent (.linePhase lineA)) (onRecord (pattern .running .idle 0#5 false)) = .next t)
      ∧ (∃ t, runEvent (.agent (.lineWord lineA)) (onRecord (pattern .tuned .running 0#5 false)) = .next t)
      ∧ lineB ≠ lineA := ⟨by decide, ⟨_, rfl⟩, ⟨_, rfl⟩, ⟨_, rfl⟩, by decide⟩

theorem witness_LineStateChartIsComplete :
    LinkSound (onRecord (pattern .tuned .idle 13#5 true)) ∧ resetsBlock (.wr .tuningCtrl 0x12050000#32) = false
      ∧ (∃ t, runEvent (.wr .tuningCtrl 0x12050000#32) (onRecord (pattern .tuned .idle 13#5 true)) = .next t)
      ∧ ∃ e, findLine lineA (onRecord (pattern .tuned .idle 13#5 true)).link.lines = some e :=
  ⟨link_sound _ tuned_phase_sound, by decide, ⟨_, rfl⟩, ⟨_, rfl⟩⟩

theorem witness_LinkInvariantKept :
    LinkSound { onRecord (pattern .running .idle 0#5 false) with script := [.wr .tuningCtrl 0x120308AA#32] }
      ∧ ∃ t, step { onRecord (pattern .running .idle 0#5 false) with script := [.wr .tuningCtrl 0x120308AA#32] } =
          .next t := by
  have h := link_sound _ running_phase_sound
  exact ⟨⟨h.oneEntryPerLine, h.recordsSound, h.debugWordsFit, h.selectionExists⟩, _, rfl⟩

theorem witness_ReadavOutcome :
    (reading waiting).readout.state.busy = true ∧ (start 0#32).readout.state.busy = false := by decide

theorem witness_DerivedQuantities :
    (bits 0x00010006#32 16 8).toNat ≤ 1 ∧ 2 ≤ (bits 0x00020006#32 16 8).toNat ∧ 2 ≤ (bits 0x00FFFFFF#32 16 8).toNat := by
  decide

theorem witness_PollStep : (reading waiting).readout.state = .waitingForWords := rfl

theorem witness_ReadSteps :
    (reading (requested .handshake)).readout.state = .handshake
      ∧ (reading (requested .directRead)).readout.state = .directRead := ⟨rfl, rfl⟩

/-- No frame, one frame, and a word too few for any frame. -/
theorem witness_CarvingLaw :
    (∃ fs : List (List Word), (∀ f ∈ fs, WholeFrame f) ∧ (requested .directRead).out = fs.flatten)
      ∧ (∃ fs : List (List Word), (∀ f ∈ fs, WholeFrame f)
          ∧ ({ requested .directRead with out := [1#32, 2#32, 3#32, 4#32] } : Readout).out = fs.flatten)
      ∧ ¬ ∃ fs : List (List Word), (∀ f ∈ fs, WholeFrame f)
          ∧ ({ requested .directRead with out := [1#32] } : Readout).out = fs.flatten := by
  refine ⟨⟨[], by simp, rfl⟩, ⟨[[1#32, 2#32, 3#32, 4#32]], ?_, rfl⟩, ?_⟩
  · intro f hf
    rw [List.mem_singleton.mp hf]
    exact ⟨1#32, [2#32, 3#32, 4#32], rfl, by decide, by decide⟩
  · rintro ⟨fs, h, he⟩
    cases fs with
    | nil => simp at he
    | cons f fs =>
      obtain ⟨w, ws, -, h1, h2⟩ := h f (by simp)
      have := congrArg List.length he
      simp at this
      omega

/-- Below the cap by one, and at the cap. -/
theorem witness_StallAndRecoverySteps :
    ((requested .stalled).state = .stalled
        ∧ ({ requested .stalled with recovCount := 2#8 } : Readout).recovCount.toNat
            < (bits (requested .stalled).cnfg 8 8).toNat
        ∧ (bits (requested .stalled).cnfg 8 8).toNat
            ≤ ({ requested .stalled with recovCount := 3#8 } : Readout).recovCount.toNat)
      ∧ (requested .recoveryStop).state = .recoveryStop ∧ (requested .recoveryReset).state = .recoveryReset
      ∧ (requested .recoveryStart).state = .recoveryStart := by decide

theorem witness_EngineTransitions :
    ∀ st : RoState, ∃ t, runEvent (.agent .engine) (reading (requested st)) = .next t
      ∧ (reading (requested st)).readout.state = st := fun _ => ⟨_, rfl, rfl⟩

theorem witness_RecoveryTriplesOnTheTrace :
    (reading waiting).readout.state = .waitingForWords ∧ (reading waiting).readout.recovCount = 0#8 := ⟨rfl, rfl⟩

/-- With a poll bound of 0 and no recovery allowed, and with the largest of both. -/
theorem witness_EveryRequestEnds :
    (∃ r : Readout, r.state = .waitingForWords ∧ r.polls = 0#32 ∧ r.recovCount = 0#8 ∧ r.timeoutPolls = 0#32
        ∧ bits r.cnfg 8 8 = 0#8)
      ∧ ∃ r : Readout, r.state = .waitingForWords ∧ r.polls = 0#32 ∧ r.recovCount = 0#8 ∧ r.timeoutPolls = 0xFFFFFFFF#32
        ∧ bits r.cnfg 8 8 = 255#8 :=
  ⟨⟨{ requested .waitingForWords with cnfg := 1#32 }, rfl, rfl, rfl, rfl, by decide⟩,
   ⟨{ requested .waitingForWords with cnfg := 0xFF01#32, timeoutPolls := 0xFFFFFFFF#32 }, rfl, rfl, rfl, rfl,
    by decide⟩⟩

/-- By the request flag, and by the trigger target met exactly with one word present. -/
theorem witness_HandshakeReadIsJustified :
    (∃ s t : State, s.readout.sawReq = true ∧ step s = .next t ∧ t.readout.state = .handshake)
      ∧ ∃ s t : State, s.readout.targetTrig = s.readout.latTrig.toNat ∧ s.readout.latWc ≠ 0#32
        ∧ s.readout.state = .handshake ∧ step s = .next t ∧ t.readout.state = .handshake :=
  ⟨⟨{ reading { requested .handshake with sawReq := true } with script := [.rd .error 0] }, _, rfl, rfl, rfl⟩,
   ⟨{ reading { requested .handshake with trigCnfg := 0x0100000A#32, latTrig := 20#32, latWc := 1#32 } with
        script := [.rd .error 0] }, _, by decide, by decide, rfl, rfl, rfl⟩⟩

theorem witness_ReadoutInvariantKept :
    (params 0#32).inRange = true ∧ ReadoutSound { reading waiting with script := [.agent .engine] }
      ∧ ∃ t, step { reading waiting with script := [.agent .engine] } = .next t :=
  ⟨by decide, by constructor <;> decide, _, rfl⟩

theorem witness_FlagsAreStickyAndAtMostOneIsRaised :
    resetsBlock (.wr .roCtrl 4#32) = false ∧ (∃ t, runEvent (.wr .roCtrl 4#32) queued = .next t)
      ∧ bits queued.error 18 14 = 0#14 := ⟨by decide, ⟨_, rfl⟩, by decide⟩

/-- The first line, and the last of two links. -/
theorem witness_ParametersStayAndTheTraceOnlyGrows :
    ((∃ t, runEvent .rst queued = .next t) ∧ ∃ t, runEvent (.agent .bus) queued = .next t)
      ∧ (∃ e, queued.link.lines[0]? = some e) ∧ ∃ o, queued.link.links[1]? = some o :=
  ⟨⟨⟨_, rfl⟩, ⟨_, rfl⟩⟩, ⟨_, rfl⟩, ⟨_, rfl⟩⟩

theorem witness_ResetStateIsSound : (params 0#32).inRange = true ∧ 0 ≤ 16 ∧ 16 ≤ 16 := by decide

/-- Each clause's premise at the run's first state, under rotation over the agents. -/
theorem witness_FairRunsFinishWhatWaits :
    Sound everyoneWaits ∧ WeaklyFair (rotation (agentsOf everyoneWaits)) everyoneWaits
      ∧ runUnder (rotation (agentsOf everyoneWaits)) 0 everyoneWaits = some everyoneWaits
      ∧ everyoneWaits.codec.cmdq ≠ []
      ∧ (∃ e, findLine lineA everyoneWaits.link.lines = some e ∧ e.tuning.paState = .running)
      ∧ (∃ e, findLine lineB everyoneWaits.link.lines = some e ∧ e.tuning.waState = .running)
      ∧ everyoneWaits.readout.state.busy = true :=
  ⟨everyoneWaits_sound, rotation_weaklyFair _ rfl rfl, rfl, by decide, ⟨_, rfl, rfl⟩, ⟨_, rfl, rfl⟩, rfl⟩

theorem witness_RepeatedCommandsAreIdempotent :
    (∃ t u, exec .txcConfigure queued = .next t ∧ exec .txcConfigure t = .next u)
      ∧ (∃ t u, exec (.lnkSetpat 1#4 2#4 0#4 8#8 0xAA#8) (onRecord (pattern .tuned .running 0#5 false)) = .next t
        ∧ exec (.lnkSetpat 1#4 2#4 0#4 8#8 0xAA#8) t = .next u)
      ∧ ∃ t u, exec (.lnkOptsel 2#4) (start 0#32) = .next t ∧ exec (.lnkOptsel 2#4) t = .next u :=
  ⟨⟨_, _, rfl, rfl⟩, ⟨_, _, rfl, rfl⟩, ⟨_, _, rfl, rfl⟩⟩

theorem witness_IdealBusReturnsTheNominalReplies :
    bits 0x02394F00#32 28 4 = 0#4 ∧ bits 0x20013300#32 28 4 = 2#4 ∧ ChipMem.wf [(0, 1#8), (5, 255#8)] = true := by
  decide

theorem witness_IdealBusReadsBackWhatWasWritten :
    ChipMem.wf [] = true ∧ ChipMem.wf [(0, 1#8), (0x1FFFF, 255#8)] = true := by decide

/-- The poll bounds and tables the chunks do not read are left at their least values. -/
def hostParams (cmd reply : Nat) : HostParams where
  lines := []
  nLinks := 0
  nCapWords := 1
  cmdFifoDepth := cmd
  replyFifoDepth := reply
  firstStubLine := 1#4
  cplOffset := fun _ => false
  patLengths := fun _ => [8#8]
  lnkPollMax := 1
  optPollMax := 1
  txnPollMax := 1
  roPollMax := 1
  roTimeout := fun _ _ => 1#32

theorem test_host_params_in_range : (hostParams 2 9).InRange :=
  ⟨by decide, by decide, by simp [hostParams], by simp [hostParams], by decide, by decide, by decide, by decide,
    by decide, by decide, by decide, by simp [hostParams], by simp [hostParams]⟩

/-- Cut by the command queue's depth, and by the reply queue's; a word with one reply too many alone (four entries,
a broadcast read); and a chunk before another, ended by the command queue. -/
theorem witness_ChunksCoverTheBatch :
    (1 ≤ (hostParams 1 9).cmdFifoDepth ∧ 1 ≤ (hostParams 9 4).cmdFifoDepth)
      ∧ chunksFrom (hostParams 2 9) 4 3 [0x02304FA5#32, 0x02394F00#32, 0x02304FA5#32] =
        some [[0x02304FA5#32, 0x02394F00#32], [0x02304FA5#32]]
      ∧ chunksFrom (hostParams 9 4) 4 2 [0x20013300#32, 0x02394F00#32] = some [[0x20013300#32], [0x02394F00#32]]
      ∧ (nomReplies 4 0x20013300#32 = 4 ∧ chunksFrom (hostParams 9 3) 4 1 [0x20013300#32] = none)
      ∧ [[0x02304FA5#32, 0x02394F00#32], [0x02304FA5#32]] =
          [] ++ [0x02304FA5#32, 0x02394F00#32] :: ((0x02304FA5#32 :: []) :: ([] : List (List Word))) := by
  decide

end Sys2Proof.Tests
end

