-- ==== Sys2Proof/Proofs/Moves.lean ====
section
/-! PROOFS. What an instruction and an event can make of unit C, of unit L and of the output trace, said once, beside
`ReadoutMove` for unit R: every invariant of the two units, and every frame, is a case split over these moves. -/

namespace Sys2Proof.Machine

/-- What an event can make of unit C: nothing, one of the results of its commands with the checks that led to it, or
the bus agent's dispatch. -/
inductive CodecMove (s : State) : Codec → Prop where
  | same : CodecMove s s.codec
  | reset : CodecMove s (Codec.initial s.codec.busSeq)
  | unconfigured (h : variantOfVersion s.params.busProtoVer = none) :
      CodecMove s { s.codec.cleared with configured := false }
  | configured (v : Variant) (h : variantOfVersion s.params.busProtoVer = some v) :
      CodecMove s { s.codec.cleared with variant := v, configured := true }
  | flushed : CodecMove s { s.codec with cmdq := [], replyq := [] }
  | added (e : MapEntry) (h : mapaddError s.codec s.params.nSlaves e = none) : CodecMove s (s.codec.addEntry e)
  | resultCleared (h : s.codec.configured = false) : CodecMove s s.codec.encCleared
  | missed (h : s.codec.configured = true) : CodecMove s s.codec.encCleared.locked
  | encoded (bcast write readback : BitVec 1) (hybrid chip : Nibble) (page : BitVec 1) (addr value : Byte)
      (op : Nibble) (sel : Byte) (h : s.codec.configured = true)
      (ht : encTarget s.codec.variant s.codec.map bcast hybrid chip = some (op, sel)) :
      CodecMove s
        (s.codec.encCleared.locked.encStored (encWords s.codec.variant op sel write readback page addr value))
  | decoded (w : Word) (h : s.codec.configured = true) :
      CodecMove s { s.codec.locked with decOut := (decodeFields s.codec.variant s.codec.map w).word }
  | locked (h : s.codec.configured = true) : CodecMove s s.codec.locked
  | pushed (w : Word) (h : s.codec.configured = true)
      (hl : illegalRequest s.codec.variant s.codec.map w = none)
      (hr : s.codec.cmdq.length ≠ s.params.cmdFifoDepth) :
      CodecMove s { s.codec.locked with cmdq := s.codec.cmdq ++ [w] }
  | popped (w : Word) (q : List Word) (h : s.codec.replyq = w :: q) : CodecMove s { s.codec with replyq := q }
  | selected (i : Byte) : CodecMove s { s.codec with mapSel := i }
  | dispatched (q rq : List Word) (hq : q <:+ s.codec.cmdq)
      (hr : s.codec.replyq.length ≤ s.params.replyFifoDepth → rq.length ≤ s.params.replyFifoDepth) :
      CodecMove s { s.codec with cmdq := q, busSeq := s.codec.busSeq + 1, replyq := rq }

/-- What an event can make of unit L: nothing, one of the results of its commands with the checks that led to it, or a
step of one of its agents. -/
inductive LinkMove (s : State) : Link → Prop where
  | same : LinkMove s s.link
  | reset : LinkMove s (resetBlock s).link
  | replied (w : Word) : LinkMove s { s.link with tuningReply := w }
  | modeSet (x : LineId) (e : LineEntry) (mode : BitVec 2) (delay : BitVec 5) (bitslip : BitVec 3)
      (hf : findLine x s.link.lines = some e) (hm : modeOk mode = true) :
      LinkMove s (setTuning x (e.tuning.withMode mode delay bitslip) s).link
  | patternSet (x : LineId) (e : LineEntry) (plen pat : Byte) (hf : findLine x s.link.lines = some e)
      (hp : plenOk plen = true) (hm : e.tuning.mode = .patternInject) :
      LinkMove s (setTuning x (e.tuning.withPattern plen pat) s).link
  | phaseStarted (x : LineId) (e : LineEntry) (hf : findLine x s.link.lines = some e)
      (hm : e.tuning.mode = .patternInject) (hp : e.tuning.patValid = true) :
      LinkMove s (setTuning x e.tuning.startPhase s).link
  | wordStarted (x : LineId) (e : LineEntry) (hf : findLine x s.link.lines = some e)
      (hm : e.tuning.mode = .patternInject) (hp : e.tuning.paState = .tuned) :
      LinkMove s (setTuning x e.tuning.startWord s).link
  | captured (x : LineId) (e : LineEntry) (hf : findLine x s.link.lines = some e) (hr : ¬ e.tuning.running = true) :
      LinkMove s (storeCapture x (drawCapture s.params.nCapWords e) s).link
  | linksReset : LinkMove s (resetLinks s).link
  | linkSelected (k : Nibble) (h : k.toNat < s.link.links.length) : LinkMove s { s.link with optSel := k }
  | phaseStepped (x : LineId) (e : LineEntry) (hf : findLine x s.link.lines = some e)
      (hr : e.tuning.paState = .running) :
      LinkMove s { s.link with lines := updateLine x LineEntry.phaseStep s.link.lines }
  | wordStepped (x : LineId) (e : LineEntry) (hf : findLine x s.link.lines = some e)
      (hr : e.tuning.waState = .running) :
      LinkMove s { s.link with lines := updateLine x LineEntry.wordStep s.link.lines }
  | linkDrawn (k : Nat) : LinkMove s (opticalTurn k s).link

/-- Units C and L move as listed, and the output trace only grows. -/
structure Moves (s t : State) : Prop where
  codec : CodecMove s t.codec
  link : LinkMove s t.link
  trace : ∃ ps, t.trace = s.trace ++ ps

/-! ## The shared operations -/

/-- No pulse: the trace grows by nothing. -/
theorem trace_grows_refl (s : State) : ∃ ps, s.trace = s.trace ++ ps := ⟨[], (List.append_nil _).symm⟩

theorem Moves.refl (s : State) : Moves s s := ⟨.same, .same, trace_grows_refl s⟩

/-- A raise after a move moves no more. -/
theorem Moves.raise {s t : State} (e : Err) (h : Moves s t) : Moves s (raise e t) := ⟨h.codec, h.link, h.trace⟩

theorem Moves.ofCodec {s : State} {c : Codec} (h : CodecMove s c) : Moves s (setCodec c s) :=
  ⟨h, .same, trace_grows_refl s⟩

theorem Moves.ofLink {s : State} {l : Link} (h : LinkMove s l) : Moves s (setLink l s) :=
  ⟨.same, h, trace_grows_refl s⟩

/-- Unit R replaced, after pulses or none. -/
theorem Moves.ofReadout {s : State} (r : Readout) {t : State} (h : Moves s t) : Moves s (setReadout r t) :=
  ⟨h.codec, h.link, h.trace⟩

theorem Moves.emitted (p : Pulse) (s : State) : Moves s (emit p s) := ⟨.same, .same, _, rfl⟩

theorem Moves.finished (q : Readout × Option Err) (s : State) : Moves s (finishStep q s) where
  codec := finishStep_codec q s ▸ .same
  link := finishStep_link q s ▸ .same
  trace := (finishStep_trace q s).symm ▸ trace_grows_refl s

/-- A line command moves as its continuation does on the line's entry. -/
theorem Moves.ofOnLine {s : State} {x : LineId} {k : LineEntry → State}
    (h : ∀ e, findLine x s.link.lines = some e → Moves s (k e)) : Moves s (onLine x s k) := by
  cases hf : findLine x s.link.lines with
  | none => rw [onLine_none k hf]; exact (Moves.refl s).raise _
  | some e => rw [onLine_some k hf]; exact h e hf

/-- A dispatch from what is left of the command queue. -/
theorem dispatch_moves (w : Word) (q : List Word) (s : State) (hq : q <:+ s.codec.cmdq) :
    Moves s (dispatch w (setCodec { s.codec with cmdq := q } s)) := by
  obtain ⟨rq, err, h, -, hr⟩ := dispatch_frame w (setCodec { s.codec with cmdq := q } s)
  rw [h]
  exact ⟨.dispatched q rq hq hr, .same, _, rfl⟩

/-! ## The commands of unit C -/

theorem configure_moves (s : State) : Moves s (configure s) := by
  unfold configure
  split
  · rename_i hv; exact (Moves.ofCodec (.unconfigured hv)).raise _
  · rename_i v hv; exact .ofCodec (.configured v hv)

theorem mapadd_moves (e : MapEntry) (s : State) : Moves s (mapadd e s) := by
  unfold mapadd
  split
  · exact (Moves.refl s).raise _
  · rename_i he; exact .ofCodec (.added e he)

theorem encodeRequest_moves (bcast write readback : BitVec 1) (hybrid chip : Nibble) (page : BitVec 1)
    (addr value : Byte) (s : State) :
    Moves s (encodeRequest bcast write readback hybrid chip page addr value s) := by
  unfold encodeRequest
  dsimp only
  split
  · rename_i hc; exact (Moves.ofCodec (.resultCleared hc)).raise _
  · rename_i hc
    have hc : s.codec.configured = true := Bool.eq_true_of_not_eq_false hc
    split
    · exact (Moves.ofCodec (.missed hc)).raise _
    · rename_i op sel ht
      exact .ofCodec (.encoded bcast write readback hybrid chip page addr value op sel hc ht)

theorem decodeWord_moves (w : Word) (s : State) : Moves s (decodeWord w s) := by
  unfold decodeWord
  split
  · exact (Moves.refl s).raise _
  · rename_i hc; exact .ofCodec (.decoded w (Bool.eq_true_of_not_eq_false hc))

theorem pushCommand_moves (w : Word) (s : State) : Moves s (pushCommand w s) := by
  unfold pushCommand
  dsimp only
  split
  · exact (Moves.refl s).raise _
  · rename_i hc
    have hc : s.codec.configured = true := Bool.eq_true_of_not_eq_false hc
    split
    · exact (Moves.ofCodec (.locked hc)).raise _
    · rename_i hl
      split
      · exact (Moves.ofCodec (.locked hc)).raise _
      · rename_i hr; exact .ofCodec (.pushed w hc hl hr)

theorem popReply_moves (s : State) : Moves s (popReply s) := by
  unfold popReply
  split
  · exact ⟨.same, .same, trace_grows_refl s⟩
  · rename_i w q hq; exact ⟨.popped w q hq, .same, trace_grows_refl s⟩

/-! ## The commands of unit L -/

theorem setMode_moves (x : LineId) (mode : BitVec 2) (delay : BitVec 5) (bitslip : BitVec 3) (s : State) :
    Moves s (setMode x mode delay bitslip s) := by
  unfold setMode
  split
  · exact (Moves.refl s).raise _
  · rename_i hm
    exact .ofOnLine fun e he => .ofLink (.modeSet x e mode delay bitslip he (Bool.eq_true_of_not_eq_false hm))

theorem setPat_moves (x : LineId) (plen pat : Byte) (s : State) : Moves s (setPat x plen pat s) := by
  unfold setPat
  split
  · exact (Moves.refl s).raise _
  · rename_i hp
    refine .ofOnLine fun e he => ?_
    split
    · exact (Moves.refl s).raise _
    · rename_i hm
      exact .ofLink (.patternSet x e plen pat he (Bool.eq_true_of_not_eq_false hp) (not_not.1 hm))

theorem doPhase_moves (x : LineId) (s : State) : Moves s (doPhase x s) := by
  refine .ofOnLine fun e he => ?_
  split
  · exact (Moves.refl s).raise _
  · rename_i h
    obtain ⟨hm, hp⟩ := not_or.1 h
    exact .ofLink (.phaseStarted x e he (not_not.1 hm) (Bool.eq_true_of_not_eq_false hp))

theorem doWord_moves (x : LineId) (s : State) : Moves s (doWord x s) := by
  refine .ofOnLine fun e he => ?_
  split
  · exact (Moves.refl s).raise _
  · rename_i h
    obtain ⟨hm, hp⟩ := not_or.1 h
    exact .ofLink (.wordStarted x e he (not_not.1 hm) (not_not.1 hp))

theorem capture_moves (x : LineId) (s : State) : Moves s (capture x s) := by
  refine .ofOnLine fun e he => ?_
  split
  · exact (Moves.refl s).raise _
  · rename_i hr; exact .ofLink (.captured x e he hr)

theorem resetLinks_moves (s : State) : Moves s (resetLinks s) :=
  ⟨.same, .linksReset, _, rfl⟩

theorem selectLink_moves (k : Nibble) (s : State) : Moves s (selectLink k s) := by
  unfold selectLink
  split
  · exact (Moves.refl s).raise _
  · rename_i h; exact .ofLink (.linkSelected k (Nat.lt_of_not_le h))

/-! ## The commands of unit R and the reset -/

theorem readAvailable_moves (s : State) : Moves s (readAvailable s) := by
  unfold readAvailable
  split
  · exact (Moves.refl s).raise _
  · exact .ofReadout _ (.refl s)

theorem readN_moves (n : BitVec 28) (s : State) : Moves s (readN n s) := by
  unfold readN
  split
  · exact (Moves.refl s).raise _
  · split
    · exact (Moves.refl s).raise _
    · split
      · exact (Moves.refl s).raise _
      · exact .ofReadout _ (.refl s)

theorem resetBlock_moves (s : State) : Moves s (resetBlock s) := ⟨.reset, .reset, trace_grows_refl s⟩

/-- An instruction moves units C and L only as listed, and the output trace only grows. -/
theorem exec_moves (i : Instr) (s t : State) (h : exec i s = .next t) : Moves s t := by
  cases i <;> cases h
  case sysReset => exact resetBlock_moves s
  case txcConfigure => exact configure_moves s
  case txcFlush => exact .ofCodec .flushed
  case txcMapadd => exact mapadd_moves _ s
  case txcEnc => exact encodeRequest_moves _ _ _ _ _ _ _ _ s
  case txcDec => exact decodeWord_moves _ s
  case txcPush => exact pushCommand_moves _ s
  case txcPop => exact popReply_moves s
  case lnkGetcfg => exact .ofOnLine fun _ _ => .ofLink (.replied _)
  case lnkGetstat => exact .ofOnLine fun _ _ => .ofLink (.replied _)
  case lnkSetmode => exact setMode_moves _ _ _ _ s
  case lnkSetpat => exact setPat_moves _ _ _ s
  case lnkDopa => exact doPhase_moves _ s
  case lnkDowa => exact doWord_moves _ s
  case lnkCapture => exact capture_moves _ s
  case lnkOptrst => exact resetLinks_moves s
  case lnkOptsel => exact selectLink_moves _ s
  case roeReset => exact .ofReadout _ (.emitted .bufReset s)
  case roeReadav => exact readAvailable_moves s
  case roeReadn => exact readN_moves _ s
  all_goals exact dispatch_moves _ s.codec.cmdq s (List.suffix_refl _)

/-! ## The events -/

theorem writeConfig_moves (r : Readout) (s : State) : Moves s (writeConfig r s) := by
  unfold writeConfig
  split
  · exact (Moves.refl s).raise _
  · exact .ofReadout _ (.refl s)

/-- A plain register write moves unit C only at `map_sel`. -/
theorem writeReg_moves (r : Reg) (w : Word) (s : State) : Moves s (writeReg r w s) := by
  cases r
  case mapSel => exact .ofCodec (.selected _)
  case roCnfg => exact writeConfig_moves _ s
  case roTimeoutPolls => exact writeConfig_moves _ s
  case roTrigCnfg => exact writeConfig_moves _ s
  case roEvsizeCnfg => exact writeConfig_moves _ s
  all_goals exact .refl s

theorem hostWrite_moves (r : Reg) (w : Word) (s t : State) (h : hostWrite r w s = .next t) : Moves s t := by
  unfold hostWrite at h
  split at h
  · split at h
    · exact exec_moves _ s t h
    · cases h; exact (Moves.refl s).raise _
  all_goals cases h; exact writeReg_moves r w s

theorem hostRead_moves (r : Reg) (k : Nat) (s t : State) (h : hostRead r k s = .next t) : Moves s t := by
  unfold hostRead at h
  split at h
  · exact exec_moves _ s t h
  · cases h; exact ⟨.same, .same, trace_grows_refl s⟩

theorem busTurn_moves (s t : State) (h : busTurn s = .next t) : Moves s t := by
  unfold busTurn at h
  split at h
  · cases h; exact .refl s
  · rename_i w q hq
    split at h
    · rename_i i hd
      obtain ⟨w', he⟩ := decoded_dispatches _ _ _ hd
      rw [he] at h
      cases h
      exact dispatch_moves w' q s (hq ▸ List.suffix_cons w q)
    · cases h

theorem phaseTurn_moves (x : LineId) (s : State) : Moves s (phaseTurn x s) := by
  unfold phaseTurn
  split
  · exact .refl s
  · rename_i e he
    split
    · rename_i hr; exact .ofLink (.phaseStepped x e he hr)
    · exact .refl s

theorem wordTurn_moves (x : LineId) (s : State) : Moves s (wordTurn x s) := by
  unfold wordTurn
  split
  · exact .refl s
  · rename_i e he
    split
    · rename_i hr; exact .ofLink (.wordStepped x e he hr)
    · exact .refl s

theorem engineTurn_moves (s : State) : Moves s (engineTurn s) := by
  unfold engineTurn
  cases s.readout.state with
  | idle | decoded | error => exact .refl s
  | waitingForWords => exact .ofReadout _ (.refl s)
  | handshake | directRead | stalled => exact .finished _ s
  | recoveryStop | recoveryReset | recoveryStart => exact .ofReadout _ (.emitted _ s)

/-- An event moves units C and L only as listed, and the output trace only grows. -/
theorem runEvent_moves (ev : Event) (s t : State) (h : runEvent ev s = .next t) : Moves s t := by
  cases ev with
  | wr r w => exact hostWrite_moves r w s t h
  | rd r k => exact hostRead_moves r k s t h
  | rst => cases h; exact resetBlock_moves s
  | agent a =>
    cases a with
    | bus => exact busTurn_moves s t h
    | linePhase x => cases h; exact phaseTurn_moves x s
    | lineWord x => cases h; exact wordTurn_moves x s
    | optical k => cases h; exact .ofLink (.linkDrawn k)
    | engine => cases h; exact engineTurn_moves s

end Sys2Proof.Machine
end

