-- ==== Sys2Proof/Proofs/Scope.lean ====
section
/-! PROOFS. Steps and events (O8, O26), what no event changes or lets fall (O55), and the state after power-on (O53). -/

namespace Sys2Proof.Machine

/-! ## A step runs the decoded instruction -/

theorem step_scripted {s : State} {e : Event} {es : List Event} (h : s.script = e :: es) :
    step s = runEvent e { s with script := es } := by rw [step, takeEvent_script e es s h]

theorem step_free {s : State} (h : s.script = []) :
    step s = runEvent (Config.schedule s.turn) { s with turn := s.turn + 1 } := by rw [step, takeEvent_free s h]

/-- A write to a command port is the command its word decodes to. -/
theorem hostWrite_port {r : Reg} {w : Word} {i : Instr} (hr : regClass r = .port) (hd : decode (.write r w) = .ok i)
    (s : State) : hostWrite r w s = exec i s := by
  simp only [hostWrite, hr, hd]

/-- The bus agent's turn is the form the head of its queue decodes to, that word taken off. -/
theorem busTurn_cons {s : State} {w : Word} {q : List Word} {i : Instr} (hq : s.codec.cmdq = w :: q)
    (hd : decode (.dispatch s.codec.variant w) = .ok i) :
    busTurn s = exec i (setCodec { s.codec with cmdq := q } s) := by
  simp only [busTurn, hq, hd]

/-- Settles O8: each kind of event is taken off the script, then runs its decoded instruction. -/
theorem stepRunsTheDecodedInstruction : Obligations.StepRunsTheDecodedInstruction := by
  refine ⟨?port, ?pop, ?bus, fun s h => step_free h⟩
  case port =>
    intro s r w es i hr hs hd
    exact (step_scripted hs).trans (hostWrite_port hr hd _)
  case pop =>
    intro s k es hs
    exact step_scripted hs
  case bus =>
    intro s w q es i hs hq hd
    exact (step_scripted hs).trans (busTurn_cons (s := { s with script := es }) hq hd)

/-! ## Every queued word has a meaning, so every event answers a next state -/

/-- Every word of the command queue is a form of the variant in force. -/
def Codec.QueueDecodes (c : Codec) : Prop := ∀ w ∈ c.cmdq, ∃ i, decode (.dispatch c.variant w) = .ok i

theorem CodecSound.queueDecodes {s : State} (h : CodecSound s) : s.codec.QueueDecodes := fun w hw =>
  legal_decodes s.codec.variant s.codec.map w (h.queuedLegal w hw)

/-- Every instruction has a meaning. -/
theorem exec_next (i : Instr) (s : State) : ∃ t, exec i s = .next t := by
  cases i <;> exact ⟨_, rfl⟩

theorem hostWrite_next (r : Reg) (w : Word) (s : State) : ∃ t, hostWrite r w s = .next t := by
  unfold hostWrite
  split
  · split
    · exact exec_next _ s
    · exact ⟨_, rfl⟩
  all_goals exact ⟨_, rfl⟩

theorem hostRead_next (r : Reg) (k : Nat) (s : State) : ∃ t, hostRead r k s = .next t := by
  unfold hostRead
  split
  · exact exec_next _ s
  · exact ⟨_, rfl⟩

/-- The bus agent's turn is the one event that could stop, and a queue that decodes keeps it from it. -/
theorem busTurn_next {s : State} (h : s.codec.QueueDecodes) : ∃ t, busTurn s = .next t := by
  cases hq : s.codec.cmdq with
  | nil => exact ⟨s, by simp only [busTurn, hq]⟩
  | cons w q =>
    obtain ⟨i, hd⟩ := h w (hq ▸ List.mem_cons_self)
    rw [busTurn_cons hq hd]
    exact exec_next i _

theorem runEvent_next (ev : Event) {s : State} (h : s.codec.QueueDecodes) : ∃ t, runEvent ev s = .next t := by
  cases ev with
  | wr r w => exact hostWrite_next r w s
  | rd r k => exact hostRead_next r k s
  | rst => exact ⟨_, rfl⟩
  | agent a =>
    cases a with
    | bus => exact busTurn_next h
    | linePhase x | lineWord x | optical k | engine => exact ⟨_, rfl⟩

/-- Settles O26: the queue of a sound state decodes, whatever the schedule makes the next event. -/
theorem soundStatesAlwaysStep : Obligations.SoundStatesAlwaysStep := fun s hs =>
  runEvent_next _ (by rw [takeEvent_codec]; exact hs.queueDecodes)

/-! ## What no event changes or lets fall -/

/-- A line's entry with the same identity and no draw counter smaller (R72). -/
structure LineEntry.Later (e e' : LineEntry) : Prop where
  id : e'.id = e.id
  paSeq : e.paSeq ≤ e'.paSeq
  waSeq : e.waSeq ≤ e'.waSeq
  capSeq : e.capSeq ≤ e'.capSeq

theorem LineEntry.Later.refl (e : LineEntry) : e.Later e := ⟨rfl, le_rfl, le_rfl, le_rfl⟩

/-- The entries of a table, each replaced by a later one. -/
def LinesLater (ls ls' : List LineEntry) : Prop := ∃ f, (∀ e : LineEntry, e.Later (f e)) ∧ ls' = ls.map f

theorem LinesLater.refl (ls : List LineEntry) : LinesLater ls ls := ⟨id, LineEntry.Later.refl, (List.map_id ls).symm⟩

theorem LinesLater.ofUpdateLine (x : LineId) {f : LineEntry → LineEntry} (hf : ∀ e : LineEntry, e.Later (f e))
    (ls : List LineEntry) : LinesLater ls (updateLine x f ls) := by
  refine ⟨fun e => if e.id = x then f e else e, fun e => ?_, rfl⟩
  by_cases h : e.id = x
  · simpa only [if_pos h] using hf e
  · simpa only [if_neg h] using LineEntry.Later.refl e

/-- A line's record replaced leaves its identity and its counters. -/
theorem LinesLater.ofSetTuning (x : LineId) (tu : LineTuning) (s : State) :
    LinesLater s.link.lines (setTuning x tu s).link.lines :=
  .ofUpdateLine x (f := fun e => { e with tuning := tu }) (fun _ => ⟨rfl, le_rfl, le_rfl, le_rfl⟩) _

theorem LinesLater.ids {ls ls' : List LineEntry} (h : LinesLater ls ls') :
    ls'.map LineEntry.id = ls.map LineEntry.id := by
  obtain ⟨f, hf, rfl⟩ := h
  rw [List.map_map]
  exact List.map_congr_left fun e _ => (hf e).id

theorem LinesLater.getElem? {ls ls' : List LineEntry} (h : LinesLater ls ls') {j : Nat} {e : LineEntry}
    (he : ls[j]? = some e) : ∃ e', ls'[j]? = some e' ∧ e.Later e' := by
  obtain ⟨f, hf, rfl⟩ := h
  exact ⟨f e, by rw [List.getElem?_map, he]; rfl, hf e⟩

theorem LinkMove.linesLater {s : State} {l : Link} (h : LinkMove s l) : LinesLater s.link.lines l.lines := by
  cases h with
  | same | replied | linksReset | linkSelected | linkDrawn => exact .refl _
  | reset => exact ⟨fun e => { e with tuning := .initial }, fun _ => ⟨rfl, le_rfl, le_rfl, le_rfl⟩, rfl⟩
  | modeSet | patternSet | phaseStarted | wordStarted => exact .ofSetTuning _ _ s
  | captured =>
    exact .ofUpdateLine _ (f := fun e => { e with capSeq := e.capSeq + 1 })
      (fun _ => ⟨rfl, le_rfl, le_rfl, Nat.le_succ _⟩) _
  | phaseStepped => exact .ofUpdateLine _ (f := LineEntry.phaseStep) (fun _ => ⟨rfl, Nat.le_succ _, le_rfl, le_rfl⟩) _
  | wordStepped => exact .ofUpdateLine _ (f := LineEntry.wordStep) (fun _ => ⟨rfl, le_rfl, Nat.le_succ _, le_rfl⟩) _

/-- As many links, and no draw counter smaller (R72). -/
structure LinksLater (ks ks' : List OptLink) : Prop where
  length : ks'.length = ks.length
  seq : ∀ (k : Nat) (o : OptLink), ks[k]? = some o → ∃ o', ks'[k]? = some o' ∧ o.seq ≤ o'.seq

theorem LinksLater.refl (ks : List OptLink) : LinksLater ks ks := ⟨rfl, fun _ o h => ⟨o, h, le_rfl⟩⟩

/-- Status bits cleared leave the counters. -/
theorem LinksLater.ofCleared (ks : List OptLink) : LinksLater ks (ks.map fun k => { k with status := linkDown }) where
  length := List.length_map _
  seq := fun k o h => ⟨{ o with status := linkDown }, by rw [List.getElem?_map, h]; rfl, le_rfl⟩

theorem LinksLater.ofMapIdx {f : Nat → OptLink → OptLink} (hf : ∀ k o, o.seq ≤ (f k o).seq) (ks : List OptLink) :
    LinksLater ks (ks.mapIdx f) where
  length := List.length_mapIdx
  seq := fun k o h => ⟨f k o, by rw [List.getElem?_mapIdx, h]; rfl, hf k o⟩

theorem LinkMove.linksLater {s : State} {l : Link} (h : LinkMove s l) : LinksLater s.link.links l.links := by
  cases h with
  | reset | linksReset => exact .ofCleared _
  | linkDrawn k =>
    refine .ofMapIdx (fun j o => ?_) _
    by_cases h : j = k
    · simp only [if_pos h]; exact Nat.le_succ _
    · simp only [if_neg h]; exact le_rfl
  | same | replied | modeSet | patternSet | phaseStarted | wordStarted | captured | linkSelected | phaseStepped
  | wordStepped => exact .refl _

theorem CodecMove.busSeq_le {s : State} {c : Codec} (h : CodecMove s c) : s.codec.busSeq ≤ c.busSeq := by
  cases h with
  | dispatched => exact Nat.le_succ _
  | encoded =>
    unfold Codec.encStored
    split <;> exact le_rfl
  | same | reset | unconfigured | configured | flushed | added | resultCleared | missed | decoded | locked | pushed
  | popped | selected => exact le_rfl

/-- A poll counts one sample, and no block read. -/
theorem Readout.poll_seqs (r : Readout) (smp : BufSample) :
    (r.poll smp).smpSeq = r.smpSeq + 1 ∧ (r.poll smp).rdSeq = r.rdSeq := by
  rcases r.poll_cases smp with ⟨-, -, h⟩ | ⟨-, -, -, -, h⟩ | ⟨-, -, -, -, -, h⟩ | ⟨-, -, -, -, h⟩ | ⟨-, -, h⟩ |
    ⟨-, -, -, -, h⟩ | ⟨-, -, -, -, h⟩ <;> rw [h] <;> exact ⟨rfl, rfl⟩

/-- A carving asks no oracle. -/
theorem Readout.carve_rdSeq (r : Readout) : r.carve.1.rdSeq = r.rdSeq := by
  rcases r.carve_cases with ⟨-, h⟩ | ⟨os, -, ⟨-, -, h⟩ | ⟨-, h⟩⟩ <;> rw [h]

/-- A read step counts its block read, when it makes one, and no sample. -/
theorem Readout.readStep_seqs (r : Readout) (p : Params) (n : Nat) :
    (r.readStep p n).1.smpSeq = r.smpSeq ∧ r.rdSeq ≤ (r.readStep p n).1.rdSeq := by
  obtain ⟨-, -, -, -, -, -, -, hsmp, -⟩ := r.readStep_frame p n
  refine ⟨hsmp, ?_⟩
  rcases r.readStep_cases p n with ⟨-, h⟩ | ⟨-, h⟩ <;> rw [h]
  rw [Readout.carve_rdSeq]
  exact Nat.le_succ _

/-- A turn of the engine lets neither of its draw counters fall. -/
theorem engineTurn_seqs (s : State) :
    s.readout.smpSeq ≤ (engineTurn s).readout.smpSeq ∧ s.readout.rdSeq ≤ (engineTurn s).readout.rdSeq := by
  cases hs : s.readout.state with
  | idle | decoded | error => rw [engineTurn_waits s (by rw [hs]; rfl)]; exact ⟨le_rfl, le_rfl⟩
  | waitingForWords =>
    obtain ⟨hsmp, hrd⟩ := s.readout.poll_seqs (Config.bufSample s.readout.smpSeq)
    rw [engineTurn_waiting s hs, setReadout_readout, hsmp, hrd]
    exact ⟨Nat.le_succ _, le_rfl⟩
  | handshake =>
    rw [engineTurn_handshake s hs, finishStep_readout, Readout.handshakeRead]
    split
    · exact ⟨le_rfl, le_rfl⟩
    · obtain ⟨hsmp, hrd⟩ := s.readout.readStep_seqs s.params s.readout.latWc.toNat
      exact ⟨hsmp.ge, hrd⟩
  | directRead =>
    obtain ⟨hsmp, hrd⟩ := s.readout.readStep_seqs s.params
      (if s.readout.kind = .av then s.readout.latWc.toNat else s.readout.targetWords)
    rw [engineTurn_directRead s hs, finishStep_readout]
    exact ⟨hsmp.ge, hrd⟩
  | stalled =>
    rw [engineTurn_stalled s hs, finishStep_readout, Readout.stall]
    split <;> exact ⟨le_rfl, le_rfl⟩
  | recoveryStop | recoveryReset | recoveryStart =>
    simp only [engineTurn, hs]
    exact ⟨le_rfl, le_rfl⟩

theorem ReadoutMove.seqs_le {s : State} {r : Readout} (h : ReadoutMove s r) :
    s.readout.smpSeq ≤ r.smpSeq ∧ s.readout.rdSeq ≤ r.rdSeq := by
  cases h with
  | turn => exact engineTurn_seqs s
  | same | abort | reset | startAv | startN | cnfg | timeout | trig | evsize => exact ⟨le_rfl, le_rfl⟩

/-- Settles O55, from what an event can make of each unit. -/
theorem parametersStayAndTheTraceOnlyGrows : Obligations.ParametersStayAndTheTraceOnlyGrows := by
  intro ev s t h
  obtain ⟨hparams, hreadout⟩ := runEvent_readout ev s t h
  obtain ⟨hcodec, hlink, htrace⟩ := runEvent_moves ev s t h
  obtain ⟨hsmp, hrd⟩ := hreadout.seqs_le
  refine ⟨hparams, hlink.linesLater.ids, hlink.linksLater.length, htrace, hcodec.busSeq_le, hsmp, hrd,
    fun j e he => ?_, hlink.linksLater.seq⟩
  obtain ⟨e', he', hl⟩ := hlink.linesLater.getElem? he
  exact ⟨e', he', hl.id, hl.paSeq, hl.waSeq, hl.capSeq⟩

end Sys2Proof.Machine
end

