-- ==== Sys2Proof/Proofs/PowerOn.lean ====
section
/-! PROOFS. The state after power-on is sound and reads as 10_state.md R76 says (O53). -/

namespace Sys2Proof.Machine

/-- What R8 asks of the parameters, as propositions. -/
theorem Params.inRange_iff (p : Params) :
    p.inRange = true ↔
      1 ≤ p.nSlaves ∧ p.nSlaves ≤ 256 ∧ 1 ≤ p.nCapWords ∧ 1 ≤ p.cmdFifoDepth ∧ p.cmdFifoDepth ≤ 65535
        ∧ 1 ≤ p.replyFifoDepth ∧ p.replyFifoDepth ≤ 65535
        ∧ 4 ≤ p.roOutDepth ∧ p.roOutDepth ≤ 2 ^ 32 - 4 ∧ p.roOutDepth % 4 = 0
        ∧ 1 ≤ p.ddr3RingWords ∧ p.ddr3RingWords ≤ 2 ^ 32 := by
  simp only [Params.inRange, Bool.and_eq_true, decide_eq_true_eq, and_assoc]

/-- The defaults of R8 lie in its ranges. -/
theorem Config.params_inRange : Config.params.inRange = true := by
  rw [Params.inRange_iff]
  decide

/-- The bits `lrc.ro.cnfg` holds after reset are bits it stores. -/
theorem cnfgInitial_masked (p : Params) : cnfgInitial p &&& cnfgMask = cnfgInitial p := by
  unfold cnfgInitial cnfgMask
  generalize p.maxRecoveryReset = b
  revert b
  decide

/-- The line record after reset is in row Idle of R62. -/
theorem LineTuning.initial_sound : LineTuning.initial.Sound where
  idleOutsidePattern := fun _ => ⟨rfl, rfl⟩
  wordAfterPhase := fun h => absurd rfl h
  phaseNeedsPattern := fun h => absurd rfl h
  patternHasLength := nofun
  doneMeansSet := nofun

section

variable (p : Params) (ls : List LineId) (n : Nat)

theorem powerOn_lineIds : (State.powerOn p ls n).lineIds = ls.dedup := by
  simp [State.lineIds, State.powerOn, Function.comp_def]

theorem powerOn_codecSound : CodecSound (State.powerOn p ls n) where
  tableFits := Nat.zero_le _
  keysUnique := .nil
  widthsLegal := nofun
  linksFit := nofun
  unconfiguredEmpty := fun _ => ⟨rfl, rfl⟩
  queuedAfterLock := fun _ => rfl
  queuedLegal := nofun
  commandsFit := Nat.zero_le _
  repliesFit := Nat.zero_le _
  resultCount := show (0#2 : BitVec 2) ≠ 3#2 by decide

theorem powerOn_linkSound : LinkSound (State.powerOn p ls n) where
  oneEntryPerLine := (congrArg List.Nodup (powerOn_lineIds p ls n)).mpr (List.nodup_dedup ls)
  recordsSound := fun e he => by
    obtain ⟨x, -, rfl⟩ := List.mem_map.1 he
    exact LineTuning.initial_sound
  debugWordsFit := List.length_replicate
  selectionExists := .inl rfl

/-- The cursor, 0, lies in a ring of at least one word. -/
theorem powerOn_readoutSound (hp : p.inRange = true) : ReadoutSound (State.powerOn p ls n) where
  cnfgReserved := cnfgInitial_masked p
  evsizeReserved := show 0#32 &&& evsizeMask = 0#32 by decide
  cursorInRing := by
    obtain ⟨-, -, -, -, -, -, -, -, -, -, hring, -⟩ := (Params.inRange_iff p).1 hp
    exact hring
  wordsFit := Nat.zero_le _
  framesFit := Nat.zero_le _
  busyHoldsNothing := nofun
  idleNoResult := fun _ => rfl
  decodedOk := nofun
  errorSaysWhy := nofun
  waitingPolls := nofun
  waitingNoprog := nofun
  pollsBounded := nofun
  noprogBounded := nofun
  recoveriesBounded := nofun
  recoveryLeft := by rintro (h | h | h) <;> cases h
  requestFits := nofun

theorem powerOn_sound (hp : p.inRange = true) (hn : n ≤ 16) : Sound (State.powerOn p ls n) where
  paramsInRange := hp
  linksInRange := (List.length_replicate).trans_le hn
  errorReserved := show bits 0#32 18 14 = 0#14 by decide
  codec := powerOn_codecSound p ls n
  link := powerOn_linkSound p ls n
  readout := powerOn_readoutSound p ls n hp

theorem powerOn_debugWords (k : Nat) : readReg .debugWords k (State.powerOn p ls n) = 0#32 := by
  simp only [readReg, State.powerOn, List.getD_eq_getElem?_getD, List.getElem?_replicate]
  split <;> rfl

/-- Link 0 is selected, and its status bits read 0 whether it exists or not (R47). -/
theorem powerOn_opticalStat : readReg .opticalStat 0 (State.powerOn p ls n) = 0#32 := by
  cases n with
  | zero => show 0#20 ++ 0#4 ++ 0#5 ++ 0#3 = 0#32; decide
  | succ n => show 0#20 ++ 0#4 ++ 0#5 ++ OptStatus.bits linkDown = 0#32; decide

/-- The registers of unit C made of several fields read 0. -/
theorem powerOn_codecFields :
    readReg .codecStat 0 (State.powerOn p ls n) = 0#32 ∧ readReg .mapSel 0 (State.powerOn p ls n) = 0#32
      ∧ readReg .encCount 0 (State.powerOn p ls n) = 0#32 ∧ readReg .fifoStat 0 (State.powerOn p ls n) = 0#32 := by
  show (Codec.initial 0).stat = 0#32 ∧ 0#24 ++ 0#8 = 0#32 ∧ 0#30 ++ 0#2 = 0#32 ∧ (Codec.initial 0).fifoStat = 0#32
  decide

/-- The registers of unit R made of several fields read 0: Idle, result NONE, no recovery begun. -/
theorem powerOn_readoutFields :
    readReg .roStat 0 (State.powerOn p ls n) = 0#32 ∧ readReg .roNoprog 0 (State.powerOn p ls n) = 0#32 := by
  show 0#14 ++ bit false ++ bit false ++ 0#8 ++ 0#4 ++ 0#4 = 0#32 ∧ 0#24 ++ 0#8 = 0#32
  decide

end

/-- Settles O53: each unit's invariant at power-on, and the registers one by one. -/
theorem resetStateIsSound : Obligations.ResetStateIsSound := by
  refine ⟨fun p ls n hp hn => ?_, ?_, rfl⟩
  · obtain ⟨hstat, hsel, hcount, hfifo⟩ := powerOn_codecFields p ls n
    obtain ⟨hro, hnoprog⟩ := powerOn_readoutFields p ls n
    refine ⟨powerOn_sound p ls n hp hn, fun x => ?_, List.length_replicate, rfl, hstat, hsel, rfl, hcount, rfl, rfl,
      rfl, hfifo, rfl, powerOn_debugWords p ls n, powerOn_opticalStat p ls n, rfl, rfl, rfl, rfl, hro, rfl, rfl,
      fun _ => ⟨rfl, rfl⟩, rfl, rfl, hnoprog⟩
    rw [powerOn_lineIds]
    exact List.mem_dedup
  · exact powerOn_sound _ _ _ Config.params_inRange (Nat.le_of_lt_succ Config.nLinks.isLt)

end Sys2Proof.Machine
end

