-- ==== Sys2Proof/Proofs/Fairness.lean ====
section
/-! PROOFS. Weakly fair runs (O57). A run from a sound state never stops, since the command queue keeps decoding
(`Codec.QueueDecodes`). An agent that stays enabled steps; a step of the bus agent or of a line's agent ends what
waits for it, and every turn of the busy engine lowers `Readout.stepsLeft`, which no other event raises. -/

namespace Sys2Proof.Machine

/-! ## The command queue keeps decoding -/

/-- The variant changes only where the queue is emptied, and only legal words are queued. -/
theorem CodecMove.queueDecodes {s : State} {c : Codec} (h : CodecMove s c) (hs : s.codec.QueueDecodes) :
    c.QueueDecodes := by
  cases h with
  | reset | unconfigured | configured | flushed => exact nofun
  | pushed w _ hl =>
    intro w' hw'
    rcases List.mem_append.1 hw' with hw' | hw'
    · exact hs w' hw'
    · rw [List.mem_singleton.1 hw']
      exact legal_decodes s.codec.variant s.codec.map w hl
  | dispatched q rq hq => exact fun w hw => hs w (hq.subset hw)
  | encoded =>
    unfold Codec.encStored
    split <;> exact hs
  | same | added | resultCleared | missed | decoded | locked | popped | selected => exact hs

/-! ## The engine's steps in a request are bounded -/

/-- The counters that bound a request have room left: the polls of a wait below their bound, a recovery under way
within `max_recovery` (42_readout_engine.md R247, R255, R264). -/
structure Readout.Paced (r : Readout) : Prop where
  waitingPolls : r.state = .waitingForWords → r.polls = 0#32 ∨ r.polls.toNat < r.timeoutPolls.toNat
  recoveryLeft : r.state = .recoveryStop ∨ r.state = .recoveryReset ∨ r.state = .recoveryStart →
    r.recovCount.toNat < r.maxRecovery.toNat

theorem ReadoutSound.paced {s : State} (h : ReadoutSound s) : s.readout.Paced := ⟨h.waitingPolls, h.recoveryLeft⟩

/-- Outside a wait and a recovery nothing is counted. -/
theorem Readout.Paced.of_state {r : Readout}
    (h : r.state = .idle ∨ r.state = .handshake ∨ r.state = .directRead ∨ r.state = .decoded ∨ r.state = .stalled
      ∨ r.state = .error) : r.Paced := by
  constructor
  · intro h'; simp [h'] at h
  · rintro (h' | h' | h') <;> simp [h'] at h

/-- A bound on the turns the engine still takes before the next wait begins or the request ends, with so many polls
made in this one. -/
def RoState.stage (polls : Nat) : RoState → Nat
  | .waitingForWords => 10 + (2 ^ 32 - polls)
  | .handshake => 6
  | .directRead => 5
  | .stalled => 4
  | .recoveryStop => 3
  | .recoveryReset => 2
  | .recoveryStart => 1
  | .idle | .decoded | .error => 0

/-- A bound on the turns the engine still takes in a request: one round for each recovery left, then the stage. -/
def Readout.stepsLeft (r : Readout) : Nat :=
  (r.maxRecovery.toNat - r.recovCount.toNat) * 2 ^ 33 + r.state.stage r.polls.toNat

/-- Within a round the bound falls with the stage. -/
theorem Readout.stepsLeft_lt {r r' : Readout} (hc : r'.cnfg = r.cnfg) (hr : r'.recovCount = r.recovCount)
    (h : r'.state.stage r'.polls.toNat < r.state.stage r.polls.toNat) : r'.stepsLeft < r.stepsLeft := by
  unfold Readout.stepsLeft Readout.maxRecovery
  rw [hc, hr]
  exact Nat.add_lt_add_left h _

/-- What a turn of the busy engine does for the bound: unit R stays paced and has fewer steps left. -/
def Readout.Advances (r r' : Readout) : Prop := r'.Paced ∧ r'.stepsLeft < r.stepsLeft

/-- The wait left for a read or a stall. -/
theorem Readout.Advances.of_wait_left {r r' : Readout} (hs : r.state = .waitingForWords) (hc : r'.cnfg = r.cnfg)
    (hr : r'.recovCount = r.recovCount)
    (h : r'.state = .stalled ∨ r'.state = .handshake ∨ r'.state = .directRead) : r.Advances r' := by
  refine ⟨.of_state (by tauto), stepsLeft_lt hc hr ?_⟩
  rcases h with h | h | h <;> simp only [hs, h, RoState.stage] <;> omega

/-- The wait gone on with, one poll more counted: below its bound the count does not wrap. -/
theorem Readout.Advances.of_polled {r r' : Readout} (hs : r.state = .waitingForWords) (hp : r.Paced)
    (hlt : (r.polls + 1#32).toNat < r.timeoutPolls.toNat) (hc : r'.cnfg = r.cnfg)
    (hr : r'.recovCount = r.recovCount) (ht : r'.timeoutPolls = r.timeoutPolls) (hs' : r'.state = .waitingForWords)
    (hpolls : r'.polls = r.polls + 1#32) : r.Advances r' := by
  refine ⟨⟨fun _ => .inr (by rw [hpolls, ht]; exact hlt), by simp [hs']⟩, stepsLeft_lt hc hr ?_⟩
  have htimeout := r.timeoutPolls.isLt
  have hnowrap : (r.polls + 1#32).toNat = r.polls.toNat + 1 := by
    rcases hp.waitingPolls hs with h0 | h0
    · rw [h0]; rfl
    · rw [BitVec.toNat_add]; exact Nat.mod_eq_of_lt (by simp; omega)
  simp only [hs, hs', hpolls, hnowrap, RoState.stage]
  omega

/-- A poll latches and leaves the wait, or goes on with it. -/
theorem Readout.poll_advances {r : Readout} (smp : BufSample) (hs : r.state = .waitingForWords) (hp : r.Paced) :
    r.Advances (r.poll smp) := by
  rcases r.poll_cases smp with ⟨-, -, h⟩ | ⟨-, -, -, -, h⟩ | ⟨-, -, -, -, -, h⟩ | ⟨-, -, hlt, -, h⟩ | ⟨-, -, h⟩ |
    ⟨-, -, -, -, h⟩ | ⟨-, -, -, hlt, h⟩ <;> rw [h]
  · exact .of_wait_left hs rfl rfl (.inr (.inl rfl))
  · exact .of_wait_left hs rfl rfl (.inl rfl)
  · exact .of_wait_left hs rfl rfl (.inr (.inl rfl))
  · exact .of_polled hs hp hlt rfl rfl rfl hs rfl
  · exact .of_wait_left hs rfl rfl (.inr (.inr rfl))
  · exact .of_wait_left hs rfl rfl (.inl rfl)
  · exact .of_polled hs hp hlt rfl rfl rfl hs rfl

/-- A read step ends the request. -/
theorem Readout.readStep_advances {r : Readout} (p : Params) (n : Nat) (hb : 0 < r.state.stage r.polls.toNat) :
    r.Advances (r.readStep p n).1 := by
  obtain ⟨hc, -, -, -, -, -, hr, -, h⟩ := r.readStep_frame p n
  refine ⟨.of_state (by tauto), stepsLeft_lt hc hr ?_⟩
  rcases h with h | h <;> rw [h] <;> exact hb

theorem Readout.handshakeRead_advances {r : Readout} (p : Params) (hs : r.state = .handshake) :
    r.Advances (r.handshakeRead p).1 := by
  unfold Readout.handshakeRead
  split
  · exact ⟨.of_state (by simp), stepsLeft_lt rfl rfl (by simp [hs, RoState.stage])⟩
  · exact readStep_advances p _ (by simp [hs, RoState.stage])

/-- A stall begins a recovery only when one is left. -/
theorem Readout.stall_advances {r : Readout} (hs : r.state = .stalled) : r.Advances r.stall.1 := by
  unfold Readout.stall
  split
  · rename_i hlt
    exact ⟨⟨nofun, fun _ => hlt⟩, stepsLeft_lt rfl rfl (by simp [hs, RoState.stage])⟩
  · exact ⟨.of_state (by simp), stepsLeft_lt rfl rfl (by simp [hs, RoState.stage])⟩

/-- The restart of the wait counts one recovery, without a wrap: one round fewer is left. -/
theorem Readout.restarted_advances {r : Readout} (hs : r.state = .recoveryStart) (hp : r.Paced) :
    r.Advances r.restarted := by
  have hlt := hp.recoveryLeft (.inr (.inr hs))
  have hmax := r.maxRecovery.isLt
  have hcount : (r.recovCount + 1#8).toNat = r.recovCount.toNat + 1 := by
    rw [BitVec.toNat_add]; exact Nat.mod_eq_of_lt (by simp; omega)
  refine ⟨⟨fun _ => .inl rfl, by simp [Readout.restarted]⟩, ?_⟩
  show (r.maxRecovery.toNat - (r.recovCount + 1#8).toNat) * 2 ^ 33 + (10 + (2 ^ 32 - 0)) < r.stepsLeft
  simp only [Readout.stepsLeft, hs, hcount, RoState.stage]
  omega

theorem engineTurn_advances {s : State} (hb : s.readout.state.busy = true) (hp : s.readout.Paced) :
    s.readout.Advances (engineTurn s).readout := by
  cases hs : s.readout.state with
  | idle | decoded | error => rw [hs] at hb; cases hb
  | waitingForWords => rw [engineTurn_waiting s hs]; exact Readout.poll_advances _ hs hp
  | handshake => rw [engineTurn_handshake s hs, finishStep_readout]; exact Readout.handshakeRead_advances _ hs
  | directRead =>
    rw [engineTurn_directRead s hs, finishStep_readout]
    exact Readout.readStep_advances _ _ (by simp [hs, RoState.stage])
  | stalled => rw [engineTurn_stalled s hs, finishStep_readout]; exact Readout.stall_advances hs
  | recoveryStop =>
    simp only [engineTurn, hs]
    exact ⟨⟨nofun, fun _ => hp.recoveryLeft (.inl hs)⟩,
      Readout.stepsLeft_lt rfl rfl (by simp [hs, RoState.stage])⟩
  | recoveryReset =>
    simp only [engineTurn, hs]
    exact ⟨⟨nofun, fun _ => hp.recoveryLeft (.inr (.inl hs))⟩,
      Readout.stepsLeft_lt rfl rfl (by simp [hs, RoState.stage])⟩
  | recoveryStart => simp only [engineTurn, hs]; exact Readout.restarted_advances hs hp

/-- Every move of unit R keeps it paced: a configuration register is written only while the engine waits. -/
theorem ReadoutMove.paced {s : State} {r : Readout} (h : ReadoutMove s r) (hp : s.readout.Paced) : r.Paced := by
  have idle : ∀ r' : Readout, r'.state = s.readout.state → s.readout.state.busy = false → r'.Paced := by
    intro r' hr hb
    apply Readout.Paced.of_state
    rw [hr]
    cases hs : s.readout.state <;> simp_all [RoState.busy]
  cases h with
  | same => exact hp
  | abort | reset => exact .of_state (.inl rfl)
  | startAv | startN => exact ⟨fun _ => .inl rfl, by simp [Readout.start]⟩
  | cnfg w hb | timeout w hb | trig w hb | evsize w hb => exact idle _ rfl hb
  | turn =>
    cases hb : s.readout.state.busy with
    | true => exact (engineTurn_advances hb hp).1
    | false => rw [engineTurn_waits s hb]; exact hp

/-- No move from a busy state to a busy state raises the bound: only the engine's turn touches a request. -/
theorem ReadoutMove.stepsLeft_le {s : State} {r : Readout} (h : ReadoutMove s r) (hp : s.readout.Paced)
    (hs : s.readout.state.busy = true) (hr : r.state.busy = true) : r.stepsLeft ≤ s.readout.stepsLeft := by
  cases h with
  | same => exact le_rfl
  | abort | reset => cases hr
  | startAv hb | startN _ _ hb | cnfg _ hb | timeout _ hb | trig _ hb | evsize _ hb => simp [hs] at hb
  | turn => exact (engineTurn_advances hs hp).2.le

/-! ## Runs that never stop -/

@[simp] theorem eventUnder_params (sched : Nat → Event) (s : State) : (eventUnder sched s).2.params = s.params := by
  unfold eventUnder; split <;> rfl
@[simp] theorem eventUnder_codec (sched : Nat → Event) (s : State) : (eventUnder sched s).2.codec = s.codec := by
  unfold eventUnder; split <;> rfl
@[simp] theorem eventUnder_link (sched : Nat → Event) (s : State) : (eventUnder sched s).2.link = s.link := by
  unfold eventUnder; split <;> rfl
@[simp] theorem eventUnder_readout (sched : Nat → Event) (s : State) : (eventUnder sched s).2.readout = s.readout := by
  unfold eventUnder; split <;> rfl

/-- What every state of a run keeps: a queue that decodes, a paced unit R, and the lines there are. -/
structure KeepsRunning (ids : List LineId) (s : State) : Prop where
  queue : s.codec.QueueDecodes
  paced : s.readout.Paced
  lines : s.lineIds = ids

theorem Sound.keepsRunning {s : State} (h : Sound s) : KeepsRunning s.lineIds s :=
  ⟨h.codec.queueDecodes, h.readout.paced, rfl⟩

theorem runEvent_keepsRunning {ids : List LineId} {ev : Event} {s t : State} (h : runEvent ev s = .next t)
    (hs : KeepsRunning ids s) : KeepsRunning ids t where
  queue := (runEvent_moves ev s t h).codec.queueDecodes hs.queue
  paced := (runEvent_readout ev s t h).2.paced hs.paced
  lines := (runEvent_moves ev s t h).link.linesLater.ids.trans hs.lines

theorem eventUnder_keepsRunning {ids : List LineId} (sched : Nat → Event) {s : State} (h : KeepsRunning ids s) :
    KeepsRunning ids (eventUnder sched s).2 where
  queue := by rw [eventUnder_codec]; exact h.queue
  paced := by rw [eventUnder_readout]; exact h.paced
  lines := by rw [State.lineIds, eventUnder_link]; exact h.lines

theorem stepUnder_keepsRunning {ids : List LineId} (sched : Nat → Event) {s : State} (h : KeepsRunning ids s) :
    ∃ t, stepUnder sched s = .next t ∧ KeepsRunning ids t := by
  have h' := eventUnder_keepsRunning sched h
  obtain ⟨t, ht⟩ := runEvent_next (eventUnder sched s).1 h'.queue
  exact ⟨t, ht, runEvent_keepsRunning ht h'⟩

theorem runUnder_keepsRunning {ids : List LineId} (sched : Nat → Event) {s : State} (h : KeepsRunning ids s) (n : Nat) :
    ∃ t, runUnder sched n s = some t ∧ KeepsRunning ids t := by
  induction n with
  | zero => exact ⟨s, rfl, h⟩
  | succ n ih =>
    obtain ⟨t, ht, hk⟩ := ih
    obtain ⟨u, hu, hk'⟩ := stepUnder_keepsRunning sched hk
    exact ⟨u, by simp only [runUnder, ht, hu], hk'⟩

/-- The states `σ 0, σ 1, …` are a run from `s` that never stops. -/
structure IsRun (sched : Nat → Event) (s : State) (σ : Nat → State) : Prop where
  at_step : ∀ n, runUnder sched n s = some (σ n)
  keeps : ∀ n, KeepsRunning s.lineIds (σ n)

theorem Sound.exists_run {s : State} (h : Sound s) (sched : Nat → Event) : ∃ σ, IsRun sched s σ := by
  choose σ hσ hk using runUnder_keepsRunning sched h.keepsRunning
  exact ⟨σ, hσ, hk⟩

section

variable {sched : Nat → Event} {s : State} {σ : Nat → State}

theorem IsRun.meets_iff (hσ : IsRun sched s σ) (m : Nat) (P : State → Prop) : runMeets sched s m P ↔ P (σ m) := by
  simp [runMeets, hσ.at_step m]

/-- Each state of the run comes from the one before by its event. -/
theorem IsRun.runEvent_eq (hσ : IsRun sched s σ) (n : Nat) :
    runEvent (eventUnder sched (σ n)).1 (eventUnder sched (σ n)).2 = .next (σ (n + 1)) := by
  obtain ⟨t, ht, hs⟩ := runUnder_succ (hσ.at_step (n + 1))
  rw [hσ.at_step n] at ht
  cases ht
  exact hs

/-- Where an agent has its turn, the next state is that of the turn. -/
theorem IsRun.agentTurn_eq (hσ : IsRun sched s σ) {m : Nat} {a : Agent}
    (ha : (eventUnder sched (σ m)).1 = .agent a) : agentTurn a (eventUnder sched (σ m)).2 = .next (σ (m + 1)) := by
  have h := hσ.runEvent_eq m
  rwa [ha] at h

/-- Weak fairness on a run: from any point on, an agent is some time not enabled or has its turn (R16). -/
theorem IsRun.disabled_or_turn (hσ : IsRun sched s σ) (hf : WeaklyFair sched s) (a : Agent) (n : Nat) :
    (∃ m, n ≤ m ∧ agentEnabled a (σ m) = false) ∨ ∃ m, n ≤ m ∧ (eventUnder sched (σ m)).1 = .agent a := by
  by_cases h : ∀ m, n ≤ m → agentEnabled a (σ m) = true
  · obtain ⟨m, hm, ht⟩ := hf a n fun m hm => (hσ.meets_iff m _).2 (h m hm)
    exact .inr ⟨m, hm, (hσ.meets_iff m _).1 ht⟩
  · push Not at h
    obtain ⟨m, hm, hd⟩ := h
    exact .inl ⟨m, hm, Bool.eq_false_of_not_eq_true hd⟩

/-! ## The bus agent -/

theorem IsRun.queue_served (hσ : IsRun sched s σ) (hf : WeaklyFair sched s) (n : Nat) :
    ∃ m, n ≤ m ∧ ((σ m).codec.cmdq = [] ∨ (eventUnder sched (σ m)).1 = .agent .bus) := by
  rcases hσ.disabled_or_turn hf .bus n with ⟨m, hm, hd⟩ | ⟨m, hm, ht⟩
  · exact ⟨m, hm, .inl (by simpa [agentEnabled] using hd)⟩
  · exact ⟨m, hm, .inr ht⟩

/-! ## A line's agent -/

/-- A line found once is found at every point of the run. -/
theorem IsRun.line_found (hσ : IsRun sched s σ) {x : LineId} {n : Nat} {e : LineEntry}
    (he : findLine x (σ n).link.lines = some e) (m : Nat) : ∃ e', findLine x (σ m).link.lines = some e' := by
  rw [← Option.isSome_iff_exists, findLine_isSome_iff]
  have hx : x ∈ (σ n).lineIds := (findLine_isSome_iff x _).1 (he ▸ rfl)
  rwa [(hσ.keeps n).lines, ← (hσ.keeps m).lines] at hx

/-- An alignment that its agent's turn always ends comes to an end: the agent stops being enabled, or has its turn. -/
theorem IsRun.alignment_ends (hσ : IsRun sched s σ) (hf : WeaklyFair sched s) {x : LineId} {a : Agent}
    {alignment : LineTuning → SubState}
    (henabled : ∀ t : State, agentEnabled a t =
      (findLine x t.link.lines).any fun e => decide (alignment e.tuning = .running))
    (hends : ∀ (t u : State) (e : LineEntry), agentTurn a t = .next u → findLine x u.link.lines = some e →
      alignment e.tuning ≠ .running)
    {n : Nat} {e : LineEntry} (he : findLine x (σ n).link.lines = some e) (hr : alignment e.tuning = .running) :
    ∃ m, n < m ∧ ∃ e', findLine x (σ m).link.lines = some e' ∧ alignment e'.tuning ≠ .running := by
  rcases hσ.disabled_or_turn hf a n with ⟨m, hm, hd⟩ | ⟨m, hm, ht⟩
  · obtain ⟨e', he'⟩ := hσ.line_found he m
    have hstopped : alignment e'.tuning ≠ .running := by simpa [henabled, he'] using hd
    refine ⟨m, lt_of_le_of_ne hm ?_, e', he', hstopped⟩
    rintro rfl
    rw [he] at he'
    cases he'
    exact hstopped hr
  · obtain ⟨e', he'⟩ := hσ.line_found he (m + 1)
    exact ⟨m + 1, Nat.lt_succ_of_le hm, e', he', hends _ _ e' (hσ.agentTurn_eq ht) he'⟩

end

theorem LineTuning.phaseResult_paState (t : LineTuning) (r : Option (BitVec 5)) :
    (t.phaseResult r).paState ≠ .running := by
  cases r <;> exact nofun

theorem LineTuning.wordResult_waState (t : LineTuning) (r : Option (BitVec 3)) :
    (t.wordResult r).waState ≠ .running := by
  cases r <;> exact nofun

/-- After its phase step a line's phase alignment is not RUNNING (R214). -/
theorem phaseTurn_ends {x : LineId} {t : State} {e : LineEntry}
    (he : findLine x (phaseTurn x t).link.lines = some e) : e.tuning.paState ≠ .running := by
  unfold phaseTurn at he
  split at he
  · rename_i hf; rw [hf] at he; cases he
  · rename_i e0 hf
    split at he
    · rw [setLink_link, findLine_updateLine (f := LineEntry.phaseStep) (fun _ => rfl), hf] at he
      cases he
      exact LineTuning.phaseResult_paState _ _
    · rename_i hr
      rw [hf] at he
      cases he
      exact hr

/-- After its word step a line's word alignment is not RUNNING (R216). -/
theorem wordTurn_ends {x : LineId} {t : State} {e : LineEntry}
    (he : findLine x (wordTurn x t).link.lines = some e) : e.tuning.waState ≠ .running := by
  unfold wordTurn at he
  split at he
  · rename_i hf; rw [hf] at he; cases he
  · rename_i e0 hf
    split at he
    · rw [setLink_link, findLine_updateLine (f := LineEntry.wordStep) (fun _ => rfl), hf] at he
      cases he
      exact LineTuning.wordResult_waState _ _
    · rename_i hr
      rw [hf] at he
      cases he
      exact hr

section

variable {sched : Nat → Event} {s : State} {σ : Nat → State}

theorem IsRun.phase_ends (hσ : IsRun sched s σ) (hf : WeaklyFair sched s) {x : LineId} {n : Nat} {e : LineEntry}
    (he : findLine x (σ n).link.lines = some e) (hr : e.tuning.paState = .running) :
    ∃ m, n < m ∧ ∃ e', findLine x (σ m).link.lines = some e' ∧ e'.tuning.paState ≠ .running := by
  refine hσ.alignment_ends hf (a := .linePhase x) (alignment := LineTuning.paState) (fun _ => rfl) ?_ he hr
  intro t u e' hu he'
  cases hu
  exact phaseTurn_ends he'

theorem IsRun.word_ends (hσ : IsRun sched s σ) (hf : WeaklyFair sched s) {x : LineId} {n : Nat} {e : LineEntry}
    (he : findLine x (σ n).link.lines = some e) (hr : e.tuning.waState = .running) :
    ∃ m, n < m ∧ ∃ e', findLine x (σ m).link.lines = some e' ∧ e'.tuning.waState ≠ .running := by
  refine hσ.alignment_ends hf (a := .lineWord x) (alignment := LineTuning.waState) (fun _ => rfl) ?_ he hr
  intro t u e' hu he'
  cases hu
  exact wordTurn_ends he'

/-! ## The engine -/

/-- While unit R stays busy, the bound on the engine's steps never rises. -/
theorem IsRun.stepsLeft_antitone (hσ : IsRun sched s σ) {n : Nat}
    (hb : ∀ m, n ≤ m → (σ m).readout.state.busy = true) {m : Nat} (hm : n ≤ m) :
    (σ m).readout.stepsLeft ≤ (σ n).readout.stepsLeft := by
  induction m, hm using Nat.le_induction with
  | base => exact le_rfl
  | succ m hm ih =>
    have hmove := (runEvent_readout _ _ _ (hσ.runEvent_eq m)).2
    have hle := hmove.stepsLeft_le (by rw [eventUnder_readout]; exact (hσ.keeps m).paced)
      (by rw [eventUnder_readout]; exact hb m hm) (hb (m + 1) (Nat.le_succ_of_le hm))
    rw [eventUnder_readout] at hle
    exact hle.trans ih

/-- A turn of the busy engine lowers the bound. -/
theorem IsRun.stepsLeft_lt_of_turn (hσ : IsRun sched s σ) {m : Nat} (hb : (σ m).readout.state.busy = true)
    (ht : (eventUnder sched (σ m)).1 = .agent .engine) :
    (σ (m + 1)).readout.stepsLeft < (σ m).readout.stepsLeft := by
  have hturn := hσ.agentTurn_eq ht
  simp only [agentTurn, Host.Outcome.next.injEq] at hturn
  have h := engineTurn_advances (s := (eventUnder sched (σ m)).2) (by rw [eventUnder_readout]; exact hb)
    (by rw [eventUnder_readout]; exact (hσ.keeps m).paced)
  rw [hturn, eventUnder_readout] at h
  exact h.2

/-- Unit R is not busy for ever: the engine would step without end, each time with fewer steps left. -/
theorem IsRun.not_busy_for_ever (hσ : IsRun sched s σ) (hf : WeaklyFair sched s) (n : Nat) :
    ¬ ∀ m, n ≤ m → (σ m).readout.state.busy = true := by
  intro hb
  induction hk : (σ n).readout.stepsLeft using Nat.strong_induction_on generalizing n with
  | _ k ih =>
    rcases hσ.disabled_or_turn hf .engine n with ⟨m, hm, hd⟩ | ⟨m, hm, ht⟩
    · exact absurd (hb m hm) (by rw [show (σ m).readout.state.busy = false from hd]; decide)
    · have hlt : (σ (m + 1)).readout.stepsLeft < k :=
        calc (σ (m + 1)).readout.stepsLeft < (σ m).readout.stepsLeft := hσ.stepsLeft_lt_of_turn (hb m hm) ht
          _ ≤ (σ n).readout.stepsLeft := hσ.stepsLeft_antitone hb hm
          _ = k := hk
      exact ih _ hlt (m + 1) (fun m' hm' => hb m' (by omega)) rfl

theorem IsRun.request_ends (hσ : IsRun sched s σ) (hf : WeaklyFair sched s) (n : Nat)
    (hb : (σ n).readout.state.busy = true) : ∃ m, n < m ∧ (σ m).readout.state.busy = false := by
  obtain ⟨m, hm⟩ := not_forall.1 (hσ.not_busy_for_ever hf n)
  obtain ⟨hle, hidle⟩ := Classical.not_imp.1 hm
  refine ⟨m, lt_of_le_of_ne hle ?_, Bool.eq_false_of_not_eq_true hidle⟩
  rintro rfl
  exact hidle hb

end

/-- Settles O57: the run never stops, and weak fairness gives each agent the turns that end what waits for it. -/
theorem fairRunsFinishWhatWaits : Obligations.FairRunsFinishWhatWaits := by
  intro sched s hs hf n
  obtain ⟨σ, hσ⟩ := hs.exists_run sched
  simp only [hσ.meets_iff]
  exact ⟨σ n, hσ.at_step n, fun _ => hσ.queue_served hf n,
    fun x e he => ⟨hσ.phase_ends hf he, hσ.word_ends hf he⟩, hσ.request_ends hf n⟩

end Sys2Proof.Machine
end

