-- ==== Sys2Proof/Proofs/CodecInvariant.lean ====
section
/-! PROOFS. Unit C's invariant (O25): every move of unit C keeps it. Most moves leave the table and at most shorten the
command queue (`CodecSound.ofSameTable`); the others empty both, append an entry, or append a legal word. -/

namespace Sys2Proof.Machine

/-- The invariant speaks of unit C and the parameters alone. -/
theorem CodecSound.congr {s t : State} (h : CodecSound s) (hc : t.codec = s.codec) (hp : t.params = s.params) :
    CodecSound t := by
  obtain ⟨h1, h2, h3, h4, h5, h6, h7, h8, h9, h10⟩ := h
  rw [← hc, ← hp] at *
  exact ⟨h1, h2, h3, h4, h5, h6, h7, h8, h9, h10⟩

/-- The checks of TXC.MAPADD all passed (R163). -/
theorem mapaddError_none_iff {c : Codec} {n : Nat} {e : MapEntry} :
    mapaddError c n e = none ↔
      bwOk e.bw = true ∧ c.configured = true ∧ c.mapLocked = false ∧ mapLookup c.map e.hybrid e.chip = none
        ∧ c.map.length ≠ n ∧ ¬ (c.variant = .opt ∧ localCount c.map e.link = 16) := by
  unfold mapaddError
  repeat' split
  all_goals simp_all

/-- An entry more counts at its own link. -/
theorem localCount_append (m : List MapEntry) (e : MapEntry) (k : Nibble) :
    localCount (m ++ [e]) k = localCount m k + if e.link = k then 1 else 0 := by
  simp [localCount, List.countP_append, List.countP_singleton]

/-- Empty queues and an empty, unlocked table. -/
theorem CodecSound.ofEmpty {s : State} {c : Codec} (hmap : c.map = []) (hlock : c.mapLocked = false)
    (hcmd : c.cmdq = []) (hreply : c.replyq = []) (hcount : c.encCount = 0#2) : CodecSound (setCodec c s) where
  tableFits := by simp [hmap]
  keysUnique := by simp [hmap]
  widthsLegal := by simp [hmap]
  linksFit := by simp [hmap, localCount]
  unconfiguredEmpty := fun _ => ⟨hmap, hlock⟩
  queuedAfterLock := fun _ => hcmd
  queuedLegal := by simp [hcmd]
  commandsFit := by simp [hcmd]
  repliesFit := by simp [hreply]
  resultCount := by simp [hcount]

/-- The table as it was, locked perhaps by a configured unit, and no word more in the command queue. -/
theorem CodecSound.ofSameTable {s : State} {c : Codec} (hs : CodecSound s) (hmap : c.map = s.codec.map)
    (hvariant : c.variant = s.codec.variant) (hconf : c.configured = s.codec.configured)
    (hlock : c.mapLocked = s.codec.mapLocked ∨ c.mapLocked = true ∧ s.codec.configured = true)
    (hcmd : c.cmdq <:+ s.codec.cmdq) (hreply : c.replyq.length ≤ s.params.replyFifoDepth)
    (hcount : c.encCount ≠ 3#2) : CodecSound (setCodec c s) where
  tableFits := by simpa [hmap] using hs.tableFits
  keysUnique := by simpa [hmap] using hs.keysUnique
  widthsLegal := by simpa [hmap] using hs.widthsLegal
  linksFit := by simpa [hmap, hvariant] using hs.linksFit
  unconfiguredEmpty := by
    intro h
    rw [setCodec_codec, hconf] at h
    obtain ⟨hempty, hunlocked⟩ := hs.unconfiguredEmpty h
    simp_all
  queuedAfterLock := by
    intro h
    have hq : s.codec.cmdq = [] := hs.queuedAfterLock (by simp_all)
    simpa [hq] using hcmd
  queuedLegal := fun w hw => by simpa [hmap, hvariant] using hs.queuedLegal w (hcmd.subset hw)
  commandsFit := hcmd.length_le.trans hs.commandsFit
  repliesFit := hreply
  resultCount := hcount

/-- An entry that passed the checks of TXC.MAPADD; the command queue is empty before the lock. -/
theorem CodecSound.ofAddedEntry {s : State} {e : MapEntry} (hs : CodecSound s)
    (he : mapaddError s.codec s.params.nSlaves e = none) : CodecSound (setCodec (s.codec.addEntry e) s) := by
  obtain ⟨hbw, hconf, hlock, hnew, hroom, hlink⟩ := mapaddError_none_iff.1 he
  have hq : s.codec.cmdq = [] := hs.queuedAfterLock hlock
  refine ⟨?fits, ?keys, ?widths, ?links, ?unconf, fun _ => hq, ?legal, hs.commandsFit, hs.repliesFit, hs.resultCount⟩
  case fits =>
    have hfits := hs.tableFits
    show (s.codec.map ++ [e]).length ≤ s.params.nSlaves
    rw [List.length_append, List.length_singleton]
    omega
  case keys =>
    refine List.pairwise_append.2 ⟨hs.keysUnique, List.pairwise_singleton _ _, fun a ha b hb hab => ?_⟩
    rw [List.mem_singleton.1 hb] at hab
    exact mapLookup_none_iff.1 hnew ⟨a, ha, hab⟩
  case widths =>
    intro a ha
    rcases List.mem_append.1 ha with ha | ha
    · exact hs.widthsLegal a ha
    · rw [List.mem_singleton.1 ha]; exact hbw
  case links =>
    intro hopt k
    have hcount := hs.linksFit hopt k
    show localCount (s.codec.map ++ [e]) k ≤ 16
    rw [localCount_append]
    split
    · rename_i hk
      have : localCount s.codec.map k ≠ 16 := fun h => hlink ⟨hopt, hk ▸ h⟩
      omega
    · exact hcount
  case unconf =>
    intro h
    exact absurd (hconf.symm.trans h) (by decide)
  case legal =>
    intro w hw
    rw [show (setCodec (s.codec.addEntry e) s).codec.cmdq = [] from hq] at hw
    cases hw

/-- A legal word with room for it, after the lock. -/
theorem CodecSound.ofPushed {s : State} {w : Word} (hs : CodecSound s) (hconf : s.codec.configured = true)
    (hlegal : illegalRequest s.codec.variant s.codec.map w = none)
    (hroom : s.codec.cmdq.length ≠ s.params.cmdFifoDepth) :
    CodecSound (setCodec { s.codec.locked with cmdq := s.codec.cmdq ++ [w] } s) := by
  refine ⟨hs.tableFits, hs.keysUnique, hs.widthsLegal, hs.linksFit, ?unconf, nofun, ?legal, ?fits, hs.repliesFit,
    hs.resultCount⟩
  case unconf =>
    intro h
    exact absurd (hconf.symm.trans h) (by decide)
  case legal =>
    intro w' hw'
    rcases List.mem_append.1 hw' with hw' | hw'
    · exact hs.queuedLegal w' hw'
    · rw [List.mem_singleton.1 hw']; exact hlegal
  case fits =>
    have hfits := hs.commandsFit
    show (s.codec.cmdq ++ [w]).length ≤ s.params.cmdFifoDepth
    rw [List.length_append, List.length_singleton]
    omega

/-- An encode writes the result registers only, and counts one word or two (R36). -/
theorem Codec.encStored_frame (c : Codec) (ws : Word × Option Word) :
    ∃ n w0 w1, c.encStored ws = { c with encCount := n, encWord0 := w0, encWord1 := w1 } ∧ (n = 1#2 ∨ n = 2#2) := by
  unfold Codec.encStored
  split
  · exact ⟨_, _, _, rfl, .inr rfl⟩
  · exact ⟨_, _, _, rfl, .inl rfl⟩

theorem CodecMove.sound {s : State} {c : Codec} (h : CodecMove s c) (hs : CodecSound s) :
    CodecSound (setCodec c s) := by
  have hq : s.codec.cmdq <:+ s.codec.cmdq := List.suffix_refl _
  have hzero : (0#2 : BitVec 2) ≠ 3#2 := by decide
  cases h with
  | same => exact hs.congr rfl rfl
  | reset | unconfigured | configured => exact .ofEmpty rfl rfl rfl rfl rfl
  | flushed => exact hs.ofSameTable rfl rfl rfl (.inl rfl) (List.nil_suffix) (Nat.zero_le _) hs.resultCount
  | added e he => exact hs.ofAddedEntry he
  | resultCleared => exact hs.ofSameTable rfl rfl rfl (.inl rfl) hq hs.repliesFit hzero
  | missed hc => exact hs.ofSameTable rfl rfl rfl (.inr ⟨rfl, hc⟩) hq hs.repliesFit hzero
  | encoded bcast write readback hybrid chip page addr value op sel hc =>
    obtain ⟨n, w0, w1, he, hn⟩ := s.codec.encCleared.locked.encStored_frame
      (encWords s.codec.variant op sel write readback page addr value)
    rw [he]
    refine hs.ofSameTable rfl rfl rfl (.inr ⟨rfl, hc⟩) hq hs.repliesFit (show n ≠ 3#2 from ?_)
    rcases hn with rfl | rfl <;> decide
  | decoded w hc | locked hc => exact hs.ofSameTable rfl rfl rfl (.inr ⟨rfl, hc⟩) hq hs.repliesFit hs.resultCount
  | pushed w hc hl hr => exact hs.ofPushed hc hl hr
  | popped w q h =>
    refine hs.ofSameTable rfl rfl rfl (.inl rfl) hq ?_ hs.resultCount
    exact (List.IsSuffix.length_le (h ▸ List.suffix_cons w q)).trans hs.repliesFit
  | selected => exact hs.ofSameTable rfl rfl rfl (.inl rfl) hq hs.repliesFit hs.resultCount
  | dispatched q rq hq hr => exact hs.ofSameTable rfl rfl rfl (.inl rfl) hq (hr hs.repliesFit) hs.resultCount

theorem runEvent_codecSound {ev : Event} {s t : State} (h : runEvent ev s = .next t) (hs : CodecSound s) :
    CodecSound t :=
  ((runEvent_moves ev s t h).codec.sound hs).congr rfl (runEvent_readout ev s t h).1

/-- Settles O25: whatever event the step takes, unit C makes one of its moves. -/
theorem codecInvariantKept : Obligations.CodecInvariantKept := fun s _ hs h =>
  runEvent_codecSound h (hs.congr (takeEvent_codec s) (takeEvent_params s))

end Sys2Proof.Machine
end

