-- ==== Sys2Proof/Proofs/LinkInvariant.lean ====
section
/-! PROOFS. Unit L's invariant (O38): each record a command or an agent writes is sound where its checks hold, and a
move of unit L writes no other. -/

namespace Sys2Proof.Machine

/-! ## The records -/

/-- An alignment begins in PatternInject only (10_state.md R62). -/
theorem LineTuning.Sound.patternInject {t : LineTuning} (h : t.Sound) (hs : t.paState ≠ .idle ∨ t.waState ≠ .idle) :
    t.mode = .patternInject := by
  by_contra hm
  obtain ⟨hpa, hwa⟩ := h.idleOutsidePattern hm
  exact hs.elim (absurd hpa) (absurd hwa)

/-- While the phase alignment runs, none is done (R214). -/
theorem LineTuning.Sound.done_of_phaseRunning {t : LineTuning} (h : t.Sound) (hr : t.paState = .running) :
    t.done = false := by
  have hm := h.patternInject (.inl (by simp [hr]))
  by_contra hd
  have := h.doneMeansSet (Bool.eq_true_of_not_eq_false hd)
  simp_all

/-- While the word alignment runs, none is done (R216). -/
theorem LineTuning.Sound.done_of_wordRunning {t : LineTuning} (h : t.Sound) (hr : t.waState = .running) :
    t.done = false := by
  have hm := h.patternInject (.inr (by simp [hr]))
  by_contra hd
  have := h.doneMeansSet (Bool.eq_true_of_not_eq_false hd)
  simp_all

/-- LNK.SETMODE leaves both sub-states idle, and `done` for Manual only (R205). -/
theorem LineTuning.Sound.withMode {t : LineTuning} (h : t.Sound) (mode : BitVec 2) (delay : BitVec 5)
    (bitslip : BitVec 3) : (t.withMode mode delay bitslip).Sound := by
  unfold LineTuning.withMode
  dsimp only
  split
  · exact ⟨fun _ => ⟨rfl, rfl⟩, nofun, nofun, nofun, nofun⟩
  · split
    · exact ⟨fun _ => ⟨rfl, rfl⟩, nofun, nofun, h.patternHasLength, nofun⟩
    · exact ⟨fun _ => ⟨rfl, rfl⟩, nofun, nofun, h.patternHasLength, fun _ => .inl rfl⟩

theorem LineTuning.Sound.withPattern {t : LineTuning} {plen : Byte} (pat : Byte)
    (hm : t.mode = .patternInject) (hp : plenOk plen = true) : (t.withPattern plen pat).Sound where
  idleOutsidePattern := absurd hm
  wordAfterPhase := nofun
  phaseNeedsPattern := fun _ => rfl
  patternHasLength := fun _ => show plen ≠ 0#8 by simpa [plenOk] using hp
  doneMeansSet := nofun

theorem LineTuning.Sound.startPhase {t : LineTuning} (h : t.Sound) (hm : t.mode = .patternInject)
    (hp : t.patValid = true) : t.startPhase.Sound where
  idleOutsidePattern := absurd hm
  wordAfterPhase := nofun
  phaseNeedsPattern := fun _ => hp
  patternHasLength := h.patternHasLength
  doneMeansSet := nofun

theorem LineTuning.Sound.startWord {t : LineTuning} (h : t.Sound) (hm : t.mode = .patternInject)
    (hp : t.paState = .tuned) : t.startWord.Sound where
  idleOutsidePattern := absurd hm
  wordAfterPhase := fun _ => hp
  phaseNeedsPattern := h.phaseNeedsPattern
  patternHasLength := h.patternHasLength
  doneMeansSet := nofun

/-- A phase alignment that ends: the word alignment has not begun (R214). -/
theorem LineTuning.Sound.phaseResult {t : LineTuning} (h : t.Sound) (hr : t.paState = .running)
    (r : Option (BitVec 5)) : (t.phaseResult r).Sound := by
  have hm : t.mode = .patternInject := h.patternInject (.inl (by simp [hr]))
  have hp : t.patValid = true := h.phaseNeedsPattern (by simp [hr])
  have hw : t.waState = .idle := by
    by_contra hw
    simp [h.wordAfterPhase hw] at hr
  cases r with
  | some d =>
    exact ⟨absurd hm, fun _ => rfl, fun _ => hp, h.patternHasLength, fun _ => .inr ⟨hm, rfl, .inl hw⟩⟩
  | none =>
    have hd : (t.phaseResult none).done = false := h.done_of_phaseRunning hr
    exact ⟨absurd hm, absurd hw, fun _ => hp, h.patternHasLength, by simp [hd]⟩

/-- A word alignment that ends: the phase stays tuned (R216). -/
theorem LineTuning.Sound.wordResult {t : LineTuning} (h : t.Sound) (hr : t.waState = .running)
    (r : Option (BitVec 3)) : (t.wordResult r).Sound := by
  have hm : t.mode = .patternInject := h.patternInject (.inr (by simp [hr]))
  have hp : t.paState = .tuned := h.wordAfterPhase (by simp [hr])
  cases r with
  | some b =>
    exact ⟨absurd hm, fun _ => hp, h.phaseNeedsPattern, h.patternHasLength, fun _ => .inr ⟨hm, hp, .inr rfl⟩⟩
  | none =>
    have hd : (t.wordResult none).done = false := h.done_of_wordRunning hr
    exact ⟨absurd hm, fun _ => hp, h.phaseNeedsPattern, h.patternHasLength, by simp [hd]⟩

/-! ## The moves -/

/-- The invariant speaks of unit L and the parameters alone. -/
theorem LinkSound.congr {s t : State} (h : LinkSound s) (hl : t.link = s.link) (hp : t.params = s.params) :
    LinkSound t := by
  obtain ⟨h1, h2, h3, h4⟩ := h
  rw [← hl, ← hp] at *
  exact ⟨h1, h2, h3, h4⟩

theorem LinkSound.lineSound {s : State} (h : LinkSound s) {x : LineId} {e : LineEntry}
    (he : findLine x s.link.lines = some e) : e.tuning.Sound :=
  h.recordsSound e (findLine_some he).2

/-- Every record stays sound when each entry of the line updated becomes a sound one. -/
theorem LinkSound.updateLine_recordsSound {s : State} (h : LinkSound s) {x : LineId} {f : LineEntry → LineEntry}
    (hf : ∀ e ∈ s.link.lines, e.id = x → (f e).tuning.Sound) : ∀ e ∈ updateLine x f s.link.lines, e.tuning.Sound := by
  intro e he
  rcases mem_updateLine he with ⟨e0, he0, hx, rfl⟩ | ⟨he, -⟩
  · exact hf e0 he0 hx
  · exact h.recordsSound e he

/-- The one entry of a line is the one found (10_state.md R61). -/
theorem LinkSound.findLine_eq {s : State} (h : LinkSound s) {x : LineId} {e e' : LineEntry}
    (he : findLine x s.link.lines = some e) (he' : e' ∈ s.link.lines) (hx : e'.id = x) : e' = e := by
  have := findLine_of_mem h.oneEntryPerLine he'
  rw [hx, he] at this
  exact (Option.some.inj this).symm

theorem LinkMove.recordsSound {s : State} {l : Link} (h : LinkMove s l) (hs : LinkSound s) :
    ∀ e ∈ l.lines, e.tuning.Sound := by
  cases h with
  | same | replied | linksReset | linkSelected | linkDrawn => exact hs.recordsSound
  | reset =>
    intro e he
    obtain ⟨e0, -, rfl⟩ := List.mem_map.1 he
    exact LineTuning.initial_sound
  | modeSet x e mode delay bitslip hf =>
    exact hs.updateLine_recordsSound fun _ _ _ => (hs.lineSound hf).withMode mode delay bitslip
  | patternSet x e plen pat hf hp hm => exact hs.updateLine_recordsSound fun _ _ _ => .withPattern pat hm hp
  | phaseStarted x e hf hm hp => exact hs.updateLine_recordsSound fun _ _ _ => (hs.lineSound hf).startPhase hm hp
  | wordStarted x e hf hm hp => exact hs.updateLine_recordsSound fun _ _ _ => (hs.lineSound hf).startWord hm hp
  | captured => exact hs.updateLine_recordsSound fun e he _ => hs.recordsSound e he
  | phaseStepped x e hf hr =>
    refine hs.updateLine_recordsSound fun e' he' hx => ?_
    rw [hs.findLine_eq hf he' hx]
    exact (hs.lineSound hf).phaseResult hr _
  | wordStepped x e hf hr =>
    refine hs.updateLine_recordsSound fun e' he' hx => ?_
    rw [hs.findLine_eq hf he' hx]
    exact (hs.lineSound hf).wordResult hr _

/-- The debug words are replaced by `N_CAP_WORDS` others or not at all (R45, R210). -/
theorem LinkMove.debugWords_length {s : State} {l : Link} (h : LinkMove s l) (hs : LinkSound s) :
    l.debugWords.length = s.params.nCapWords := by
  cases h with
  | reset => exact List.length_replicate
  | captured => simp [storeCapture, drawCapture]
  | same | replied | modeSet | patternSet | phaseStarted | wordStarted | linksReset | linkSelected | phaseStepped
  | wordStepped | linkDrawn => exact hs.debugWordsFit

/-- The selected link: only an existing one is selected (R219). -/
theorem LinkMove.selectionExists {s : State} {l : Link} (h : LinkMove s l) (hs : LinkSound s) :
    l.optSel = 0#4 ∨ l.optSel.toNat < l.links.length := by
  rw [h.linksLater.length]
  cases h with
  | reset => exact .inl rfl
  | linkSelected k hk => exact .inr hk
  | same | replied | modeSet | patternSet | phaseStarted | wordStarted | captured | linksReset | phaseStepped
  | wordStepped | linkDrawn => exact hs.selectionExists

theorem LinkMove.sound {s : State} {l : Link} (h : LinkMove s l) (hs : LinkSound s) : LinkSound (setLink l s) where
  oneEntryPerLine := (congrArg List.Nodup h.linesLater.ids).mpr hs.oneEntryPerLine
  recordsSound := h.recordsSound hs
  debugWordsFit := h.debugWords_length hs
  selectionExists := h.selectionExists hs

theorem runEvent_linkSound {ev : Event} {s t : State} (h : runEvent ev s = .next t) (hs : LinkSound s) :
    LinkSound t :=
  ((runEvent_moves ev s t h).link.sound hs).congr rfl (runEvent_readout ev s t h).1

/-- Settles O38: whatever event the step takes, unit L makes one of its moves. -/
theorem linkInvariantKept : Obligations.LinkInvariantKept := fun s _ hs h =>
  runEvent_linkSound h (hs.congr (takeEvent_link s) (takeEvent_params s))

end Sys2Proof.Machine
end

