-- ==== Sys2Proof/Proofs/ReadoutInvariant.lean ====
section
/-! PROOFS. Unit R's invariant (O51). It falls into what unit R holds in every state (`Readout.Holds`), what it holds
while a request is in progress (`Readout.InRequest`, `Readout.Paced`) and how a request that is not in progress ended
(`RequestEnded`); every move of unit R, each step of the engine among them, gives these parts again. -/

namespace Sys2Proof.Machine

/-! ## The parts of the invariant -/

/-- What unit R holds in every state: reserved bits 0, the cursor inside the ring, the buffers within their
capacities (10_state.md R24, R48, R51, R66, R67). -/
structure Readout.Holds (p : Params) (r : Readout) : Prop where
  cnfgReserved : r.cnfg &&& cnfgMask = r.cnfg
  evsizeReserved : r.evsizeCnfg &&& evsizeMask = r.evsizeCnfg
  cursorInRing : r.cursor.toNat < p.ddr3RingWords
  wordsFit : r.out.length ≤ p.roOutDepth
  framesFit : 4 * r.frameOffs.length ≤ r.out.length

/-- What unit R holds while a request is in progress, beside the pace: empty buffers and no result, the counters within
the bounds of R264, and a target that fits the output buffer (42_readout_engine.md R244, R245). -/
structure Readout.InRequest (p : Params) (r : Readout) : Prop where
  busy : r.state.busy = true
  empty : r.out = [] ∧ r.frameOffs = [] ∧ r.result = .none
  polls : r.polls.toNat ≤ max r.timeoutPolls.toNat 1
  noprog : r.noprog.toNat ≤ Config.noprogLimit
  waitingNoprog : r.state = .waitingForWords → r.noprog.toNat < Config.noprogLimit
  recoveries : r.recovCount.toNat ≤ r.maxRecovery.toNat
  request : r.kind = .n → r.reqN ≠ 0#28 ∧ r.targetWords ≤ p.roOutDepth

/-- A state and a result of no request in progress: the state says how the last one ended, and Idle has no result. -/
structure RequestEnded (st : RoState) (res : RoResult) : Prop where
  notBusy : st.busy = false
  idleNoResult : st = .idle → res = .none
  decodedOk : st = .decoded → res = .ok
  errorSaysWhy : st = .error → res ≠ .none ∧ res ≠ .ok

/-- The invariant of unit R without the pace of a request, which every move is known to keep (`ReadoutMove.paced`). -/
def Readout.Kept (p : Params) (r : Readout) : Prop := r.Holds p ∧ (r.InRequest p ∨ RequestEnded r.state r.result)

theorem ReadoutSound.holds {s : State} (h : ReadoutSound s) : s.readout.Holds s.params :=
  ⟨h.cnfgReserved, h.evsizeReserved, h.cursorInRing, h.wordsFit, h.framesFit⟩

theorem ReadoutSound.inRequest {s : State} (h : ReadoutSound s) (hb : s.readout.state.busy = true) :
    s.readout.InRequest s.params :=
  ⟨hb, h.busyHoldsNothing hb, h.pollsBounded hb, h.noprogBounded hb, h.waitingNoprog, h.recoveriesBounded hb,
    h.requestFits hb⟩

theorem ReadoutSound.ended {s : State} (h : ReadoutSound s) (hb : s.readout.state.busy = false) :
    RequestEnded s.readout.state s.readout.result :=
  ⟨hb, h.idleNoResult, h.decodedOk, h.errorSaysWhy⟩

theorem ReadoutSound.kept {s : State} (h : ReadoutSound s) : s.readout.Kept s.params := by
  refine ⟨h.holds, ?_⟩
  cases hb : s.readout.state.busy with
  | true => exact .inl (h.inRequest hb)
  | false => exact .inr (h.ended hb)

/-- The parts make up the invariant. -/
theorem ReadoutSound.ofKept {s : State} {r : Readout} (hk : r.Kept s.params) (hp : r.Paced) :
    ReadoutSound (setReadout r s) := by
  obtain ⟨⟨hc, he, hcur, hw, hf⟩, hq | ⟨hb, hidle, hdecoded, herror⟩⟩ := hk
  · have running {st : RoState} (hst : st.busy = false) : r.state ≠ st := fun h => by
      simpa [h, hst] using hq.busy
    exact ⟨hc, he, hcur, hw, hf, fun _ => hq.empty, (absurd · (running (st := .idle) rfl)),
      (absurd · (running (st := .decoded) rfl)), (absurd · (running (st := .error) rfl)),
      hp.waitingPolls, hq.waitingNoprog, fun _ => hq.polls, fun _ => hq.noprog, fun _ => hq.recoveries,
      hp.recoveryLeft, fun _ => hq.request⟩
  · have ended : ¬ r.state.busy = true := Bool.eq_false_iff.1 hb
    have notWaiting : r.state ≠ .waitingForWords := fun h => ended (h ▸ rfl)
    exact ⟨hc, he, hcur, hw, hf, (absurd · ended), hidle, hdecoded, herror, hp.waitingPolls,
      (absurd · notWaiting), (absurd · ended), (absurd · ended), (absurd · ended), hp.recoveryLeft,
      (absurd · ended)⟩

/-- The invariant speaks of unit R and the parameters alone. -/
theorem ReadoutSound.congr {s t : State} (h : ReadoutSound s) (hr : t.readout = s.readout)
    (hp : t.params = s.params) : ReadoutSound t := by
  obtain ⟨h1, h2, h3, h4, h5, h6, h7, h8, h9, h10, h11, h12, h13, h14, h15, h16⟩ := h
  rw [← hr, ← hp] at *
  exact ⟨h1, h2, h3, h4, h5, h6, h7, h8, h9, h10, h11, h12, h13, h14, h15, h16⟩

section

variable {p : Params} {r : Readout}

/-- The state and the counters replaced: what is held in every state speaks of neither. -/
theorem Readout.Holds.of_same {r' : Readout} (h : r.Holds p) (hc : r'.cnfg = r.cnfg)
    (he : r'.evsizeCnfg = r.evsizeCnfg) (hcur : r'.cursor = r.cursor) (ho : r'.out = r.out)
    (hf : r'.frameOffs = r.frameOffs) : r'.Holds p := by
  obtain ⟨h1, h2, h3, h4, h5⟩ := h
  rw [← hc] at h1
  rw [← he] at h2
  rw [← hcur] at h3
  rw [← ho] at h4 h5
  rw [← hf] at h5
  exact ⟨h1, h2, h3, h4, h5⟩

/-- A request goes on in another state than the wait. -/
theorem Readout.Kept.of_inRequest (h : r.Holds p) (hq : r.InRequest p) {st : RoState} (hb : st.busy = true)
    (hw : st ≠ .waitingForWords) : ({ r with state := st } : Readout).Kept p :=
  ⟨h.of_same rfl rfl rfl rfl rfl,
    .inl ⟨hb, hq.empty, hq.polls, hq.noprog, (absurd · hw), hq.recoveries, hq.request⟩⟩

/-- A request ends in Error with a result that says why, nothing read. -/
theorem Readout.Kept.of_error (h : r.Holds p) {res : RoResult} (hn : res ≠ .none) (hok : res ≠ .ok) :
    ({ r with result := res, state := .error } : Readout).Kept p :=
  ⟨h.of_same rfl rfl rfl rfl rfl, .inr ⟨rfl, nofun, nofun, fun _ => ⟨hn, hok⟩⟩⟩

/-! ## The carving -/

/-- Every frame has at least four words, so the offsets are at most a quarter of the words (R153, R254). -/
theorem carveFrom_length {fuel i : Nat} {ws : List Word} {os : List Nat} (h : carveFrom fuel i ws = some os) :
    4 * os.length ≤ ws.length := by
  induction fuel generalizing i ws os with
  | zero =>
    cases ws with
    | nil => cases h; exact Nat.zero_le _
    | cons w ws => cases h
  | succ fuel ih =>
    cases ws with
    | nil => cases h; exact Nat.zero_le _
    | cons w ws =>
      rw [carveFrom] at h
      split at h
      · cases h
      · rename_i hframe
        obtain ⟨os', hos', rfl⟩ := Option.map_eq_some_iff.1 h
        have hrest := ih hos'
        rw [List.length_drop] at hrest
        rw [List.length_cons (as := os')]
        omega

/-- The carving replaces the frames by some that fit, and ends the request. -/
theorem Readout.carve_kept (h : ({ r with frameOffs := [] } : Readout).Holds p) : r.carve.1.Kept p := by
  obtain ⟨hc, he, hcur, hw, -⟩ := h
  have fits {os : List Nat} (hos : carveOffsets r.out = some os) :
      4 * (os.map (BitVec.ofNat 32)).length ≤ r.out.length := by
    rw [List.length_map]
    exact carveFrom_length hos
  rcases r.carve_cases with ⟨-, h⟩ | ⟨os, hos, ⟨-, -, h⟩ | ⟨-, h⟩⟩ <;> rw [h]
  · exact ⟨⟨hc, he, hcur, hw, Nat.zero_le _⟩, .inr ⟨rfl, nofun, nofun, fun _ => ⟨nofun, nofun⟩⟩⟩
  · exact ⟨⟨hc, he, hcur, hw, fits hos⟩, .inr ⟨rfl, nofun, nofun, fun _ => ⟨nofun, nofun⟩⟩⟩
  · exact ⟨⟨hc, he, hcur, hw, fits hos⟩, .inr ⟨rfl, nofun, fun _ => rfl, nofun⟩⟩

/-! ## The steps of the engine -/

/-- What a poll writes: it counts itself or not, the sequence of polls without progress with it, and only a wait gone on
with asks for a count below the limit (R247). -/
theorem Readout.poll_frame (smp : BufSample) (hb : r.state.busy = true) :
    ∃ seq wc trig saw last polls noprog st,
      r.poll smp =
        { r with
          smpSeq := seq, latWc := wc, latTrig := trig, sawReq := saw, lastTrig := last, polls := polls
          noprog := noprog, state := st }
      ∧ (polls = r.polls ∨ polls = r.polls + 1#32) ∧ (noprog = r.noprog ∨ noprog = r.noprogNext smp)
      ∧ st.busy = true
      ∧ (st = .waitingForWords → noprog = r.noprog ∨ noprog.toNat < Config.noprogLimit) := by
  rcases r.poll_cases smp with ⟨-, -, h⟩ | ⟨-, -, -, -, h⟩ | ⟨-, -, -, -, -, h⟩ | ⟨-, -, -, hn, h⟩ | ⟨-, -, h⟩ |
    ⟨-, -, -, -, h⟩ | ⟨-, -, -, -, h⟩
  · exact ⟨_, _, _, _, _, _, _, _, h, .inl rfl, .inl rfl, rfl, nofun⟩
  · exact ⟨_, _, _, _, _, _, _, _, h, .inr rfl, .inr rfl, rfl, nofun⟩
  · exact ⟨_, _, _, _, _, _, _, _, h, .inr rfl, .inr rfl, rfl, nofun⟩
  · exact ⟨_, _, _, _, _, _, _, _, h, .inr rfl, .inr rfl, hb, fun _ => .inr hn⟩
  · exact ⟨_, _, _, _, _, _, _, _, h, .inl rfl, .inl rfl, rfl, nofun⟩
  · exact ⟨_, _, _, _, _, _, _, _, h, .inr rfl, .inl rfl, rfl, nofun⟩
  · exact ⟨_, _, _, _, _, _, _, _, h, .inr rfl, .inl rfl, hb, fun _ => .inl rfl⟩

/-- One poll more stays within the bound of the wait, and does not wrap. -/
theorem Readout.Paced.polls_succ_le (hp : r.Paced) (hs : r.state = .waitingForWords) :
    (r.polls + 1#32).toNat ≤ max r.timeoutPolls.toNat 1 := by
  rcases hp.waitingPolls hs with h | h
  · rw [h]; exact le_max_right _ _
  · rw [BitVec.toNat_add]
    exact le_max_of_le_left ((Nat.mod_le _ _).trans h)

/-- One poll without progress more stays within the limit. -/
theorem Readout.noprogNext_le (smp : BufSample) (h : r.noprog.toNat < Config.noprogLimit) :
    (r.noprogNext smp).toNat ≤ Config.noprogLimit := by
  rcases r.noprogNext_cases smp with h' | h' <;> rw [h']
  · rw [BitVec.toNat_add]
    exact (Nat.mod_le _ _).trans h
  · exact Nat.zero_le _

theorem Readout.poll_kept (smp : BufSample) (h : r.Holds p) (hq : r.InRequest p) (hp : r.Paced)
    (hs : r.state = .waitingForWords) : (r.poll smp).Kept p := by
  obtain ⟨_, _, _, _, _, polls, noprog, st, hr, hpolls, hnoprog, hb, hwait⟩ :=
    poll_frame smp hq.busy
  have hlt := hq.waitingNoprog hs
  rw [hr]
  refine ⟨h.of_same rfl rfl rfl rfl rfl, .inl ⟨hb, hq.empty, ?polls, ?noprog, fun hst => ?waiting, hq.recoveries,
    hq.request⟩⟩
  case polls =>
    rcases hpolls with rfl | rfl
    · exact hq.polls
    · exact hp.polls_succ_le hs
  case noprog =>
    rcases hnoprog with rfl | rfl
    · exact hq.noprog
    · exact noprogNext_le smp hlt
  case waiting =>
    rcases hwait hst with rfl | hn
    · exact hlt
    · exact hn

/-- The cursor a block read leaves is in the ring, whose addresses fit a word (R24, R252). -/
theorem Readout.cursorAfter_lt {ring : Nat} (n : Nat) (h : r.cursor.toNat < ring) (hring : ring ≤ 2 ^ 32) :
    (r.cursorAfter ring n).toNat < ring := by
  unfold Readout.cursorAfter
  split
  · split
    · exact Nat.zero_lt_of_lt h
    · have hlt : (r.cursor.toNat + n) % ring < ring := Nat.mod_lt _ (Nat.zero_lt_of_lt h)
      rw [BitVec.toNat_ofNat, Nat.mod_eq_of_lt (hlt.trans_le hring)]
      exact hlt
  · exact h

/-- A read step ends the request: too many words for the buffer, or the carving of those it read. -/
theorem Readout.readStep_kept (n : Nat) (h : r.Holds p) (hring : p.ddr3RingWords ≤ 2 ^ 32) :
    (r.readStep p n).1.Kept p := by
  rcases r.readStep_cases p n with ⟨-, hr⟩ | ⟨hn, hr⟩ <;> rw [hr]
  · exact .of_error h nofun nofun
  · refine carve_kept ⟨h.cnfgReserved, h.evsizeReserved, cursorAfter_lt _ h.cursorInRing hring, ?_, Nat.zero_le _⟩
    show (r.drawWords n).length ≤ p.roOutDepth
    rw [drawWords_length]
    exact hn

theorem Readout.handshakeRead_kept (h : r.Holds p) (hq : r.InRequest p) (hring : p.ddr3RingWords ≤ 2 ^ 32) :
    (r.handshakeRead p).1.Kept p := by
  unfold Readout.handshakeRead
  split
  · exact .of_inRequest h hq rfl nofun
  · exact readStep_kept _ h hring

theorem Readout.stall_kept (h : r.Holds p) (hq : r.InRequest p) : r.stall.1.Kept p := by
  unfold Readout.stall
  split
  · exact .of_inRequest h hq rfl nofun
  · exact .of_error h nofun nofun

/-- The restart of the wait counts the recovery it ends, one that was left (R259, R264). -/
theorem Readout.restarted_kept (h : r.Holds p) (hq : r.InRequest p) (hp : r.Paced) (hs : r.state = .recoveryStart) :
    r.restarted.Kept p := by
  refine ⟨h.of_same rfl rfl rfl rfl rfl,
    .inl ⟨rfl, hq.empty, Nat.zero_le _, Nat.zero_le _, fun _ => ?_, ?_, hq.request⟩⟩
  · show 0 < Config.noprogLimit
    decide
  · show (r.recovCount + 1#8).toNat ≤ r.maxRecovery.toNat
    rw [BitVec.toNat_add]
    exact (Nat.mod_le _ _).trans (hp.recoveryLeft (.inr (.inr hs)))

/-! ## The moves -/

/-- A request started: nothing held, every counter 0 (R244). -/
theorem Readout.start_kept (h : r.Holds p) (hreq : r.kind = .n → r.reqN ≠ 0#28 ∧ r.targetWords ≤ p.roOutDepth) :
    r.start.Kept p :=
  ⟨⟨h.cnfgReserved, h.evsizeReserved, h.cursorInRing, Nat.zero_le _, Nat.zero_le _⟩,
    .inl ⟨rfl, ⟨rfl, rfl, rfl⟩, Nat.zero_le _, Nat.zero_le _, fun _ => show 0 < Config.noprogLimit by decide,
      Nat.zero_le _, hreq⟩⟩

end

theorem engineTurn_kept {s : State} (h : ReadoutSound s) (hring : s.params.ddr3RingWords ≤ 2 ^ 32) :
    (engineTurn s).readout.Kept s.params := by
  cases hs : s.readout.state with
  | idle | decoded | error => rw [engineTurn_waits s (by rw [hs]; rfl)]; exact h.kept
  | waitingForWords =>
    rw [engineTurn_waiting s hs]
    exact Readout.poll_kept _ h.holds (h.inRequest (by rw [hs]; rfl)) h.paced hs
  | handshake =>
    rw [engineTurn_handshake s hs, finishStep_readout]
    exact Readout.handshakeRead_kept h.holds (h.inRequest (by rw [hs]; rfl)) hring
  | directRead =>
    rw [engineTurn_directRead s hs, finishStep_readout]
    exact Readout.readStep_kept _ h.holds hring
  | stalled =>
    rw [engineTurn_stalled s hs, finishStep_readout]
    exact Readout.stall_kept h.holds (h.inRequest (by rw [hs]; rfl))
  | recoveryStop =>
    simp only [engineTurn, hs]
    exact .of_inRequest h.holds (h.inRequest (by rw [hs]; rfl)) rfl nofun
  | recoveryReset =>
    simp only [engineTurn, hs]
    obtain ⟨hc, he, hcur, hw, hf⟩ := h.holds
    obtain ⟨-, hempty, hpolls, hnoprog, -, hrecov, hreq⟩ := h.inRequest (by rw [hs]; rfl)
    exact ⟨⟨hc, he, Nat.zero_lt_of_lt hcur, hw, hf⟩, .inl ⟨rfl, hempty, hpolls, hnoprog, nofun, hrecov, hreq⟩⟩
  | recoveryStart =>
    simp only [engineTurn, hs]
    exact Readout.restarted_kept h.holds (h.inRequest (by rw [hs]; rfl)) h.paced hs

/-- The bits a register stores are stored again as they are. -/
theorem and_mask_idem (w m : Word) : w &&& m &&& m = w &&& m := by rw [BitVec.and_assoc, BitVec.and_self]

theorem ReadoutMove.kept {s : State} {r : Readout} (h : ReadoutMove s r) (hs : ReadoutSound s)
    (hring : s.params.ddr3RingWords ≤ 2 ^ 32) : r.Kept s.params := by
  have hh := hs.holds
  cases h with
  | same => exact hs.kept
  | abort =>
    exact ⟨⟨hh.cnfgReserved, hh.evsizeReserved, Nat.zero_lt_of_lt hh.cursorInRing, Nat.zero_le _, Nat.zero_le _⟩,
      .inr ⟨rfl, fun _ => rfl, nofun, nofun⟩⟩
  | reset =>
    exact ⟨⟨cnfgInitial_masked _, show 0#32 &&& evsizeMask = 0#32 by decide, Nat.zero_lt_of_lt hh.cursorInRing,
      Nat.zero_le _, Nat.zero_le _⟩, .inr ⟨rfl, fun _ => rfl, nofun, nofun⟩⟩
  | startAv => exact Readout.start_kept (hh.of_same rfl rfl rfl rfl rfl) nofun
  | startN n hn _ hf => exact Readout.start_kept (hh.of_same rfl rfl rfl rfl rfl) fun _ => ⟨hn, hf⟩
  | cnfg w hb =>
    exact ⟨⟨and_mask_idem _ _, hh.evsizeReserved, hh.cursorInRing, hh.wordsFit, hh.framesFit⟩, .inr (hs.ended hb)⟩
  | timeout w hb | trig w hb => exact ⟨hh.of_same rfl rfl rfl rfl rfl, .inr (hs.ended hb)⟩
  | evsize w hb =>
    exact ⟨⟨hh.cnfgReserved, and_mask_idem _ _, hh.cursorInRing, hh.wordsFit, hh.framesFit⟩, .inr (hs.ended hb)⟩
  | turn => exact engineTurn_kept hs hring

theorem runEvent_readoutSound {ev : Event} {s t : State} (h : runEvent ev s = .next t)
    (hring : s.params.ddr3RingWords ≤ 2 ^ 32) (hs : ReadoutSound s) : ReadoutSound t := by
  obtain ⟨hparams, hmove⟩ := runEvent_readout ev s t h
  exact (ReadoutSound.ofKept (hmove.kept hs hring) (hmove.paced hs.paced)).congr rfl hparams

/-- Settles O51: whatever event the step takes, unit R makes one of its moves. -/
theorem readoutInvariantKept : Obligations.ReadoutInvariantKept := by
  intro s t hp hs h
  obtain ⟨-, -, -, -, -, -, -, -, -, -, -, hring⟩ := (Params.inRange_iff s.params).1 hp
  exact runEvent_readoutSound h (by rw [takeEvent_params]; exact hring)
    (hs.congr (takeEvent_readout s) (takeEvent_params s))

end Sys2Proof.Machine
end

