-- ==== Sys2Proof/Proofs/Windows.lean ====
section
/-! PROOFS. What an event short of a reset leaves alone: the error flags but one it may raise (O54), unit R's
configuration while a request is in progress and, TXC.CONFIGURE aside, the variant and a locked table (O27). -/

namespace Sys2Proof.Machine

/-- The flags after, one of them perhaps raised (60_exceptions.md R331, R333). -/
def RaisesAtMostOne (before after : Word) : Prop := after = before ∨ ∃ e : Err, after = before ||| e.mask

/-- The four configuration registers of unit R as they were (10_state.md R78). -/
structure Readout.SameConfig (r r' : Readout) : Prop where
  cnfg : r'.cnfg = r.cnfg
  timeoutPolls : r'.timeoutPolls = r.timeoutPolls
  trigCnfg : r'.trigCnfg = r.trigCnfg
  evsizeCnfg : r'.evsizeCnfg = r.evsizeCnfg

/-- The variant, and the table once it is locked, as they were (R78, 40_codec.md R165). -/
structure Codec.SameWindow (c c' : Codec) : Prop where
  variant : c'.variant = c.variant
  configured : c'.configured = c.configured
  table : c.mapLocked = true → c'.map = c.map ∧ c'.mapLocked = true

/-- What an event short of a reset leaves alone, TXC.CONFIGURE included. -/
structure ShortOfReset (s t : State) : Prop where
  flags : RaisesAtMostOne s.error t.error
  config : s.readout.state.busy = true → s.readout.SameConfig t.readout

/-- What every other event short of a reset leaves alone. -/
structure KeepsWindows (s t : State) : Prop extends ShortOfReset s t where
  table : s.codec.SameWindow t.codec

theorem Readout.SameConfig.refl (r : Readout) : r.SameConfig r := ⟨rfl, rfl, rfl, rfl⟩

theorem Codec.SameWindow.refl (c : Codec) : c.SameWindow c := ⟨rfl, rfl, fun h => ⟨rfl, h⟩⟩

/-- The lock, and what unit C's commands write beside the table. -/
theorem Codec.SameWindow.of_same {c c' : Codec} (hv : c'.variant = c.variant) (hc : c'.configured = c.configured)
    (hm : c'.map = c.map) (hl : c'.mapLocked = c.mapLocked ∨ c'.mapLocked = true) : c.SameWindow c' :=
  ⟨hv, hc, fun h => ⟨hm, hl.elim (·.trans h) id⟩⟩

theorem KeepsWindows.refl (s : State) : KeepsWindows s s := ⟨⟨.inl rfl, fun _ => .refl _⟩, .refl _⟩

/-- A raise after something that raised nothing. -/
theorem KeepsWindows.raise {s t : State} (e : Err) (h : KeepsWindows s t) (ht : t.error = s.error) :
    KeepsWindows s (raise e t) :=
  ⟨⟨.inr ⟨e, by rw [raise_error, ht]⟩, h.config⟩, h.table⟩

/-- One flag raised and nothing else. -/
theorem KeepsWindows.raised (e : Err) (s : State) : KeepsWindows s (Machine.raise e s) := (refl s).raise e rfl

theorem KeepsWindows.ofCodec {s : State} {c : Codec} (h : s.codec.SameWindow c) : KeepsWindows s (setCodec c s) :=
  ⟨⟨.inl rfl, fun _ => .refl _⟩, h⟩

theorem KeepsWindows.ofLink (l : Link) (s : State) : KeepsWindows s (setLink l s) :=
  ⟨⟨.inl rfl, fun _ => .refl _⟩, .refl _⟩

/-- Unit R replaced, after a pulse or none. -/
theorem KeepsWindows.ofReadout {s t : State} {r : Readout} (h : KeepsWindows s t)
    (hr : s.readout.state.busy = true → s.readout.SameConfig r) : KeepsWindows s (setReadout r t) :=
  ⟨⟨h.flags, hr⟩, h.table⟩

theorem KeepsWindows.emitted (p : Pulse) (s : State) : KeepsWindows s (emit p s) :=
  ⟨⟨.inl rfl, fun _ => .refl _⟩, .refl _⟩

/-- A step of the engine that may raise. -/
theorem KeepsWindows.finished {q : Readout × Option Err} {s : State} (h : s.readout.SameConfig q.1) :
    KeepsWindows s (finishStep q s) where
  flags := (finishStep_error q s).imp id fun ⟨e, _, he⟩ => ⟨e, he⟩
  config := fun _ => by rw [finishStep_readout]; exact h
  table := by rw [finishStep_codec]; exact .refl _

/-- A line command keeps what its continuation keeps on the line's entry. -/
theorem KeepsWindows.ofOnLine {s : State} {x : LineId} {k : LineEntry → State} (h : ∀ e, KeepsWindows s (k e)) :
    KeepsWindows s (onLine x s k) := by
  cases hf : findLine x s.link.lines with
  | none => rw [onLine_none k hf]; exact .raised _ s
  | some e => rw [onLine_some k hf]; exact h e

/-- A dispatch from what is left of the command queue. -/
theorem dispatch_keepsWindows (w : Word) (q : List Word) (s : State) :
    KeepsWindows s (dispatch w (setCodec { s.codec with cmdq := q } s)) := by
  obtain ⟨rq, err, h, herr, -⟩ := dispatch_frame w (setCodec { s.codec with cmdq := q } s)
  rw [h]
  exact ⟨⟨herr.imp id fun h => ⟨.fifoOvf, h⟩, fun _ => .refl _⟩, .of_same rfl rfl rfl (.inl rfl)⟩

/-! ## The commands of unit C -/

theorem configure_shortOfReset (s : State) : ShortOfReset s (configure s) := by
  unfold configure
  split
  · exact ⟨.inr ⟨_, rfl⟩, fun _ => .refl _⟩
  · exact ⟨.inl rfl, fun _ => .refl _⟩

/-- An entry is added to an unlocked table only (R163). -/
theorem mapadd_keepsWindows (e : MapEntry) (s : State) : KeepsWindows s (mapadd e s) := by
  unfold mapadd
  split
  · exact .raised _ s
  · rename_i he
    obtain ⟨-, -, hunlocked, -⟩ := mapaddError_none_iff.1 he
    exact .ofCodec ⟨rfl, rfl, fun hlocked => absurd (hunlocked.symm.trans hlocked) (by decide)⟩

theorem encodeRequest_keepsWindows (bcast write readback : BitVec 1) (hybrid chip : Nibble) (page : BitVec 1)
    (addr value : Byte) (s : State) :
    KeepsWindows s (encodeRequest bcast write readback hybrid chip page addr value s) := by
  unfold encodeRequest
  dsimp only
  split
  · exact (KeepsWindows.ofCodec (c := s.codec.encCleared) (.of_same rfl rfl rfl (.inl rfl))).raise _ rfl
  · split
    · exact (KeepsWindows.ofCodec (c := s.codec.encCleared.locked) (.of_same rfl rfl rfl (.inr rfl))).raise _ rfl
    · rename_i op sel _
      obtain ⟨_, _, _, he, -⟩ := s.codec.encCleared.locked.encStored_frame
        (encWords s.codec.variant op sel write readback page addr value)
      exact .ofCodec (he ▸ .of_same rfl rfl rfl (.inr rfl))

theorem decodeWord_keepsWindows (w : Word) (s : State) : KeepsWindows s (decodeWord w s) := by
  unfold decodeWord
  split
  · exact .raised _ s
  · exact .ofCodec (.of_same rfl rfl rfl (.inr rfl))

theorem pushCommand_keepsWindows (w : Word) (s : State) : KeepsWindows s (pushCommand w s) := by
  have hlocked : KeepsWindows s (setCodec s.codec.locked s) := .ofCodec (.of_same rfl rfl rfl (.inr rfl))
  unfold pushCommand
  dsimp only
  split
  · exact .raised _ s
  · split
    · exact hlocked.raise _ rfl
    · split
      · exact hlocked.raise _ rfl
      · exact .ofCodec (.of_same rfl rfl rfl (.inr rfl))

theorem popReply_keepsWindows (s : State) : KeepsWindows s (popReply s) := by
  unfold popReply
  split
  · exact ⟨⟨.inr ⟨_, rfl⟩, fun _ => .refl _⟩, .refl _⟩
  · exact ⟨⟨.inl rfl, fun _ => .refl _⟩, .of_same rfl rfl rfl (.inl rfl)⟩

/-! ## The commands of unit L -/

theorem setMode_keepsWindows (x : LineId) (mode : BitVec 2) (delay : BitVec 5) (bitslip : BitVec 3) (s : State) :
    KeepsWindows s (setMode x mode delay bitslip s) := by
  unfold setMode
  split
  · exact .raised _ s
  · exact .ofOnLine fun _ => .ofLink _ s

theorem setPat_keepsWindows (x : LineId) (plen pat : Byte) (s : State) : KeepsWindows s (setPat x plen pat s) := by
  unfold setPat
  split
  · exact .raised _ s
  · refine .ofOnLine fun _ => ?_
    split
    · exact .raised _ s
    · exact .ofLink _ s

theorem doPhase_keepsWindows (x : LineId) (s : State) : KeepsWindows s (doPhase x s) := by
  refine .ofOnLine fun _ => ?_
  split
  · exact .raised _ s
  · exact .ofLink _ s

theorem doWord_keepsWindows (x : LineId) (s : State) : KeepsWindows s (doWord x s) := by
  refine .ofOnLine fun _ => ?_
  split
  · exact .raised _ s
  · exact .ofLink _ s

theorem capture_keepsWindows (x : LineId) (s : State) : KeepsWindows s (capture x s) := by
  refine .ofOnLine fun _ => ?_
  split
  · exact .raised _ s
  · exact .ofLink _ s

theorem selectLink_keepsWindows (k : Nibble) (s : State) : KeepsWindows s (selectLink k s) := by
  unfold selectLink
  split
  · exact .raised _ s
  · exact .ofLink _ s

/-! ## The commands of unit R -/

theorem readAvailable_keepsWindows (s : State) : KeepsWindows s (readAvailable s) := by
  unfold readAvailable
  split
  · exact .raised _ s
  · exact (KeepsWindows.refl s).ofReadout fun _ => ⟨rfl, rfl, rfl, rfl⟩

theorem readN_keepsWindows (n : BitVec 28) (s : State) : KeepsWindows s (readN n s) := by
  unfold readN
  split
  · exact .raised _ s
  · split
    · exact .raised _ s
    · split
      · exact .raised _ s
      · exact (KeepsWindows.refl s).ofReadout fun _ => ⟨rfl, rfl, rfl, rfl⟩

/-- Every instruction but SYS.RESET and TXC.CONFIGURE. -/
theorem exec_keepsWindows {i : Instr} {s t : State} (hr : i ≠ .sysReset) (hc : i ≠ .txcConfigure)
    (h : exec i s = .next t) : KeepsWindows s t := by
  cases i <;> cases h
  case sysReset => exact absurd rfl hr
  case txcConfigure => exact absurd rfl hc
  case txcFlush => exact .ofCodec (.of_same rfl rfl rfl (.inl rfl))
  case txcMapadd => exact mapadd_keepsWindows _ s
  case txcEnc => exact encodeRequest_keepsWindows _ _ _ _ _ _ _ _ s
  case txcDec => exact decodeWord_keepsWindows _ s
  case txcPush => exact pushCommand_keepsWindows _ s
  case txcPop => exact popReply_keepsWindows s
  case lnkGetcfg => exact .ofOnLine fun _ => .ofLink _ s
  case lnkGetstat => exact .ofOnLine fun _ => .ofLink _ s
  case lnkSetmode => exact setMode_keepsWindows _ _ _ _ s
  case lnkSetpat => exact setPat_keepsWindows _ _ _ s
  case lnkDopa => exact doPhase_keepsWindows _ s
  case lnkDowa => exact doWord_keepsWindows _ s
  case lnkCapture => exact capture_keepsWindows _ s
  case lnkOptrst => exact ⟨⟨.inl rfl, fun _ => .refl _⟩, .refl _⟩
  case lnkOptsel => exact selectLink_keepsWindows _ s
  case roeReset => exact (KeepsWindows.emitted .bufReset s).ofReadout fun _ => ⟨rfl, rfl, rfl, rfl⟩
  case roeReadav => exact readAvailable_keepsWindows s
  case roeReadn => exact readN_keepsWindows _ s
  all_goals exact dispatch_keepsWindows _ s.codec.cmdq s

/-! ## The events -/

/-- SYS.RESET and TXC.CONFIGURE are each one word of one port (30_encoding.md R131, R140). -/
theorem encode_of_decodeWrite {r : Reg} {w : Word} {i : Instr} (h : decode (.write r w) = .ok i)
    (hi : i = .sysReset ∨ i = .txcConfigure) : encode i = .write r w := by
  simp only [decode, decodeWrite, decodeGc, decodeCc, decodeCm, decodeCe, decodeLt, decodeLo, decodeRc] at h
  (repeat' split at h) <;> cases h <;> rcases hi with hi | hi <;> cases hi
  all_goals subst w; rfl

/-- A configuration register is written only while no request is in progress (10_state.md R48 to R51). -/
theorem writeConfig_keepsWindows (r : Readout) (s : State) : KeepsWindows s (writeConfig r s) := by
  unfold writeConfig
  split
  · exact .raised _ s
  · rename_i hb; exact (KeepsWindows.refl s).ofReadout fun h => absurd h hb

theorem writeReg_keepsWindows (r : Reg) (w : Word) (s : State) : KeepsWindows s (writeReg r w s) := by
  cases r
  case mapSel => exact .ofCodec (.of_same rfl rfl rfl (.inl rfl))
  case roCnfg => exact writeConfig_keepsWindows _ s
  case roTimeoutPolls => exact writeConfig_keepsWindows _ s
  case roTrigCnfg => exact writeConfig_keepsWindows _ s
  case roEvsizeCnfg => exact writeConfig_keepsWindows _ s
  all_goals exact .refl s

/-- A poll writes no configuration register. -/
theorem poll_sameConfig {r : Readout} (smp : BufSample) : r.SameConfig (r.poll smp) := by
  rcases r.poll_cases smp with ⟨-, -, h⟩ | ⟨-, -, -, -, h⟩ | ⟨-, -, -, -, -, h⟩ | ⟨-, -, -, -, h⟩ | ⟨-, -, h⟩ |
    ⟨-, -, -, -, h⟩ | ⟨-, -, -, -, h⟩ <;> rw [h] <;> exact ⟨rfl, rfl, rfl, rfl⟩

theorem readStep_sameConfig (r : Readout) (p : Params) (n : Nat) : r.SameConfig (r.readStep p n).1 := by
  obtain ⟨hc, ht, htr, he, -⟩ := r.readStep_frame p n
  exact ⟨hc, ht, htr, he⟩

theorem engineTurn_keepsWindows (s : State) : KeepsWindows s (engineTurn s) := by
  unfold engineTurn
  cases s.readout.state with
  | idle | decoded | error => exact .refl s
  | waitingForWords => exact (KeepsWindows.refl s).ofReadout fun _ => poll_sameConfig _
  | handshake =>
    refine .finished ?_
    unfold Readout.handshakeRead
    split
    · exact ⟨rfl, rfl, rfl, rfl⟩
    · exact readStep_sameConfig _ _ _
  | directRead => exact .finished (readStep_sameConfig _ _ _)
  | stalled =>
    refine .finished ?_
    unfold Readout.stall
    split <;> exact ⟨rfl, rfl, rfl, rfl⟩
  | recoveryStop | recoveryReset | recoveryStart =>
    exact (KeepsWindows.emitted _ s).ofReadout fun _ => ⟨rfl, rfl, rfl, rfl⟩

theorem phaseTurn_keepsWindows (x : LineId) (s : State) : KeepsWindows s (phaseTurn x s) := by
  unfold phaseTurn
  split
  · exact .refl s
  · split
    · exact .ofLink _ s
    · exact .refl s

theorem wordTurn_keepsWindows (x : LineId) (s : State) : KeepsWindows s (wordTurn x s) := by
  unfold wordTurn
  split
  · exact .refl s
  · split
    · exact .ofLink _ s
    · exact .refl s

theorem busTurn_keepsWindows {s t : State} (h : busTurn s = .next t) : KeepsWindows s t := by
  unfold busTurn at h
  split at h
  · cases h; exact .refl s
  · rename_i w q hq
    split at h
    · rename_i i hd
      obtain ⟨w', he⟩ := decoded_dispatches _ _ _ hd
      rw [he] at h
      cases h
      exact dispatch_keepsWindows w' q s
    · cases h

theorem hostRead_keepsWindows {r : Reg} {k : Nat} {s t : State} (h : hostRead r k s = .next t) : KeepsWindows s t := by
  by_cases hr : r = .replyFifo
  · subst hr
    exact exec_keepsWindows (i := .txcPop) nofun nofun h
  · simp only [hostRead, decode, if_neg hr] at h
    cases h
    exact ⟨⟨.inl rfl, fun _ => .refl _⟩, .refl _⟩

/-- A write short of a reset: TXC.CONFIGURE, or one that keeps the windows. -/
theorem hostWrite_windows {r : Reg} {w : Word} {s t : State} (hr : resetsBlock (.wr r w) = false)
    (h : hostWrite r w s = .next t) :
    Event.wr r w = .wr .codecCtrl 1#32 ∧ t = configure s ∨ KeepsWindows s t := by
  unfold hostWrite at h
  split at h
  · split at h
    · rename_i i hd
      by_cases hc : i = .txcConfigure
      · subst hc
        cases encode_of_decodeWrite hd (.inr rfl)
        cases h
        exact .inl ⟨rfl, rfl⟩
      · refine .inr (exec_keepsWindows ?_ hc h)
        rintro rfl
        cases encode_of_decodeWrite hd (.inl rfl)
        cases hr
    · cases h; exact .inr (.raised _ s)
  all_goals cases h; exact .inr (writeReg_keepsWindows r w s)

/-- An event short of a reset: TXC.CONFIGURE, or one that keeps the windows. -/
theorem runEvent_windows {ev : Event} {s t : State} (hr : resetsBlock ev = false) (h : runEvent ev s = .next t) :
    ev = .wr .codecCtrl 1#32 ∧ t = configure s ∨ KeepsWindows s t := by
  cases ev with
  | wr r w => exact hostWrite_windows hr h
  | rd r k => exact .inr (hostRead_keepsWindows h)
  | rst => cases hr
  | agent a =>
    refine .inr ?_
    cases a with
    | bus => exact busTurn_keepsWindows h
    | linePhase x => cases h; exact phaseTurn_keepsWindows x s
    | lineWord x => cases h; exact wordTurn_keepsWindows x s
    | optical k => cases h; exact .ofLink _ s
    | engine => cases h; exact engineTurn_keepsWindows s

theorem runEvent_shortOfReset {ev : Event} {s t : State} (hr : resetsBlock ev = false) (h : runEvent ev s = .next t) :
    ShortOfReset s t := by
  rcases runEvent_windows hr h with ⟨-, rfl⟩ | hk
  · exact configure_shortOfReset s
  · exact hk.toShortOfReset

/-- Settles O27: TXC.CONFIGURE is the one event short of a reset that opens unit C's window, and none opens unit R's. -/
theorem immutabilityWindows : Obligations.ImmutabilityWindows := by
  intro ev s t hr h
  refine ⟨fun hne => ?_, fun hb => ?_⟩
  · rcases runEvent_windows hr h with ⟨hev, -⟩ | hk
    · exact absurd hev hne
    · exact ⟨hk.table.variant, hk.table.configured, hk.table.table⟩
  · obtain ⟨hc, ht, htr, he⟩ := (runEvent_shortOfReset hr h).config hb
    exact ⟨hc, ht, htr, he⟩

/-! ## The flags -/

/-- Every flag has its bit below the reserved ones (10_state.md R28). -/
theorem Err.mask_reserved (e : Err) : bits e.mask 18 14 = 0#14 := by
  cases e <;> decide

theorem bits_or (a b : Word) (lo n : Nat) : bits (a ||| b) lo n = bits a lo n ||| bits b lo n :=
  BitVec.extractLsb'_or

theorem RaisesAtMostOne.flagsKept {a b : Word} (h : RaisesAtMostOne a b) : FlagsKept a b := by
  unfold FlagsKept
  rcases h with rfl | ⟨e, rfl⟩
  · exact BitVec.and_self
  · ext k
    simp +contextual

theorem RaisesAtMostOne.reserved {a b : Word} (h : RaisesAtMostOne a b) (ha : bits a 18 14 = 0#14) :
    bits b 18 14 = 0#14 := by
  rcases h with rfl | ⟨e, rfl⟩
  · exact ha
  · rw [bits_or, ha, e.mask_reserved, BitVec.or_self]

/-- Settles O54: a flag raised is or-ed in, and is none of the reserved bits. -/
theorem flagsAreStickyAndAtMostOneIsRaised : Obligations.FlagsAreStickyAndAtMostOneIsRaised := by
  intro ev s t hr h
  have hf := (runEvent_shortOfReset hr h).flags
  exact ⟨hf.flagsKept, hf, hf.reserved⟩

end Sys2Proof.Machine
end

