-- ==== Sys2Proof/Proofs/Registers.lean ====
section
/-! PROOFS. The register file: the fields of the status registers (O12) and of the two line replies (O28), the derived
quantities of unit R (O42), plain reads and writes (O10, O11), and the reset (O52). A field of a packed word is read
from the number the word is. -/

namespace Sys2Proof.Machine

/-! ## The packed words as numbers -/

theorem Codec.stat_toNat (c : Codec) (h : c.map.length < 512) :
    c.stat.toNat =
      c.map.length * 2 ^ 8 + (bit c.mapLocked).toNat * 2 ^ 3 + (bit c.configured).toNat * 2 ^ 2
        + (variantCode c.variant).toNat := by
  refine (append_toNat (0#15 ++ BitVec.ofNat 9 c.map.length ++ 0#4 ++ bit c.mapLocked ++ bit c.configured)
    (variantCode c.variant)).trans ?_
  simp only [append_toNat, BitVec.toNat_ofNat]
  omega

theorem Codec.fifoStat_toNat (c : Codec) (hr : c.replyq.length < 65536) (hc : c.cmdq.length < 65536) :
    c.fifoStat.toNat = c.cmdq.length * 2 ^ 16 + c.replyq.length := by
  refine (append_toNat (BitVec.ofNat 16 c.cmdq.length) (BitVec.ofNat 16 c.replyq.length)).trans ?_
  simp only [BitVec.toNat_ofNat]
  omega

theorem Readout.stat_toNat (r : Readout) :
    r.stat.toNat =
      (bit r.sawReq).toNat * 2 ^ 17 + (bit r.state.busy).toNat * 2 ^ 16 + r.recovCount.toNat * 2 ^ 8
        + r.result.code.toNat * 2 ^ 4 + r.state.code.toNat := by
  refine (append_toNat (0#14 ++ bit r.sawReq ++ bit r.state.busy ++ r.recovCount ++ r.result.code)
    r.state.code).trans ?_
  simp only [append_toNat, BitVec.toNat_ofNat]
  omega

theorem OptStatus.bits_toNat (o : OptStatus) :
    (OptStatus.bits o).toNat = (bit o.desReady).toNat * 2 ^ 2 + (bit o.rxReady).toNat * 2 + (bit o.txReady).toNat := by
  refine (append_toNat (bit o.desReady ++ bit o.rxReady) (bit o.txReady)).trans ?_
  simp only [append_toNat]
  omega

/-- `lrc.link.optical_stat` with some status bits. -/
theorem opticalWord_toNat (sel : Nibble) (b : BitVec 3) :
    (0#20 ++ sel ++ 0#5 ++ b : Word).toNat = sel.toNat * 2 ^ 8 + b.toNat := by
  refine (append_toNat (0#20 ++ sel ++ 0#5) b).trans ?_
  simp only [append_toNat, BitVec.toNat_ofNat]
  omega

/-- `lrc.link.optical_stat` shows the selected link's status bits, and 0 when there is no such link. -/
theorem Link.opticalStat_toNat (l : Link) :
    l.opticalStat.toNat =
      l.optSel.toNat * 2 ^ 8 + (l.links[l.optSel.toNat]?.elim 0 fun k => (OptStatus.bits k.status).toNat) := by
  unfold Link.opticalStat
  cases l.links[l.optSel.toNat]? <;> exact opticalWord_toNat _ _

/-- An entry as `lrc.codec.map_rd` shows it, with the field for its local index. -/
theorem mapRd_toNat {c : Codec} {e : MapEntry} (h : c.map[c.mapSel.toNat]? = some e) :
    c.mapRd.toNat =
      2 ^ 31 + e.link.toNat * 2 ^ 24 + e.hybrid.toNat * 2 ^ 20 + e.chip.toNat * 2 ^ 16
        + (lidxField (localIndex c.map c.mapSel.toNat e.link)).toNat * 2 ^ 12 + e.bw.toNat * 2 ^ 8
        + e.busAddr.toNat := by
  simp only [Codec.mapRd, h]
  refine (append_toNat (1#1 ++ 0#3 ++ e.link ++ e.hybrid ++ e.chip
    ++ lidxField (localIndex c.map c.mapSel.toNat e.link) ++ 0#2 ++ e.bw ++ 0#1) e.busAddr).trans ?_
  simp only [append_toNat, BitVec.toNat_ofNat]
  omega

/-- A local index below 16 is shown as it is (10_state.md R34). -/
theorem lidxField_toNat {n : Nat} (h : n < 16) : (lidxField n).toNat = n := by
  rw [lidxField, if_pos h, BitVec.toNat_ofNat]
  omega

theorem LineTuning.cfgReply_toNat (t : LineTuning) :
    t.cfgReply.toNat =
      t.mode.code.toNat * 2 ^ 24 + (bit t.patValid).toNat * 2 ^ 16 + t.plen.toNat * 2 ^ 8 + t.pat.toNat := by
  refine (append_toNat (0#4 ++ 0#2 ++ t.mode.code ++ 0#7 ++ bit t.patValid ++ t.plen) t.pat).trans ?_
  simp only [append_toNat, BitVec.toNat_ofNat]
  omega

theorem LineTuning.statReply_toNat (t : LineTuning) :
    t.statReply.toNat =
      2 ^ 28 + t.mode.code.toNat * 2 ^ 24 + t.delay.toNat * 2 ^ 19 + t.bitslip.toNat * 2 ^ 16
        + (bit t.done).toNat * 2 ^ 15 + t.waState.code.toNat * 2 ^ 8 + t.paState.code.toNat := by
  refine (append_toNat (1#4 ++ 0#2 ++ t.mode.code ++ t.delay ++ t.bitslip ++ bit t.done ++ 0#3 ++ t.waState.code
    ++ 0#4) t.paState.code).trans ?_
  simp only [append_toNat, BitVec.toNat_ofNat]
  omega

/-! ## The status registers -/

/-- `lrc.codec.stat` field by field (R31). -/
theorem codecStat_fields (c : Codec) (h : c.map.length < 512) :
    bits c.stat 0 2 = variantCode c.variant ∧ bits c.stat 2 1 = bit c.configured ∧ bits c.stat 3 1 = bit c.mapLocked
      ∧ bits c.stat 4 4 = 0#4 ∧ (bits c.stat 8 9).toNat = c.map.length ∧ bits c.stat 17 15 = 0#15 := by
  simp only [bits_eq_iff, bits_toNat, c.stat_toNat h, BitVec.toNat_ofNat]
  omega

/-- `lrc.codec.fifo_stat` field by field (R42). -/
theorem fifoStat_fields (c : Codec) (hr : c.replyq.length < 65536) (hc : c.cmdq.length < 65536) :
    (bits c.fifoStat 0 16).toNat = c.replyq.length ∧ (bits c.fifoStat 16 16).toNat = c.cmdq.length := by
  simp only [bits_toNat, c.fifoStat_toNat hr hc]
  omega

/-- The busy states by their codes (R53). -/
theorem busy_iff_code (st : RoState) :
    bit st.busy = 1#1 ↔
      st.code.toNat = 1 ∨ st.code.toNat = 2 ∨ st.code.toNat = 3 ∨ st.code.toNat = 5 ∨ st.code.toNat = 6
        ∨ st.code.toNat = 7 ∨ st.code.toNat = 8 := by
  cases st <;> decide

/-- `lrc.ro.stat` field by field (R53). -/
theorem roStat_fields (r : Readout) :
    bits r.stat 0 4 = r.state.code ∧ bits r.stat 4 4 = r.result.code ∧ bits r.stat 8 8 = r.recovCount
      ∧ bits r.stat 16 1 = bit r.state.busy ∧ bits r.stat 17 1 = bit r.sawReq ∧ bits r.stat 18 14 = 0#14 := by
  simp only [bits_eq_iff, r.stat_toNat, BitVec.toNat_ofNat]
  omega

/-- The status bits of `lrc.link.optical_stat` (R47). -/
theorem opticalStat_status {l : Link} {k : OptLink} (h : l.links[l.optSel.toNat]? = some k) :
    bits l.opticalStat 0 1 = bit k.status.txReady ∧ bits l.opticalStat 1 1 = bit k.status.rxReady
      ∧ bits l.opticalStat 2 1 = bit k.status.desReady := by
  simp only [bits_eq_iff, l.opticalStat_toNat, h, Option.elim_some, OptStatus.bits_toNat]
  omega

/-- They read 0 when the selected link does not exist (R47). -/
theorem opticalStat_noLink {l : Link} (h : l.links[l.optSel.toNat]? = none) : bits l.opticalStat 0 3 = 0#3 := by
  simp only [bits_eq_iff, l.opticalStat_toNat, h, Option.elim_none, BitVec.toNat_ofNat]
  omega

/-- The other fields of `lrc.link.optical_stat`, whether the link exists or not (R47). -/
theorem opticalStat_fields (l : Link) :
    bits l.opticalStat 3 5 = 0#5 ∧ bits l.opticalStat 8 4 = l.optSel ∧ bits l.opticalStat 12 20 = 0#20 := by
  have hb : (l.links[l.optSel.toNat]?.elim 0 fun k => (OptStatus.bits k.status).toNat) < 2 ^ 3 := by
    cases l.links[l.optSel.toNat]? with
    | none => decide
    | some k => exact (OptStatus.bits k.status).isLt
  simp only [bits_eq_iff, l.opticalStat_toNat, BitVec.toNat_ofNat]
  omega

/-- `lrc.codec.map_rd` field by field (R34). -/
theorem mapRd_fields {c : Codec} {e : MapEntry} (h : c.map[c.mapSel.toNat]? = some e) :
    bits c.mapRd 31 1 = 1#1 ∧ bits c.mapRd 28 3 = 0#3 ∧ bits c.mapRd 24 4 = e.link ∧ bits c.mapRd 20 4 = e.hybrid
      ∧ bits c.mapRd 16 4 = e.chip
      ∧ (localIndex c.map c.mapSel.toNat e.link < 16 →
          (bits c.mapRd 12 4).toNat = localIndex c.map c.mapSel.toNat e.link)
      ∧ bits c.mapRd 10 2 = 0#2 ∧ bits c.mapRd 8 2 = e.bw ∧ bits c.mapRd 7 1 = 0#1
      ∧ bits c.mapRd 0 7 = e.busAddr := by
  have hl := @lidxField_toNat (localIndex c.map c.mapSel.toNat e.link)
  simp only [bits_eq_iff, bits_toNat, mapRd_toNat h, BitVec.toNat_ofNat]
  omega

/-- Settles O12: each register's fields in turn. -/
theorem statusRegistersShowTheirFields : Obligations.StatusRegistersShowTheirFields := by
  refine ⟨fun s => ⟨codecStat_fields s.codec, fifoStat_fields s.codec, ?_, fun k => opticalStat_status,
    opticalStat_noLink, opticalStat_fields s.link⟩, fun s => ⟨fun h => ?_, fun e => mapRd_fields⟩⟩
  · obtain ⟨hstate, hresult, hrecov, hbusy, hsaw, hreserved⟩ := roStat_fields s.readout
    exact ⟨hstate, hresult, hrecov, (congrArg (· = 1#1) hbusy) ▸ busy_iff_code s.readout.state, hsaw, hreserved⟩
  · simp only [readReg, Codec.mapRd, h]

/-! ## The line replies -/

/-- Layout LR0 (10_state.md R44). -/
theorem cfgReply_fields (t : LineTuning) :
    bits t.cfgReply 28 4 = 0#4 ∧ bits t.cfgReply 26 2 = 0#2 ∧ bits t.cfgReply 24 2 = t.mode.code
      ∧ bits t.cfgReply 17 7 = 0#7 ∧ bits t.cfgReply 16 1 = bit t.patValid ∧ bits t.cfgReply 8 8 = t.plen
      ∧ bits t.cfgReply 0 8 = t.pat := by
  simp only [bits_eq_iff, t.cfgReply_toNat, BitVec.toNat_ofNat]
  omega

/-- Layout LR1 (R44). -/
theorem statReply_fields (t : LineTuning) :
    bits t.statReply 28 4 = 1#4 ∧ bits t.statReply 26 2 = 0#2 ∧ bits t.statReply 24 2 = t.mode.code
      ∧ bits t.statReply 19 5 = t.delay ∧ bits t.statReply 16 3 = t.bitslip ∧ bits t.statReply 15 1 = bit t.done
      ∧ bits t.statReply 12 3 = 0#3 ∧ bits t.statReply 8 4 = t.waState.code ∧ bits t.statReply 4 4 = 0#4
      ∧ bits t.statReply 0 4 = t.paState.code := by
  simp only [bits_eq_iff, t.statReply_toNat, BitVec.toNat_ofNat]
  omega

/-- Settles O28: the common front looks the line up; the reply is a snapshot of its record. -/
theorem lineStatusReplies : Obligations.LineStatusReplies := by
  refine ⟨fun s h c l => ⟨fun hf => ?_, fun e hf => ?_⟩, fun s h c l => ⟨fun hf => ?_, fun e hf => ?_⟩⟩
  · exact congrArg Host.Outcome.next (onLine_none _ hf)
  · exact ⟨e.tuning.cfgReply, congrArg Host.Outcome.next (onLine_some _ hf), cfgReply_fields e.tuning⟩
  · exact congrArg Host.Outcome.next (onLine_none _ hf)
  · exact ⟨e.tuning.statReply, congrArg Host.Outcome.next (onLine_some _ hf), statReply_fields e.tuning⟩

/-! ## The derived quantities -/

/-- Rounding up to a multiple of `al` gives the least one not below (R69). -/
theorem roundUp_least {raw al : Nat} (h : 0 < al) :
    let n := (raw + al - 1) / al * al
    n % al = 0 ∧ raw ≤ n ∧ n < raw + al := by
  have hdiv := Nat.div_add_mod (raw + al - 1) al
  have hmod := Nat.mod_lt (raw + al - 1) h
  refine ⟨Nat.mul_mod_left _ _, ?_, ?_⟩ <;> rw [Nat.mul_comm] <;> omega

theorem Readout.targetTrig_lt (r : Readout) : r.targetTrig < 2 ^ 32 := by
  have ht : (bits r.trigCnfg 0 24).toNat ≤ 2 ^ 24 - 1 := Nat.le_pred_of_lt (bits r.trigCnfg 0 24).isLt
  have hm : (bits r.trigCnfg 24 8).toNat + 1 ≤ 2 ^ 8 := (bits r.trigCnfg 24 8).isLt
  calc r.targetTrig ≤ (2 ^ 24 - 1) * 2 ^ 8 := Nat.mul_le_mul ht hm
    _ < 2 ^ 32 := by decide

/-- Settles O42. -/
theorem derivedQuantities : Obligations.DerivedQuantities := by
  intro r raw al
  refine ⟨fun h => if_pos h, fun h => ?_, rfl, r.targetTrig_lt, rfl⟩
  have he : r.evSize = (raw + al - 1) / al * al := if_neg (by omega)
  rw [he]
  exact roundUp_least (by omega)

/-! ## Plain reads and writes -/

theorem runEvent_rd {r : Reg} (h : r ≠ .replyFifo) (k : Nat) (s : State) :
    runEvent (.rd r k) s = .next (setRdata (readReg r k s) s) := by
  simp only [runEvent, hostRead, decode, if_neg h]

/-- A write to no port is a plain register write. -/
theorem runEvent_wr {r : Reg} (h : regClass r ≠ .port) (w : Word) (s : State) :
    runEvent (.wr r w) s = .next (writeReg r w s) := by
  simp only [runEvent, hostWrite]
  split
  · exact absurd ‹_› h
  all_goals rfl

/-- Only a read-write register is written. -/
theorem writeReg_of_not_rw {r : Reg} (h : regClass r ≠ .rw) (w : Word) (s : State) : writeReg r w s = s := by
  cases r
  case mapSel | roCnfg | roTimeoutPolls | roTrigCnfg | roEvsizeCnfg => exact absurd rfl h
  all_goals rfl

theorem readReg_port {r : Reg} (h : regClass r = .port) (k : Nat) (s : State) : readReg r k s = 0#32 := by
  cases r
  case ctrlReset | codecCtrl | mapAdd | encReq | decIn | cmdFifo | tuningCtrl | opticalCtrl | roCtrl => rfl
  all_goals cases h

/-- An array register shows an element by its index, and 0 beyond its content (R45, R56, R57). -/
theorem getD_of_getElem? {ws : List Word} {k : Nat} {w : Word} (h : ws[k]? = some w) : ws.getD k 0#32 = w := by
  rw [List.getD_eq_getElem?_getD, h, Option.getD_some]

/-- A byte shown alone in a register (R33, R59). -/
theorem byteWord_fields (b : Byte) : bits (0#24 ++ b) 0 8 = b ∧ bits (0#24 ++ b) 8 24 = 0#24 := by
  simp only [bits_eq_iff, append_toNat, BitVec.toNat_ofNat]
  omega

/-- The encode count shown alone in a register (R36). -/
theorem countWord_fields (b : BitVec 2) : bits (0#30 ++ b) 0 2 = b ∧ bits (0#30 ++ b) 2 30 = 0#30 := by
  simp only [bits_eq_iff, append_toNat, BitVec.toNat_ofNat]
  omega

/-- Settles O10: the classes of the registers decide reads and writes; then each plain register's value. -/
theorem readsChangeNothingAndReadOnlyIgnoresWrites : Obligations.ReadsChangeNothingAndReadOnlyIgnoresWrites := by
  refine ⟨fun r k s h => runEvent_rd h k s, fun r k s h => readReg_port h k s, fun r w s h => ?_, fun s k => ?_⟩
  · have hport : regClass r ≠ .port := by rcases h with h | h <;> simp [h]
    have hrw : regClass r ≠ .rw := by rcases h with h | h <;> simp [h]
    rw [runEvent_wr hport, writeReg_of_not_rw hrw]
  · obtain ⟨hsel, hsel0⟩ := byteWord_fields s.codec.mapSel
    obtain ⟨hcount, hcount0⟩ := countWord_fields s.codec.encCount
    obtain ⟨hnoprog, hnoprog0⟩ := byteWord_fields s.readout.noprog
    exact ⟨⟨rfl, rfl⟩, ⟨hsel, hsel0, hcount, hcount0, rfl, rfl, rfl⟩,
      ⟨rfl, fun _ => getD_of_getElem?, List.getD_eq_default _ _⟩,
      ⟨rfl, rfl, rfl, rfl, rfl, rfl, hnoprog, hnoprog0⟩,
      fun h => (BitVec.toNat_ofNat _ _).trans (Nat.mod_eq_of_lt h),
      fun h => (BitVec.toNat_ofNat _ _).trans (Nat.mod_eq_of_lt h), fun _ => getD_of_getElem?, List.getD_eq_default _ _,
      fun _ => getD_of_getElem?, List.getD_eq_default _ _⟩

/-- A configuration register is stored while no request is in progress. -/
theorem writeConfig_idle {s : State} (h : s.readout.state.busy = false) (r : Readout) :
    writeConfig r s = setReadout r s := by simp [writeConfig, h]

/-- It refuses while one is. -/
theorem writeConfig_busy {s : State} (h : s.readout.state.busy = true) (r : Readout) :
    writeConfig r s = raise .roBusy s := by simp [writeConfig, h]

/-- Settles O11: a write to each read-write register is plain, and unit R's four share one check. -/
theorem configurationRegistersStoreOrRefuse : Obligations.ConfigurationRegistersStoreOrRefuse := by
  refine fun s w => ⟨rfl, fun h => ?_, fun h r hr => ?_⟩
  · refine ⟨?_, ?_, ?_, ?_⟩ <;> exact congrArg Host.Outcome.next (writeConfig_idle h _)
  · rcases hr with rfl | rfl | rfl | rfl <;> exact congrArg Host.Outcome.next (writeConfig_busy h _)

/-- Settles O52: both are the one reset of the block. -/
theorem resetLeavesResetValues : Obligations.ResetLeavesResetValues := fun _ => ⟨rfl, rfl⟩

end Sys2Proof.Machine
end

