-- ==== Sys2Proof/Proofs/Idempotence.lean ====
section
/-! PROOFS. The commands R89 lists as idempotent (O56): first the operations on the state that absorb their own
repetition, then each command through them. -/

namespace Sys2Proof.Machine

/-! ## The operations -/

/-- A sticky flag raised twice is raised once (R331). -/
theorem raise_raise (e : Err) (s : State) : raise e (raise e s) = raise e s := by
  have hflag : s.error ||| e.mask ||| e.mask = s.error ||| e.mask := by rw [BitVec.or_assoc, BitVec.or_self]
  exact congrArg (fun w => { s with error := w }) hflag

/-- Two replacements of a line's entry are one by the composition, when the first keeps the entry's line. -/
theorem updateLine_updateLine {x : LineId} {f : LineEntry → LineEntry} (hf : ∀ e, (f e).id = e.id)
    (g : LineEntry → LineEntry) (ls : List LineEntry) :
    updateLine x g (updateLine x f ls) = updateLine x (g ∘ f) ls := by
  simp only [updateLine, List.map_map]
  refine List.map_congr_left fun e _ => ?_
  by_cases h : e.id = x <;> simp [h, hf]

/-- The later record of a line replaces the earlier one. -/
theorem setTuning_setTuning (x : LineId) (t t' : LineTuning) (s : State) :
    setTuning x t' (setTuning x t s) = setTuning x t' s := by
  have hlines := updateLine_updateLine (x := x) (f := fun e => { e with tuning := t }) (fun _ => rfl)
    (fun e => { e with tuning := t' }) s.link.lines
  exact congrArg (fun ls => setLink { s.link with lines := ls } s) hlines

/-- A line given a record is found with it. -/
theorem findLine_setTuning {x : LineId} {s : State} {e : LineEntry} (t : LineTuning)
    (h : findLine x s.link.lines = some e) :
    findLine x (setTuning x t s).link.lines = some { e with tuning := t } :=
  (findLine_updateLine (f := fun e => { e with tuning := t }) (fun _ => rfl) s.link.lines).trans
    (congrArg (Option.map _) h)

/-- A line command is idempotent when, on an existing line, it changes nothing once run on the entry it left; on a
missing line it only raises (R201). -/
theorem onLine_onLine {x : LineId} {k : State → LineEntry → State}
    (hk : ∀ s e, findLine x s.link.lines = some e →
      ∃ e', findLine x (k s e).link.lines = some e' ∧ k (k s e) e' = k s e) (s : State) :
    onLine x (onLine x s (k s)) (k (onLine x s (k s))) = onLine x s (k s) := by
  cases h : findLine x s.link.lines with
  | none =>
    have hr : findLine x (raise .lnkBadline s).link.lines = none := h
    rw [onLine_none _ h, onLine_none _ hr, raise_raise]
  | some e =>
    obtain ⟨e', he', hsame⟩ := hk s e h
    rw [onLine_some _ h, onLine_some _ he', hsame]

/-! ## The commands of unit C -/

theorem configure_unsupported {s : State} (h : variantOfVersion s.params.busProtoVer = none) :
    configure s = raise .cfgVersion (setCodec { s.codec.cleared with configured := false } s) := by
  simp [configure, h]

theorem configure_supported {s : State} {v : Variant} (h : variantOfVersion s.params.busProtoVer = some v) :
    configure s = setCodec { s.codec.cleared with variant := v, configured := true } s := by
  simp [configure, h]

/-- TXC.CONFIGURE reads the version only, a parameter, so its second run takes the branch of the first (R161). -/
theorem configure_configure (s : State) : configure (configure s) = configure s := by
  have hp : (configure s).params = s.params := (exec_readout .txcConfigure s _ rfl).1
  cases h : variantOfVersion s.params.busProtoVer with
  | none =>
    rw [configure_unsupported (s := configure s) (by rw [hp, h]), configure_unsupported h]
    exact raise_raise .cfgVersion (setCodec { s.codec.cleared with configured := false } s)
  | some v =>
    rw [configure_supported (s := configure s) (by rw [hp, h]), configure_supported h]
    rfl

/-- TXC.FLUSH empties what is then empty (R162). -/
theorem flush_flush (s : State) : flush (flush s) = flush s := rfl

/-! ## The commands of unit L -/

/-- A reply shows the line's record, which writing the reply leaves as it was (R203, R204). -/
theorem onLine_setReply_idem (x : LineId) (reply : LineTuning → Word) (s : State) :
    onLine x (onLine x s fun e => setReply (reply e.tuning) s)
      (fun e => setReply (reply e.tuning) (onLine x s fun e => setReply (reply e.tuning) s)) =
    onLine x s fun e => setReply (reply e.tuning) s :=
  onLine_onLine (k := fun s e => setReply (reply e.tuning) s) (fun _ e he => ⟨e, he, rfl⟩) s

theorem getCfg_getCfg (x : LineId) (s : State) : getCfg x (getCfg x s) = getCfg x s :=
  onLine_setReply_idem x LineTuning.cfgReply s

theorem getStat_getStat (x : LineId) (s : State) : getStat x (getStat x s) = getStat x s :=
  onLine_setReply_idem x LineTuning.statReply s

/-- Each of the three modes sets the fields it sets without reading one (R205). -/
theorem LineTuning.withMode_withMode (t : LineTuning) (mode : BitVec 2) (delay : BitVec 5) (bitslip : BitVec 3) :
    (t.withMode mode delay bitslip).withMode mode delay bitslip = t.withMode mode delay bitslip := by
  unfold LineTuning.withMode
  split
  · rfl
  · split <;> rfl

theorem setMode_setMode (x : LineId) (mode : BitVec 2) (delay : BitVec 5) (bitslip : BitVec 3) (s : State) :
    setMode x mode delay bitslip (setMode x mode delay bitslip s) = setMode x mode delay bitslip s := by
  unfold setMode
  split
  · exact raise_raise _ _
  · refine onLine_onLine (k := fun s e => setTuning x (e.tuning.withMode mode delay bitslip) s) (fun s e he => ?_) s
    exact ⟨_, findLine_setTuning _ he, by rw [LineTuning.withMode_withMode, setTuning_setTuning]⟩

/-- LNK.SETPAT keeps the mode, so its order check answers the second time as it did the first (R207). -/
theorem setPat_setPat (x : LineId) (plen pat : Byte) (s : State) :
    setPat x plen pat (setPat x plen pat s) = setPat x plen pat s := by
  unfold setPat
  split
  · exact raise_raise _ _
  · refine onLine_onLine (k := fun s e => if e.tuning.mode ≠ .patternInject then raise .lnkOrder s
      else setTuning x (e.tuning.withPattern plen pat) s) (fun s e he => ?_) s
    by_cases hm : e.tuning.mode ≠ .patternInject
    · simp only [if_pos hm]
      exact ⟨e, he, by rw [if_pos hm, raise_raise]⟩
    · have hm' : ¬ (e.tuning.withPattern plen pat).mode ≠ .patternInject := hm
      simp only [if_neg hm]
      refine ⟨_, findLine_setTuning _ he, ?_⟩
      rw [if_neg hm', setTuning_setTuning]
      rfl

/-- LNK.OPTSEL leaves the number of links, which decides whether it selects or raises (R219). -/
theorem selectLink_selectLink (k : Nibble) (s : State) : selectLink k (selectLink k s) = selectLink k s := by
  by_cases h : s.link.links.length ≤ k.toNat
  · simp [selectLink, h, raise_raise]
  · simp [selectLink, h, setLink]

/-- Settles O56: one repetition law per command. -/
theorem repeatedCommandsAreIdempotent : Obligations.RepeatedCommandsAreIdempotent := by
  rintro i s t u
    (rfl | rfl | ⟨h, c, l, m, d, b, rfl⟩ | ⟨h, c, l, n, p, rfl⟩ | ⟨k, rfl⟩ | ⟨h, c, l, rfl⟩ | ⟨h, c, l, rfl⟩) ht hu <;>
    cases ht <;> cases hu
  · exact configure_configure s
  · exact flush_flush s
  · exact setMode_setMode ⟨h, c, l⟩ m d b s
  · exact setPat_setPat ⟨h, c, l⟩ n p s
  · exact selectLink_selectLink k s
  · exact getCfg_getCfg ⟨h, c, l⟩ s
  · exact getStat_getStat ⟨h, c, l⟩ s

end Sys2Proof.Machine
end

