-- ==== Sys2Proof/Proofs/RoundTrip.lean ====
section
/-! PROOFS. The decoder and the encoder (O1, O2, O3): an issue decodes to an instruction exactly when the instruction is
well-formed and the issue is its encoding. The fields of each packed word give one direction (`decode_encode`); the
word put together again from its fields gives the other, format by format (`decode_encodes`). Then the words the spec
writes out (O4). -/

namespace Sys2Proof

/-! ## The fields of the packed words of the commands -/

@[simp] theorem cmWord_fields (link hybrid chip : Nibble) (bw : BitVec 2) (busAddr : BitVec 7) :
    let w := cmWord link hybrid chip bw busAddr
    bits w 28 4 = 0#4 ∧ bits w 24 4 = link ∧ bits w 20 4 = hybrid ∧ bits w 16 4 = chip ∧ bits w 10 6 = 0#6
      ∧ bits w 8 2 = bw ∧ bits w 7 1 = 0#1 ∧ bits w 0 7 = busAddr := by
  simp only [bits_eq_iff, cmWord_toNat, BitVec.toNat_ofNat]
  omega

@[simp] theorem ceWord_fields (bcast write readback : BitVec 1) (hybrid chip : Nibble) (page : BitVec 1)
    (addr value : Byte) :
    let w := ceWord bcast write readback hybrid chip page addr value
    bits w 31 1 = bcast ∧ bits w 30 1 = write ∧ bits w 29 1 = readback ∧ bits w 28 1 = 0#1 ∧ bits w 24 4 = hybrid
      ∧ bits w 20 4 = chip ∧ bits w 18 2 = 0#2 ∧ bits w 17 1 = page ∧ bits w 16 1 = 0#1 ∧ bits w 8 8 = addr
      ∧ bits w 0 8 = value := by
  simp only [bits_eq_iff, ceWord_toNat, BitVec.toNat_ofNat]
  omega

@[simp] theorem ltWord_fields (hybrid chip line ctype : Nibble) (payload : BitVec 16) :
    let w := ltWord hybrid chip line ctype payload
    bits w 28 4 = hybrid ∧ bits w 24 4 = chip ∧ bits w 20 4 = line ∧ bits w 16 4 = ctype ∧ bits w 0 16 = payload := by
  simp only [bits_eq_iff, ltWord_toNat]
  omega

@[simp] theorem ltWord_setmode_fields (hybrid chip line ctype : Nibble) (mode : BitVec 2) (delay : BitVec 5)
    (bitslip : BitVec 3) :
    let w := ltWord hybrid chip line ctype (setmodePayload mode delay bitslip)
    bits w 14 2 = 0#2 ∧ bits w 12 2 = mode ∧ bits w 8 4 = 0#4 ∧ bits w 3 5 = delay ∧ bits w 0 3 = bitslip := by
  simp only [bits_eq_iff, ltWord_toNat, setmodePayload_toNat, BitVec.toNat_ofNat]
  omega

@[simp] theorem ltWord_setpat_fields (hybrid chip line ctype : Nibble) (plen pat : Byte) :
    let w := ltWord hybrid chip line ctype (setpatPayload plen pat)
    bits w 8 8 = plen ∧ bits w 0 8 = pat := by
  simp only [bits_eq_iff, ltWord_toNat, setpatPayload_toNat]
  omega

@[simp] theorem loWord_fields (link code : Nibble) :
    let w := loWord link code
    bits w 12 20 = 0#20 ∧ bits w 8 4 = link ∧ bits w 4 4 = 0#4 ∧ bits w 0 4 = code := by
  simp only [bits_eq_iff, loWord_toNat, BitVec.toNat_ofNat]
  omega

@[simp] theorem rcWord_fields (operand : BitVec 28) (code : Nibble) :
    let w := rcWord operand code
    bits w 4 28 = operand ∧ bits w 0 4 = code := by
  simp only [bits_eq_iff, rcWord_toNat]
  omega

/-! ## Every well-formed instruction decodes from its encoding -/

/-- A single-chip word with `fail` 0 is read as its form (R117 checks 1 and 2). -/
theorem decode_single {w : Word} (hop : bits w 28 4 = 0#4) (hfail : bits w 18 1 = 0#1) (v : Variant) :
    decode (.dispatch v w) = decodeSingle v w := by
  simp [decode, decodeTransaction, hop, hfail]

/-- So is a broadcast with selector 0: what check 3 refuses under LEG, the forms refuse likewise. -/
theorem decode_broadcast {w : Word} (hop : bits w 28 4 = 2#4) (hsel : bits w 20 8 = 0#8) (hfail : bits w 18 1 = 0#1)
    (v : Variant) : decode (.dispatch v w) = decodeBroadcast v w := by
  by_cases h : v = .leg ∧ bits w 16 1 = 0#1 ∧ bits w 19 1 = 1#1
  · obtain ⟨rfl, hrd, hrb⟩ := h
    simp [decode, decodeTransaction, decodeBroadcast, hop, hfail, hrd, hrb]
  · simp [decode, decodeTransaction, hop, hfail, hsel, h]

/-- A word whose code is not that of `x` is not `x`: the other commands of the ports of LNK.OPTSEL and ROE.READN are
single words. -/
theorem ne_of_code {w : Word} {c : Nibble} (x : Word) (h : bits w 0 4 = c) (hx : bits x 0 4 ≠ c := by decide) :
    w ≠ x := fun e => hx (e ▸ h)

theorem decode_encode (i : Instr) (h : i.wellFormed = true) : decode (encode i) = .ok i := by
  cases i
  case sysReset | txcConfigure | txcFlush | lnkOptrst | roeReset | roeReadav => rfl
  case txcDec | txcPush | txcPop => rfl
  case txcMapadd =>
    have hbw : bwOk _ = true := h
    simp [encode, decode, decodeWrite, decodeCm, hbw]
  case txcEnc => simp [encode, decode, decodeWrite, decodeCe]
  case lnkSetmode =>
    have hm : modeOk _ = true := h
    simp [encode, decode, decodeWrite, decodeLt, hm]
  case lnkSetpat =>
    have hp : plenOk _ = true := h
    simp [encode, decode, decodeWrite, decodeLt, hp]
  case lnkGetcfg | lnkGetstat | lnkDopa | lnkDowa | lnkCapture => simp [encode, decode, decodeWrite, decodeLt]
  case lnkOptsel k =>
    have h1 : loWord k 2#4 ≠ 1#32 := ne_of_code (c := 2#4) 1#32 (by simp)
    simp [encode, decode, decodeWrite, decodeLo, h1]
  case roeReadn n =>
    have hn : eventsOk n = true := h
    have h1 : rcWord n 3#4 ≠ 1#32 := ne_of_code (c := 3#4) 1#32 (by simp)
    have h2 : rcWord n 3#4 ≠ 2#32 := ne_of_code (c := 3#4) 2#32 (by simp)
    simp [encode, decode, decodeWrite, decodeRc, h1, h2, hn]
  case legWr | legRd | legRdb | idxWr | idxWrv | idxRd | idxRdb | optWr | optWrv | optRd | optRdb =>
    simp [encode, decode_single, decodeSingle]
  case legBwr | legBrd | legBrdb | idxBwr | idxBwrv | idxBrd | idxBrdb | optBwr | optBwrv | optBrd | optBrdb =>
    simp [encode, decode_broadcast, decodeBroadcast]

/-! ## Every accepted word is put together again from its fields -/

/-- A request word is the transaction word of its fields, the fixed ones at their values. -/
theorem twWord_of_fields {w : Word} {op : Nibble} {sel : Byte} {rb fail rd : BitVec 1} (hop : bits w 28 4 = op)
    (hsel : bits w 20 8 = sel) (hrb : bits w 19 1 = rb) (hfail : bits w 18 1 = fail) (hrd : bits w 16 1 = rd) :
    twWord op sel rb fail (bits w 17 1) rd (bits w 8 8) (bits w 0 8) = w := by
  rw [← hop, ← hsel, ← hrb, ← hfail, ← hrd]; exact twWord_bits w

theorem cmWord_of_fields {w : Word} (h1 : bits w 28 4 = 0#4) (h2 : bits w 10 6 = 0#6) (h3 : bits w 7 1 = 0#1) :
    cmWord (bits w 24 4) (bits w 20 4) (bits w 16 4) (bits w 8 2) (bits w 0 7) = w := by
  apply BitVec.eq_of_toNat_eq
  simp only [bits_eq_iff, BitVec.toNat_ofNat] at h1 h2 h3
  simp only [cmWord_toNat, bits_toNat]
  omega

theorem ceWord_of_fields {w : Word} (h1 : bits w 28 1 = 0#1) (h2 : bits w 18 2 = 0#2) (h3 : bits w 16 1 = 0#1) :
    ceWord (bits w 31 1) (bits w 30 1) (bits w 29 1) (bits w 24 4) (bits w 20 4) (bits w 17 1) (bits w 8 8)
      (bits w 0 8) = w := by
  apply BitVec.eq_of_toNat_eq
  simp only [bits_eq_iff, BitVec.toNat_ofNat] at h1 h2 h3
  simp only [ceWord_toNat, bits_toNat]
  omega

theorem ltWord_of_fields {w : Word} {ctype : Nibble} {payload : BitVec 16} (hc : bits w 16 4 = ctype)
    (hp : bits w 0 16 = payload) : ltWord (bits w 28 4) (bits w 24 4) (bits w 20 4) ctype payload = w := by
  apply BitVec.eq_of_toNat_eq
  simp only [← hc, ← hp, ltWord_toNat, bits_toNat]
  omega

theorem setmodePayload_of_fields {w : Word} (h1 : bits w 14 2 = 0#2) (h2 : bits w 8 4 = 0#4) :
    bits w 0 16 = setmodePayload (bits w 12 2) (bits w 3 5) (bits w 0 3) := by
  simp only [bits_eq_iff, BitVec.toNat_ofNat] at h1 h2
  simp only [bits_eq_iff, setmodePayload_toNat, bits_toNat]
  omega

theorem setpatPayload_bits (w : Word) : bits w 0 16 = setpatPayload (bits w 8 8) (bits w 0 8) := by
  simp only [bits_eq_iff, setpatPayload_toNat, bits_toNat]
  omega

theorem loWord_of_fields {w : Word} {code : Nibble} (hc : bits w 0 4 = code) (h1 : bits w 4 4 = 0#4)
    (h2 : bits w 12 20 = 0#20) : loWord (bits w 8 4) code = w := by
  apply BitVec.eq_of_toNat_eq
  simp only [bits_eq_iff, BitVec.toNat_ofNat] at h1 h2
  simp only [← hc, loWord_toNat, bits_toNat]
  omega

theorem rcWord_of_fields {w : Word} {code : Nibble} (hc : bits w 0 4 = code) : rcWord (bits w 4 28) code = w := by
  apply BitVec.eq_of_toNat_eq
  simp only [← hc, rcWord_toNat, bits_toNat]
  omega

/-- The issue `c` is what the well-formed instruction `i` encodes to. -/
def Encodes (i : Instr) (c : Issue) : Prop := i.wellFormed = true ∧ encode i = c

theorem decodeSingle_encodes {v : Variant} {w : Word} {i : Instr} (hop : bits w 28 4 = 0#4) (hfail : bits w 18 1 = 0#1)
    (h : decodeSingle v w = .ok i) : Encodes i (.dispatch v w) := by
  obtain ⟨rb, hrb⟩ : ∃ rb, bits w 19 1 = rb := ⟨_, rfl⟩
  obtain ⟨rd, hrd⟩ : ∃ rd, bits w 16 1 = rd := ⟨_, rfl⟩
  simp only [decodeSingle, hrb, hrd] at h
  cases v with
  | leg | opt =>
    have hw := twWord_of_fields hop (nibbleSel_bits w).symm hrb hfail hrd
    rcases bit_eq_zero_or_one rb with rfl | rfl <;> rcases bit_eq_zero_or_one rd with rfl | rfl <;> cases h <;>
      exact ⟨rfl, congrArg _ hw⟩
  | idx =>
    have hw := twWord_of_fields hop rfl hrb hfail hrd
    rcases bit_eq_zero_or_one rb with rfl | rfl <;> rcases bit_eq_zero_or_one rd with rfl | rfl <;> cases h <;>
      exact ⟨rfl, congrArg _ hw⟩

theorem decodeBroadcast_encodes {v : Variant} {w : Word} {i : Instr} (hop : bits w 28 4 = 2#4)
    (hsel : bits w 20 8 = 0#8) (hfail : bits w 18 1 = 0#1) (h : decodeBroadcast v w = .ok i) :
    Encodes i (.dispatch v w) := by
  obtain ⟨rb, hrb⟩ : ∃ rb, bits w 19 1 = rb := ⟨_, rfl⟩
  obtain ⟨rd, hrd⟩ : ∃ rd, bits w 16 1 = rd := ⟨_, rfl⟩
  have hw := twWord_of_fields hop hsel hrb hfail hrd
  simp only [decodeBroadcast, hrb, hrd] at h
  cases v <;> rcases bit_eq_zero_or_one rb with rfl | rfl <;> rcases bit_eq_zero_or_one rd with rfl | rfl <;>
    cases h <;> exact ⟨rfl, congrArg _ hw⟩

theorem decodeTransaction_encodes {v : Variant} {w : Word} {i : Instr} (h : decodeTransaction v w = .ok i) :
    Encodes i (.dispatch v w) := by
  unfold decodeTransaction at h
  split at h
  next hop =>
    split at h
    next hfail => exact decodeSingle_encodes hop hfail h
    next => cases h
  next =>
    split at h
    next hop =>
      split at h
      next hfail =>
        split at h
        next => cases h
        next =>
          split at h
          next hsel => exact decodeBroadcast_encodes hop hsel hfail h
          next => cases h
      next => cases h
    next => cases h

theorem decodeGc_encodes {w : Word} {i : Instr} (h : decodeGc w = .ok i) : Encodes i (.write .ctrlReset w) := by
  unfold decodeGc at h
  split at h <;> cases h
  subst w
  exact ⟨rfl, rfl⟩

theorem decodeCc_encodes {w : Word} {i : Instr} (h : decodeCc w = .ok i) : Encodes i (.write .codecCtrl w) := by
  unfold decodeCc at h
  split at h
  next hw => subst hw; cases h; exact ⟨rfl, rfl⟩
  next =>
    split at h <;> cases h
    subst w
    exact ⟨rfl, rfl⟩

theorem decodeCm_encodes {w : Word} {i : Instr} (h : decodeCm w = .ok i) : Encodes i (.write .mapAdd w) := by
  unfold decodeCm at h
  split at h <;> cases h
  next hf =>
    obtain ⟨h1, h2, h3, hbw⟩ := hf
    exact ⟨hbw, congrArg _ (cmWord_of_fields h1 h2 h3)⟩

theorem decodeCe_encodes {w : Word} {i : Instr} (h : decodeCe w = .ok i) : Encodes i (.write .encReq w) := by
  unfold decodeCe at h
  split at h <;> cases h
  next hf =>
    obtain ⟨h1, h2, h3⟩ := hf
    exact ⟨rfl, congrArg _ (ceWord_of_fields h1 h2 h3)⟩

theorem decodeLt_encodes {w : Word} {i : Instr} (h : decodeLt w = .ok i) : Encodes i (.write .tuningCtrl w) := by
  unfold decodeLt at h
  repeat' split at h
  all_goals cases h
  -- In the order of `ctype`; only LNK.SETMODE and LNK.SETPAT have a payload.
  next hc hp => exact ⟨rfl, congrArg _ (ltWord_of_fields hc hp)⟩
  next hc hp => exact ⟨rfl, congrArg _ (ltWord_of_fields hc hp)⟩
  next hc hp =>
    obtain ⟨h1, h2, hm⟩ := hp
    exact ⟨hm, congrArg _ (ltWord_of_fields hc (setmodePayload_of_fields h1 h2))⟩
  next hc hp => exact ⟨hp, congrArg _ (ltWord_of_fields hc (setpatPayload_bits w))⟩
  all_goals
    next hc hp => exact ⟨rfl, congrArg _ (ltWord_of_fields hc hp)⟩

theorem decodeLo_encodes {w : Word} {i : Instr} (h : decodeLo w = .ok i) : Encodes i (.write .opticalCtrl w) := by
  unfold decodeLo at h
  split at h
  next hw => subst hw; cases h; exact ⟨rfl, rfl⟩
  next =>
    split at h <;> cases h
    next hf =>
      obtain ⟨hc, h1, h2⟩ := hf
      exact ⟨rfl, congrArg _ (loWord_of_fields hc h1 h2)⟩

theorem decodeRc_encodes {w : Word} {i : Instr} (h : decodeRc w = .ok i) : Encodes i (.write .roCtrl w) := by
  unfold decodeRc at h
  split at h
  next hw => subst hw; cases h; exact ⟨rfl, rfl⟩
  next =>
    split at h
    next hw => subst hw; cases h; exact ⟨rfl, rfl⟩
    next =>
      split at h <;> cases h
      next hf =>
        obtain ⟨hc, hn⟩ := hf
        exact ⟨hn, congrArg _ (rcWord_of_fields hc)⟩

theorem decodeWrite_encodes {port : Reg} {w : Word} {i : Instr} (h : decodeWrite port w = .ok i) :
    Encodes i (.write port w) := by
  cases port
  case ctrlReset => exact decodeGc_encodes h
  case codecCtrl => exact decodeCc_encodes h
  case mapAdd => exact decodeCm_encodes h
  case encReq => exact decodeCe_encodes h
  case tuningCtrl => exact decodeLt_encodes h
  case opticalCtrl => exact decodeLo_encodes h
  case roCtrl => exact decodeRc_encodes h
  case decIn | cmdFifo => cases h; exact ⟨rfl, rfl⟩
  all_goals cases h

theorem decode_encodes {c : Issue} {i : Instr} (h : decode c = .ok i) : Encodes i c := by
  cases c with
  | write port w => exact decodeWrite_encodes h
  | read port =>
    simp only [decode] at h
    split at h <;> cases h
    subst port
    exact ⟨rfl, rfl⟩
  | dispatch v w => exact decodeTransaction_encodes h

/-! ## The statements -/

/-- Settles O1. -/
theorem decodeEncodeRoundTrip : Obligations.DecodeEncodeRoundTrip := decode_encode

/-- Settles O2. -/
theorem encodeDecodeRoundTrip : Obligations.EncodeDecodeRoundTrip := fun _ _ h => (decode_encodes h).2

/-- Settles O3. -/
theorem decodedIsWellFormed : Obligations.DecodedIsWellFormed := fun _ _ h => (decode_encodes h).1

/-- Settles O4: each word is the encoding of what it is read as. -/
theorem wordsWrittenOutDecode : Obligations.WordsWrittenOutDecode :=
  ⟨decode_encode (.txcMapadd 1#4 2#4 3#4 1#2 0x43#7) rfl,
   decode_encode (.txcEnc 0#1 1#1 1#1 2#4 3#4 0#1 0x4F#8 0xA5#8) rfl,
   decode_encode (.legWr 2#4 3#4 0#1 0x4F#8 0xA5#8) rfl,
   decode_encode (.legRdb 2#4 3#4 0#1 0x4F#8 0x00#8) rfl,
   decode_encode (.idxWrv 2#8 0#1 0x4F#8 0xA5#8) rfl,
   decode_encode (.optWrv 1#4 0#4 0#1 0x4F#8 0xA5#8) rfl,
   decode_encode (.lnkSetmode 1#4 2#4 1#4 2#2 13#5 5#3) rfl,
   decode_encode (.lnkSetpat 1#4 2#4 0#4 8#8 0xAA#8) rfl,
   decode_encode (.lnkOptsel 3#4) rfl,
   decode_encode (.roeReadn 2#28) rfl,
   decode_encode .sysReset rfl⟩

end Sys2Proof
end

