-- ==== Sys2Proof/Proofs/Formats.lean ====
section
/-! PROOFS. The masks and matches of 30_encoding.md (O5, O6, O7), and the word a port does not admit (O9). A mask is a
concatenation of whole fields and of bits left free, so a masked comparison is a comparison field by field
(`bits_and_append`); one lemma per mask says which fields. -/

namespace Sys2Proof

/-! ## Masks as rows of fields -/

theorem append_inj {m n : Nat} {x p : BitVec m} {y q : BitVec n} : x ++ y = p ++ q ↔ x = p ∧ y = q := by
  refine ⟨fun h => ?_, fun ⟨hx, hy⟩ => by rw [hx, hy]⟩
  have hhi : (x ++ y).extractLsb' n m = (p ++ q).extractLsb' n m := by rw [h]
  have hlo : (x ++ y).extractLsb' 0 n = (p ++ q).extractLsb' 0 n := by rw [h]
  rw [BitVec.extractLsb'_append_eq_left, BitVec.extractLsb'_append_eq_left] at hhi
  rw [BitVec.extractLsb'_append_eq_right, BitVec.extractLsb'_append_eq_right] at hlo
  exact ⟨hhi, hlo⟩

/-- A masked comparison splits at any place: the upper part of mask and match judges the upper bits, the lower part
the lower. -/
theorem bits_and_append (w : Word) (lo : Nat) {m n : Nat} (a p : BitVec m) (b q : BitVec n) :
    bits w lo (m + n) &&& (a ++ b) = p ++ q ↔ bits w (lo + n) m &&& a = p ∧ bits w lo n &&& b = q := by
  rw [bits, ← BitVec.extractLsb'_append_extractLsb'_eq_extractLsb' rfl, BitVec.and_append, append_inj]
  rfl

/-- A masked comparison of a word, from the mask and match as concatenations. -/
theorem and_eq_iff {w mask value : Word} {p : Prop} (h : bits w 0 32 &&& mask = value ↔ p) :
    w &&& mask = value ↔ p := by
  have hw : bits w 0 32 = w := by rw [bits_eq_iff]; omega
  rwa [hw] at h

/-- `op`, `rb`, `fail` and `rd` of a single-chip word (R119). -/
theorem and_singleMask (w : Word) (rb rd : BitVec 1) :
    w &&& 0xF00D0000#32 = twWord 0#4 0#8 rb 0#1 0#1 rd 0#8 0#8 ↔
      bits w 28 4 = 0#4 ∧ bits w 19 1 = rb ∧ bits w 18 1 = 0#1 ∧ bits w 16 1 = rd := by
  refine and_eq_iff (show bits w 0 (4 + 8 + 1 + 1 + 1 + 1 + 8 + 8) &&& (BitVec.allOnes 4 ++ 0#8 ++ BitVec.allOnes 1
    ++ BitVec.allOnes 1 ++ 0#1 ++ BitVec.allOnes 1 ++ 0#8 ++ 0#8) =
    0#4 ++ 0#8 ++ rb ++ 0#1 ++ 0#1 ++ rd ++ 0#8 ++ 0#8 ↔ _ from ?_)
  simp only [bits_and_append, BitVec.and_allOnes, BitVec.and_zero, and_true]
  simp only [and_assoc, Nat.reduceAdd]

/-- `op`, selector, `rb`, `fail` and `rd` of a broadcast word (R119). -/
theorem and_broadcastMask (w : Word) (rb rd : BitVec 1) :
    w &&& 0xFFFD0000#32 = twWord 2#4 0#8 rb 0#1 0#1 rd 0#8 0#8 ↔
      bits w 28 4 = 2#4 ∧ bits w 20 8 = 0#8 ∧ bits w 19 1 = rb ∧ bits w 18 1 = 0#1 ∧ bits w 16 1 = rd := by
  refine and_eq_iff (show bits w 0 (4 + 8 + 1 + 1 + 1 + 1 + 8 + 8) &&& (BitVec.allOnes 4 ++ BitVec.allOnes 8
    ++ BitVec.allOnes 1 ++ BitVec.allOnes 1 ++ 0#1 ++ BitVec.allOnes 1 ++ 0#8 ++ 0#8) =
    2#4 ++ 0#8 ++ rb ++ 0#1 ++ 0#1 ++ rd ++ 0#8 ++ 0#8 ↔ _ from ?_)
  simp only [bits_and_append, BitVec.and_allOnes, BitVec.and_zero, and_true]
  simp only [and_assoc, Nat.reduceAdd]

/-- The must-be-0 bits of format CM (R132). -/
theorem and_cmMask (w : Word) :
    w &&& 0xF000FC80#32 = 0#32 ↔ bits w 28 4 = 0#4 ∧ bits w 10 6 = 0#6 ∧ bits w 7 1 = 0#1 := by
  refine and_eq_iff (show bits w 0 (4 + 12 + 6 + 2 + 1 + 7) &&& (BitVec.allOnes 4 ++ 0#12 ++ BitVec.allOnes 6 ++ 0#2
    ++ BitVec.allOnes 1 ++ 0#7) = 0#4 ++ 0#12 ++ 0#6 ++ 0#2 ++ 0#1 ++ 0#7 ↔ _ from ?_)
  simp only [bits_and_append, BitVec.and_allOnes, BitVec.and_zero, and_true]
  simp only [and_assoc, Nat.reduceAdd]

/-- The must-be-0 bits of format CE (R133). -/
theorem and_ceMask (w : Word) :
    w &&& 0x100D0000#32 = 0#32 ↔ bits w 28 1 = 0#1 ∧ bits w 18 2 = 0#2 ∧ bits w 16 1 = 0#1 := by
  refine and_eq_iff (show bits w 0 (3 + 1 + 8 + 2 + 1 + 1 + 16) &&& (0#3 ++ BitVec.allOnes 1 ++ 0#8 ++ BitVec.allOnes 2
    ++ 0#1 ++ BitVec.allOnes 1 ++ 0#16) = 0#3 ++ 0#1 ++ 0#8 ++ 0#2 ++ 0#1 ++ 0#1 ++ 0#16 ↔ _ from ?_)
  simp only [bits_and_append, BitVec.and_allOnes, BitVec.and_zero, and_true, true_and]
  simp only [and_assoc, Nat.reduceAdd]

/-- `code` and the must-be-0 bits of LNK.OPTSEL (R135). -/
theorem and_loMask (w : Word) :
    w &&& 0xFFFFF0FF#32 = 2#32 ↔ bits w 12 20 = 0#20 ∧ bits w 4 4 = 0#4 ∧ bits w 0 4 = 2#4 := by
  refine and_eq_iff (show bits w 0 (20 + 4 + 4 + 4) &&& (BitVec.allOnes 20 ++ 0#4 ++ BitVec.allOnes 4
    ++ BitVec.allOnes 4) = 0#20 ++ 0#4 ++ 0#4 ++ 2#4 ↔ _ from ?_)
  simp only [bits_and_append, BitVec.and_allOnes, BitVec.and_zero, and_true]
  simp only [and_assoc, Nat.reduceAdd]

/-- `code` of format RC (R136). -/
theorem and_rcMask (w : Word) : w &&& 0xF#32 = 3#32 ↔ bits w 0 4 = 3#4 := by
  refine and_eq_iff (show bits w 0 (28 + 4) &&& (0#28 ++ BitVec.allOnes 4) = 0#28 ++ 3#4 ↔ _ from ?_)
  simp only [bits_and_append, BitVec.and_allOnes, BitVec.and_zero, true_and]

/-- `ctype` and an empty payload of format LT (R134). -/
theorem and_ltMask (w : Word) (ctype : Nibble) :
    w &&& 0x000FFFFF#32 = ltWord 0#4 0#4 0#4 ctype 0#16 ↔ bits w 16 4 = ctype ∧ bits w 0 16 = 0#16 := by
  refine and_eq_iff (show bits w 0 (4 + 4 + 4 + 4 + 16) &&& (0#4 ++ 0#4 ++ 0#4 ++ BitVec.allOnes 4 ++ BitVec.allOnes 16)
    = 0#4 ++ 0#4 ++ 0#4 ++ ctype ++ 0#16 ↔ _ from ?_)
  simp only [bits_and_append, BitVec.and_allOnes, BitVec.and_zero, true_and]

/-- `ctype` and the must-be-0 bits of LNK.SETMODE (R134). -/
theorem and_setmodeMask (w : Word) :
    w &&& 0x000FCF00#32 = 0x00020000#32 ↔ bits w 16 4 = 2#4 ∧ bits w 14 2 = 0#2 ∧ bits w 8 4 = 0#4 := by
  refine and_eq_iff (show bits w 0 (12 + 4 + 2 + 2 + 4 + 8) &&& (0#12 ++ BitVec.allOnes 4 ++ BitVec.allOnes 2 ++ 0#2
    ++ BitVec.allOnes 4 ++ 0#8) = 0#12 ++ 2#4 ++ 0#2 ++ 0#2 ++ 0#4 ++ 0#8 ↔ _ from ?_)
  simp only [bits_and_append, BitVec.and_allOnes, BitVec.and_zero, and_true, true_and]
  simp only [and_assoc, Nat.reduceAdd]

/-- `ctype` of LNK.SETPAT (R134). -/
theorem and_setpatMask (w : Word) : w &&& 0x000F0000#32 = 0x00030000#32 ↔ bits w 16 4 = 3#4 := by
  refine and_eq_iff (show bits w 0 (12 + 4 + 16) &&& (0#12 ++ BitVec.allOnes 4 ++ 0#16) = 0#12 ++ 3#4 ++ 0#16 ↔ _
    from ?_)
  simp only [bits_and_append, BitVec.and_allOnes, BitVec.and_zero, and_true, true_and]

/-! ## The operand ranges -/

theorem bwOk_iff (bw : BitVec 2) : bwOk bw = true ↔ bw = 1#2 ∨ bw = 2#2 := by simp [bwOk]

theorem modeOk_iff (mode : BitVec 2) : modeOk mode = true ↔ mode ≠ 3#2 := by simp [modeOk]

theorem plenOk_iff (plen : Byte) : plenOk plen = true ↔ plen ≠ 0#8 := by simp [plenOk]

theorem eventsOk_iff (n : BitVec 28) : eventsOk n = true ↔ n ≠ 0#28 := by simp [eventsOk]

/-! ## The command ports -/

/-- Settles O5: each port's condition, its mask and match read as fields. -/
theorem commandPortsAcceptTheirFormats : Obligations.CommandPortsAcceptTheirFormats := by
  refine ⟨⟨fun _ => rfl, fun w => ?cm, fun w => ?ce, fun _ => rfl, fun _ => rfl, rfl⟩,
    ⟨fun w => ?lo, fun w => ?rc, fun _ => rfl⟩⟩
  case cm => simp only [decode, decodeWrite, decodeCm, and_cmMask, bwOk_iff, and_assoc]
  case ce => simp only [decode, decodeWrite, decodeCe, and_ceMask]
  case lo =>
    have hmask : w &&& 0xFFFFFFFF#32 = w := BitVec.and_allOnes
    have hcode : bits w 0 4 = 2#4 ∧ bits w 4 4 = 0#4 ∧ bits w 12 20 = 0#20 ↔ w &&& 0xFFFFF0FF#32 = 2#32 := by
      rw [and_loMask]; tauto
    simp only [decode, decodeWrite, decodeLo, hmask, hcode]
  case rc =>
    have hmask : w &&& 0xFFFFFFFF#32 = w := BitVec.and_allOnes
    simp only [decode, decodeWrite, decodeRc, hmask, and_rcMask, eventsOk_iff]

/-- Settles O6: by `ctype`, which each row's mask fixes. -/
theorem tuningPortAcceptsItsFormat : Obligations.TuningPortAcceptsItsFormat := by
  intro w
  have hrow (c : Nibble) (value : Word) (h : ltWord 0#4 0#4 0#4 c 0#16 = value) :
      w &&& 0x000FFFFF#32 = value ↔ bits w 16 4 = c ∧ bits w 0 16 = 0#16 := h ▸ and_ltMask w c
  simp only [decode, decodeWrite, decodeLt, hrow 0#4 0x00000000#32 rfl, hrow 1#4 0x00010000#32 rfl, and_setmodeMask,
    and_setpatMask, hrow 4#4 0x00040000#32 rfl, hrow 5#4 0x00050000#32 rfl, hrow 6#4 0x00060000#32 rfl, modeOk_iff,
    plenOk_iff, and_assoc]
  by_cases h0 : bits w 16 4 = 0#4; · simp [h0]
  by_cases h1 : bits w 16 4 = 1#4; · simp [h1]
  by_cases h2 : bits w 16 4 = 2#4; · simp [h2]
  by_cases h3 : bits w 16 4 = 3#4; · simp [h3]
  by_cases h4 : bits w 16 4 = 4#4; · simp [h4]
  by_cases h5 : bits w 16 4 = 5#4; · simp [h5]
  by_cases h6 : bits w 16 4 = 6#4; · simp [h6]
  simp [h0, h1, h2, h3, h4, h5, h6]

/-! ## The transaction words -/

/-- A row of single-chip forms: its mask and match leave the form to `rb` and `rd`. -/
theorem decode_of_singleMask {w : Word} {rb rd : BitVec 1}
    (h : w &&& 0xF00D0000#32 = twWord 0#4 0#8 rb 0#1 0#1 rd 0#8 0#8) :
    bits w 19 1 = rb ∧ bits w 16 1 = rd ∧ ∀ v, decode (.dispatch v w) = decodeSingle v w := by
  obtain ⟨hop, hrb, hfail, hrd⟩ := (and_singleMask w rb rd).1 h
  exact ⟨hrb, hrd, decode_single hop hfail⟩

/-- A row of broadcast forms likewise. -/
theorem decode_of_broadcastMask {w : Word} {rb rd : BitVec 1}
    (h : w &&& 0xFFFD0000#32 = twWord 2#4 0#8 rb 0#1 0#1 rd 0#8 0#8) :
    bits w 19 1 = rb ∧ bits w 16 1 = rd ∧ ∀ v, decode (.dispatch v w) = decodeBroadcast v w := by
  obtain ⟨hop, hsel, hrb, hfail, hrd⟩ := (and_broadcastMask w rb rd).1 h
  exact ⟨hrb, hrd, decode_broadcast hop hsel hfail⟩

/-- Settles O7: each row's match gives `rb` and `rd`, which choose the form. -/
theorem transactionFormsFollowTheTable : Obligations.TransactionFormsFollowTheTable := by
  intro w
  refine ⟨fun h => ?_, fun h => ?_, fun h => ?_, fun h => ?_, fun h => ?_, fun h => ?_, fun h => ?_, fun h => ?_⟩
  · obtain ⟨hrb, hrd, hd⟩ := decode_of_singleMask (rb := 0#1) (rd := 0#1) h
    simp [hd, decodeSingle, hrb, hrd]
  · obtain ⟨hrb, hrd, hd⟩ := decode_of_singleMask (rb := 1#1) (rd := 0#1) h
    simp [hd, decodeSingle, hrb, hrd]
  · obtain ⟨hrb, hrd, hd⟩ := decode_of_singleMask (rb := 0#1) (rd := 1#1) h
    simp [hd, decodeSingle, hrb, hrd]
  · obtain ⟨hrb, hrd, hd⟩ := decode_of_singleMask (rb := 1#1) (rd := 1#1) h
    simp [hd, decodeSingle, hrb, hrd]
  · obtain ⟨hrb, hrd, hd⟩ := decode_of_broadcastMask (rb := 0#1) (rd := 0#1) h
    simp [hd, decodeBroadcast, hrb, hrd]
  · obtain ⟨hrb, hrd, hd⟩ := decode_of_broadcastMask (rb := 1#1) (rd := 0#1) h
    simp [hd, decodeBroadcast, hrb, hrd]
  · obtain ⟨hrb, hrd, hd⟩ := decode_of_broadcastMask (rb := 0#1) (rd := 1#1) h
    simp [hd, decodeBroadcast, hrb, hrd]
  · obtain ⟨hrb, hrd, hd⟩ := decode_of_broadcastMask (rb := 1#1) (rd := 1#1) h
    simp [hd, decodeBroadcast, hrb, hrd]

namespace Machine

/-! ## A word its port does not admit -/

theorem hostWrite_rejected {r : Reg} {w : Word} (hr : regClass r = .port) (hd : ∀ i, decode (.write r w) ≠ .ok i)
    (s : State) : hostWrite r w s = .next (raise .illegalCmd s) := by
  simp only [hostWrite, hr]
  cases h : decode (.write r w) with
  | ok i => exact absurd h (hd i)
  | error => rfl

/-- Settles O9. -/
theorem illegalCommandWordOnlyRaises : Obligations.IllegalCommandWordOnlyRaises := fun _ _ s hr hd =>
  hostWrite_rejected hr hd s

end Machine

end Sys2Proof
end

