-- ==== Sys2Proof/Proofs/Transactions.lean ====
section
/-! PROOFS. What the transaction words do: the 22 forms dispatch their word and queue the replies due to it (O19, O20,
O21), and the words of TXC.ENC are legal requests (O24). -/

namespace Sys2Proof.Machine

/-! ## The dispatch of a word -/

/-- R176, for the replies drawn as due. -/
theorem dispatch_eq_afterDispatch (w : Word) {s : State} (h : s.codec.replyq.length ≤ s.params.replyFifoDepth) :
    dispatch w s = afterDispatch w (drawnReplies w (nomReplies s.codec.map.length w) s) s :=
  appendReplies_spec (drawReplies w s) _ h

/-- The replies due to a request (R119): one a target when `rd` or `rb` is 1. -/
theorem nomReplies_twWord (n : Nat) (op : Nibble) (sel : Byte) (rb fail page rd : BitVec 1) (addr value : Byte) :
    nomReplies n (twWord op sel rb fail page rd addr value) =
      if rd = 1#1 ∨ rb = 1#1 then (if op = 2#4 then n else 1) else 0 := by
  simp only [nomReplies, twWord_rd, twWord_rb, twWord_op]

/-- With no reply due none is drawn. -/
theorem drawnReplies_zero (w : Word) (s : State) : drawnReplies w 0 s = [] := List.take_zero

section Forms

variable {s : State} (h : s.codec.replyq.length ≤ s.params.replyFifoDepth) (sel : Byte) (rb page rd : BitVec 1)
  (addr value : Byte)
include h

/-- A plain write to one chip: no reply due. -/
theorem dispatchSingle_write :
    dispatchSingle sel 0#1 page 0#1 addr value s = afterDispatch (twWord 0#4 sel 0#1 0#1 page 0#1 addr value) [] s := by
  rw [dispatchSingle, dispatch_eq_afterDispatch _ h, nomReplies_twWord, if_neg (by decide), drawnReplies_zero]

/-- A read or read-back from one chip: one reply due. -/
theorem dispatchSingle_reply (hdue : rd = 1#1 ∨ rb = 1#1) :
    dispatchSingle sel rb page rd addr value s =
      afterDispatch (twWord 0#4 sel rb 0#1 page rd addr value)
        (drawnReplies (twWord 0#4 sel rb 0#1 page rd addr value) 1 s) s := by
  rw [dispatchSingle, dispatch_eq_afterDispatch _ h, nomReplies_twWord, if_pos hdue, if_neg (by decide)]

/-- A plain broadcast write: no reply due. -/
theorem dispatchBroadcast_write :
    dispatchBroadcast 0#1 page 0#1 addr value s =
      afterDispatch (twWord 2#4 0#8 0#1 0#1 page 0#1 addr value) [] s := by
  rw [dispatchBroadcast, dispatch_eq_afterDispatch _ h, nomReplies_twWord, if_neg (by decide), drawnReplies_zero]

/-- A broadcast read or read-back: one reply due for each entry of the table. -/
theorem dispatchBroadcast_reply (hdue : rd = 1#1 ∨ rb = 1#1) :
    dispatchBroadcast rb page rd addr value s =
      afterDispatch (twWord 2#4 0#8 rb 0#1 page rd addr value)
        (drawnReplies (twWord 2#4 0#8 rb 0#1 page rd addr value) s.codec.map.length s) s := by
  rw [dispatchBroadcast, dispatch_eq_afterDispatch _ h, nomReplies_twWord, if_pos hdue, if_pos rfl]

end Forms

/-- A word with its selector written as two nibbles. -/
theorem twWord_nibbleSel (op hi lo : Nibble) (rb fail page rd : BitVec 1) (addr value : Byte) :
    twWord op (nibbleSel hi lo) rb fail page rd addr value =
      op ++ hi ++ lo ++ rb ++ fail ++ page ++ rd ++ addr ++ value := by
  apply BitVec.eq_of_toNat_eq
  rw [twWord_toNat, nibbleSel_toNat]
  simp only [append_toNat]
  omega

/-- Settles O19: each form is one dispatch of its word. -/
theorem legacyFormsDispatch : Obligations.LegacyFormsDispatch := by
  intro s h hybrid chip page addr value
  simp only [← twWord_nibbleSel]
  exact ⟨congrArg _ (dispatchSingle_write h _ page addr value),
    congrArg _ (dispatchSingle_reply h _ 0#1 page 1#1 addr value (.inl rfl)),
    congrArg _ (dispatchSingle_reply h _ 1#1 page 1#1 addr value (.inl rfl)),
    congrArg _ (dispatchBroadcast_write h page addr value),
    congrArg _ (dispatchBroadcast_reply h 0#1 page 1#1 addr value (.inl rfl)),
    congrArg _ (dispatchBroadcast_reply h 1#1 page 1#1 addr value (.inl rfl))⟩

/-- Settles O20, as `legacyFormsDispatch`. -/
theorem indexedFormsDispatch : Obligations.IndexedFormsDispatch := by
  intro s h gidx page addr value
  exact ⟨congrArg _ (dispatchSingle_write h gidx page addr value),
    congrArg _ (dispatchSingle_reply h gidx 1#1 page 0#1 addr value (.inr rfl)),
    congrArg _ (dispatchSingle_reply h gidx 0#1 page 1#1 addr value (.inl rfl)),
    congrArg _ (dispatchSingle_reply h gidx 1#1 page 1#1 addr value (.inl rfl)),
    congrArg _ (dispatchBroadcast_write h page addr value),
    congrArg _ (dispatchBroadcast_reply h 1#1 page 0#1 addr value (.inr rfl)),
    congrArg _ (dispatchBroadcast_reply h 0#1 page 1#1 addr value (.inl rfl)),
    congrArg _ (dispatchBroadcast_reply h 1#1 page 1#1 addr value (.inl rfl))⟩

/-- Settles O21, as `legacyFormsDispatch`. -/
theorem opticalFormsDispatch : Obligations.OpticalFormsDispatch := by
  intro s h link lidx page addr value
  simp only [← twWord_nibbleSel]
  exact ⟨congrArg _ (dispatchSingle_write h _ page addr value),
    congrArg _ (dispatchSingle_reply h _ 1#1 page 0#1 addr value (.inr rfl)),
    congrArg _ (dispatchSingle_reply h _ 0#1 page 1#1 addr value (.inl rfl)),
    congrArg _ (dispatchSingle_reply h _ 1#1 page 1#1 addr value (.inl rfl)),
    congrArg _ (dispatchBroadcast_write h page addr value),
    congrArg _ (dispatchBroadcast_reply h 1#1 page 0#1 addr value (.inr rfl)),
    congrArg _ (dispatchBroadcast_reply h 0#1 page 1#1 addr value (.inl rfl)),
    congrArg _ (dispatchBroadcast_reply h 1#1 page 1#1 addr value (.inl rfl))⟩

/-! ## The words of TXC.ENC -/

/-- A target of TXC.ENC: a broadcast, or an entry of the table with its selector. -/
theorem encTarget_some {v : Variant} {m : List MapEntry} {bcast : BitVec 1} {hybrid chip op : Nibble} {sel : Byte}
    (h : encTarget v m bcast hybrid chip = some (op, sel)) :
    op = 2#4 ∧ sel = 0#8 ∨ op = 0#4 ∧ ∃ i e, m[i]? = some e ∧ sel = selOf v m i e := by
  unfold encTarget at h
  split at h
  next => cases h; exact .inl ⟨rfl, rfl⟩
  next =>
    split at h
    next => cases h
    next i _ =>
      split at h
      next => cases h
      next e he => cases h; exact .inr ⟨rfl, i, e, he, rfl⟩

/-- A legal request to a target of the table: its form is one of the variant's, and its selector resolves. -/
def LegalWord (v : Variant) (m : List MapEntry) (w : Word) : Prop := formatLegal v w ∧ selectorResolves v m w

/-- The selector of an entry names it (R113 to R115): an index fits its 8 bits and, under OPT, a local index its 4. -/
theorem selOf_resolves {s : State} (hs : CodecSound s) (hn : s.params.nSlaves ≤ 256) {i : Nat} {e : MapEntry}
    (hi : s.codec.map[i]? = some e) (op : Nibble) (rb fail page rd : BitVec 1) (addr value : Byte) :
    selectorResolves s.codec.variant s.codec.map
      (twWord op (selOf s.codec.variant s.codec.map i e) rb fail page rd addr value) := by
  intro _
  cases hv : s.codec.variant with
  | leg =>
    refine ⟨e, List.mem_of_getElem? hi, ?_⟩
    simp only [selOf, twWord_selHi, twWord_selLo, and_self]
  | idx =>
    have hlen := (List.getElem?_eq_some_iff.1 hi).1
    have hfits := hs.tableFits
    simp only [selOf, twWord_sel, BitVec.toNat_ofNat]
    omega
  | opt =>
    have hlocal : localIndex s.codec.map i e.link < 16 := (localIndex_lt hi).trans_le (hs.linksFit hv e.link)
    refine ⟨i, e, hi, ?_⟩
    simp only [selOf, twWord_selHi, twWord_selLo, lidxField_toNat hlocal, and_self]

/-- A word packed for a target is legal, unless it is LEG's write with read-back. -/
theorem legalWord_of_encTarget {s : State} (hs : CodecSound s) (hn : s.params.nSlaves ≤ 256) {bcast : BitVec 1}
    {hybrid chip op : Nibble} {sel : Byte}
    (ht : encTarget s.codec.variant s.codec.map bcast hybrid chip = some (op, sel)) (rb page rd : BitVec 1)
    (addr value : Byte) (hleg : s.codec.variant = .leg → ¬ (rd = 0#1 ∧ rb = 1#1)) :
    LegalWord s.codec.variant s.codec.map (twWord op sel rb 0#1 page rd addr value) := by
  obtain ⟨rfl, rfl⟩ | ⟨rfl, i, e, hi, rfl⟩ := encTarget_some ht
  · exact ⟨by simpa [formatLegal] using hleg, by simp [selectorResolves]⟩
  · exact ⟨by simpa [formatLegal] using hleg, selOf_resolves hs hn hi _ _ _ _ _ _ _⟩

/-- Under LEG a write with read-back takes two words, so no word of an encode holds both (R118, R166). -/
theorem encWords_legal {s : State} (hs : CodecSound s) (hn : s.params.nSlaves ≤ 256) {bcast : BitVec 1}
    {hybrid chip op : Nibble} {sel : Byte}
    (ht : encTarget s.codec.variant s.codec.map bcast hybrid chip = some (op, sel)) (write readback page : BitVec 1)
    (addr value : Byte) :
    LegalWord s.codec.variant s.codec.map (encWords s.codec.variant op sel write readback page addr value).1 ∧
      ∀ w, (encWords s.codec.variant op sel write readback page addr value).2 = some w →
        LegalWord s.codec.variant s.codec.map w := by
  have legal := legalWord_of_encTarget hs hn ht
  unfold encWords
  split
  next =>
    refine ⟨legal 0#1 page 0#1 addr value (by simp), fun w hw => ?_⟩
    cases hw
    exact legal 1#1 page 1#1 addr 0#8 (by simp)
  next htwo =>
    split
    next hwrite =>
      refine ⟨legal readback page 0#1 addr value fun hv hrb => htwo ⟨hv, hwrite, hrb.2⟩, nofun⟩
    next => exact ⟨legal readback page 1#1 addr 0#8 (by simp), nofun⟩

/-- The result registers after an encode: the first word, and where two are counted the second; the variant and the
table stay (R36, R37). -/
theorem Codec.encStored_registers (c : Codec) (ws : Word × Option Word) :
    (c.encStored ws).variant = c.variant ∧ (c.encStored ws).map = c.map ∧ (c.encStored ws).encWord0 = ws.1
      ∧ ((c.encStored ws).encCount = 2#2 → ws.2 = some (c.encStored ws).encWord1) := by
  obtain ⟨w0, _ | w1⟩ := ws
  · have hone : (1#2 : BitVec 2) ≠ 2#2 := by decide
    exact ⟨rfl, rfl, rfl, fun h => absurd h hone⟩
  · exact ⟨rfl, rfl, rfl, fun _ => rfl⟩

/-- What TXC.ENC answers: no word, or the words of a target, under the variant and table it found. -/
theorem encodeRequest_result (bcast write readback : BitVec 1) (hybrid chip : Nibble) (page : BitVec 1)
    (addr value : Byte) (s : State) :
    let c := (encodeRequest bcast write readback hybrid chip page addr value s).codec
    c.encCount = 0#2 ∨ ∃ op sel,
      encTarget s.codec.variant s.codec.map bcast hybrid chip = some (op, sel)
        ∧ c = s.codec.encCleared.locked.encStored (encWords s.codec.variant op sel write readback page addr value) := by
  unfold encodeRequest
  dsimp only
  split
  next => exact .inl rfl
  next =>
    split
    next => exact .inl rfl
    next op sel ht => exact .inr ⟨op, sel, ht, rfl⟩

/-- Settles O24: an encode that counts a word has packed it for a target. -/
theorem encodedWordsAreLegal : Obligations.EncodedWordsAreLegal := by
  intro s t bcast write readback hybrid chip page addr value hs hn hexec
  cases hexec
  obtain h0 | ⟨op, sel, ht, hc⟩ := encodeRequest_result bcast write readback hybrid chip page addr value s
  · exact ⟨fun h => absurd h0 h, fun h => absurd (h0.symm.trans h) (by decide)⟩
  · obtain ⟨hv, hm, h0, h1⟩ := s.codec.encCleared.locked.encStored_registers
      (encWords s.codec.variant op sel write readback page addr value)
    obtain ⟨hlegal0, hlegal1⟩ := encWords_legal hs hn ht write readback page addr value
    rw [hc, hv, hm, h0]
    exact ⟨fun _ => hlegal0, fun h => hlegal1 _ (h1 h)⟩

end Sys2Proof.Machine
end

