-- ==== Sys2Proof/Proofs/Selectors.lean ====
section
/-! PROOFS. The lookups of the slave-address table and the selectors (O22): a lookup answers the one index of its key,
so the selector packed for an entry names that entry's index. -/

namespace Sys2Proof.Machine

/-! ## The two nibbles of a selector -/

@[simp] theorem selHi_nibbleSel (hi lo : Nibble) : selHi (nibbleSel hi lo) = hi :=
  BitVec.extractLsb'_append_eq_left

@[simp] theorem selLo_nibbleSel (hi lo : Nibble) : selLo (nibbleSel hi lo) = lo :=
  BitVec.extractLsb'_append_eq_right

@[simp] theorem selHi_bits (w : Word) : selHi (bits w 20 8) = bits w 24 4 := by
  rw [← nibbleSel_bits, selHi_nibbleSel]

@[simp] theorem selLo_bits (w : Word) : selLo (bits w 20 8) = bits w 20 4 := by
  rw [← nibbleSel_bits, selLo_nibbleSel]

/-! ## The lookups -/

/-- MapLookup finds exactly the entry with the ids: some entry has them, and no other one does (R60, R164). -/
theorem mapLookup_iff {m : List MapEntry} (hk : m.Pairwise fun a b => ¬ (a.hybrid = b.hybrid ∧ a.chip = b.chip))
    {h c : Nibble} {i : Nat} : mapLookup m h c = some i ↔ ∃ e, m[i]? = some e ∧ e.hybrid = h ∧ e.chip = c := by
  refine ⟨mapLookup_some, fun ⟨e, he, hh, hc⟩ => ?_⟩
  cases hl : mapLookup m h c with
  | none => exact absurd ⟨e, List.mem_of_getElem? he, hh, hc⟩ (mapLookup_none_iff.1 hl)
  | some j =>
    obtain ⟨e', he', hh', hc'⟩ := mapLookup_some hl
    rw [index_unique hk he' he ⟨hh'.trans hh.symm, hc'.trans hc.symm⟩]

/-- Two entries of a link have the same place when they have the same local index. -/
theorem localIndex_unique {m : List MapEntry} {i j : Nat} {a b : MapEntry} (hi : m[i]? = some a) (hj : m[j]? = some b)
    (hlink : a.link = b.link) (h : localIndex m i a.link = localIndex m j a.link) : i = j := by
  rcases Nat.lt_trichotomy i j with hlt | heq | hgt
  · exact absurd h (localIndex_lt_of_lt hi hlt).ne
  · exact heq
  · rw [hlink] at h
    exact absurd h.symm (localIndex_lt_of_lt hj hgt).ne

/-- MapByLocal misses exactly when no entry of the link has the local index. -/
theorem mapByLocal_none_iff {m : List MapEntry} {k li : Nibble} :
    mapByLocal m k li = none ↔ ¬ ∃ i e, m[i]? = some e ∧ e.link = k ∧ localIndex m i k = li.toNat := by
  simp only [mapByLocal, List.find?_eq_none, List.mem_range, isLocal_iff]
  refine ⟨fun h ⟨i, e, he, hlocal⟩ => ?_, fun h i _ hlocal => h ⟨i, hlocal⟩⟩
  exact h i (List.getElem?_eq_some_iff.1 he).1 ⟨e, he, hlocal⟩

/-- MapByLocal finds exactly the entry with the link and local index (R164). -/
theorem mapByLocal_iff {m : List MapEntry} {k li : Nibble} {i : Nat} :
    mapByLocal m k li = some i ↔ ∃ e, m[i]? = some e ∧ e.link = k ∧ localIndex m i k = li.toNat := by
  refine ⟨fun h => isLocal_iff.1 (List.find?_some h), fun ⟨e, he, hlink, hlocal⟩ => ?_⟩
  cases hl : mapByLocal m k li with
  | none => exact absurd ⟨i, e, he, hlink, hlocal⟩ (mapByLocal_none_iff.1 hl)
  | some j =>
    obtain ⟨e', he', hlink', hlocal'⟩ := isLocal_iff.1 (List.find?_some hl)
    subst hlink'
    rw [localIndex_unique he' he hlink.symm (hlocal'.trans hlocal.symm)]

/-! ## Unsel undoes Sel -/

section

variable {s : State} (hs : CodecSound s) {i : Nat} {e : MapEntry} (hi : s.codec.map[i]? = some e)
include hs hi

/-- An index of the table fits the selector of variant IDX. -/
theorem selOf_idx_toNat (hn : s.params.nSlaves ≤ 256) : (selOf .idx s.codec.map i e).toNat = i := by
  have hlen := (List.getElem?_eq_some_iff.1 hi).1
  have hfits := hs.tableFits
  simp only [selOf, BitVec.toNat_ofNat]
  omega

/-- Under OPT a local index fits its nibble (R163). -/
theorem selOf_opt_selLo (hv : s.codec.variant = .opt) :
    (selLo (selOf .opt s.codec.map i e)).toNat = localIndex s.codec.map i e.link := by
  rw [selOf, selLo_nibbleSel, lidxField_toNat ((localIndex_lt hi).trans_le (hs.linksFit hv e.link))]

theorem unsel_selOf (hn : s.params.nSlaves ≤ 256) :
    unsel s.codec.variant s.codec.map (selOf s.codec.variant s.codec.map i e) = some i := by
  cases hv : s.codec.variant with
  | leg =>
    rw [unsel, selOf, selHi_nibbleSel, selLo_nibbleSel, mapLookup_iff hs.keysUnique]
    exact ⟨e, hi, rfl, rfl⟩
  | idx =>
    rw [unsel, selOf_idx_toNat hs hi hn, if_pos (List.getElem?_eq_some_iff.1 hi).1]
  | opt =>
    rw [unsel, mapByLocal_iff, selOf_opt_selLo hs hi hv]
    exact ⟨e, hi, (selHi_nibbleSel _ _).symm, congrArg _ (selHi_nibbleSel _ _)⟩

end

/-- Settles O22. -/
theorem unselInvertsSel : Obligations.UnselInvertsSel := fun _ hs hn =>
  ⟨fun _ _ _ => mapLookup_iff hs.keysUnique, fun _ _ _ => mapByLocal_iff, fun _ _ hi =>
    ⟨⟨rfl, selOf_idx_toNat hs hi hn, fun hv => ⟨selHi_nibbleSel _ _, selOf_opt_selLo hs hi hv⟩⟩, unsel_selOf hs hi hn⟩⟩

end Sys2Proof.Machine
end

