-- ==== Sys2Proof/Proofs/CodecCommands.lean ====
section
/-! PROOFS. The transaction codec round trip (O23) and the outcomes of unit C's commands (O13 to O18): first what the
decode function and each command answer, case by case, then the statements from these cases. -/

namespace Sys2Proof.Machine

/-! ## The decode function -/

/-- What the decode function copies from a word whatever its opcode (R168). -/
def Decoded.copied (w : Word) : Decoded where
  failed := decide (bits w 18 1 = 1#1)
  isRead := bits w 16 1
  rb := bits w 19 1
  bcast := false
  hybrid := 0#4
  chip := 0#4
  page := bits w 17 1
  addr := bits w 8 8
  value := bits w 0 8

section

variable {v : Variant} {m : List MapEntry} {w : Word}

theorem decodeFields_broadcast (hop : bits w 28 4 = 2#4) :
    decodeFields v m w = { Decoded.copied w with bcast := true } := if_pos hop

theorem decodeFields_reserved (h0 : bits w 28 4 ≠ 0#4) (h2 : bits w 28 4 ≠ 2#4) :
    decodeFields v m w = { Decoded.copied w with failed := true } := (if_neg h2).trans (if_neg h0)

theorem decodeFields_leg (hop : bits w 28 4 = 0#4) :
    decodeFields .leg m w = { Decoded.copied w with hybrid := bits w 24 4, chip := bits w 20 4 } := by
  have h2 : bits w 28 4 ≠ 2#4 := by rw [hop]; decide
  rw [decodeFields, if_neg h2, if_pos hop, selHi_bits, selLo_bits]; rfl

theorem decodeFields_found (hop : bits w 28 4 = 0#4) (hv : v ≠ .leg) {i : Nat} {e : MapEntry}
    (hu : unsel v m (bits w 20 8) = some i) (hi : m[i]? = some e) :
    decodeFields v m w = { Decoded.copied w with hybrid := e.hybrid, chip := e.chip } := by
  have h2 : bits w 28 4 ≠ 2#4 := by rw [hop]; decide
  cases v with
  | leg => exact absurd rfl hv
  | idx | opt => simp only [decodeFields, if_neg h2, if_pos hop, hu, Option.bind_some, hi]; rfl

theorem decodeFields_missed (hop : bits w 28 4 = 0#4) (hv : v ≠ .leg) (hu : unsel v m (bits w 20 8) = none) :
    decodeFields v m w = { Decoded.copied w with failed := true } := by
  have h2 : bits w 28 4 ≠ 2#4 := by rw [hop]; decide
  cases v with
  | leg => exact absurd rfl hv
  | idx | opt => simp only [decodeFields, if_neg h2, if_pos hop, hu, Option.bind_none]; rfl

end

/-- The fields no opcode and no table entry touches, and `bcast` (R168). -/
theorem decodeFields_common (v : Variant) (m : List MapEntry) (w : Word) :
    let d := decodeFields v m w
    d.isRead = bits w 16 1 ∧ d.rb = bits w 19 1 ∧ d.page = bits w 17 1 ∧ d.addr = bits w 8 8 ∧ d.value = bits w 0 8
      ∧ d.bcast = decide (bits w 28 4 = 2#4) := by
  unfold decodeFields
  dsimp only
  split
  next hop => exact ⟨rfl, rfl, rfl, rfl, rfl, (decide_eq_true hop).symm⟩
  next hop =>
    repeat' split
    all_goals exact ⟨rfl, rfl, rfl, rfl, rfl, (decide_eq_false hop).symm⟩

/-- The copied fields of a request. -/
theorem copied_twWord (op : Nibble) (sel : Byte) (rb page rd : BitVec 1) (addr value : Byte) :
    Decoded.copied (twWord op sel rb 0#1 page rd addr value) =
      { failed := false, isRead := rd, rb := rb, bcast := false, hybrid := 0#4, chip := 0#4, page := page, addr := addr
        value := value } := by
  simp [Decoded.copied]

/-- A request to an entry of the table reads back as the entry's ids and its own fields: under LEG they stand in the
word, else the selector resolves to the entry. -/
theorem decodeFields_selOf {s : State} (hs : CodecSound s) (hn : s.params.nSlaves ≤ 256) {i : Nat} {e : MapEntry}
    (hi : s.codec.map[i]? = some e) (rb page rd : BitVec 1) (addr value : Byte) :
    decodeFields s.codec.variant s.codec.map
        (twWord 0#4 (selOf s.codec.variant s.codec.map i e) rb 0#1 page rd addr value) =
      { failed := false, isRead := rd, rb := rb, bcast := false, hybrid := e.hybrid, chip := e.chip, page := page
        addr := addr, value := value } := by
  by_cases hv : s.codec.variant = .leg
  · rw [hv, decodeFields_leg (twWord_op ..), selOf, copied_twWord, twWord_selHi, twWord_selLo]
  · have hu := unsel_selOf hs hi hn
    rw [decodeFields_found (twWord_op ..) hv (by rw [twWord_sel]; exact hu) hi, copied_twWord]

/-! ## The words of TXC.ENC -/

/-- Under LEG a write with read-back takes two words (30_encoding.md R118). -/
theorem encWords_two {v : Variant} {write readback : BitVec 1} (h : v = .leg ∧ write = 1#1 ∧ readback = 1#1)
    (op : Nibble) (sel : Byte) (page : BitVec 1) (addr value : Byte) :
    encWords v op sel write readback page addr value =
      (twWord op sel 0#1 0#1 page 0#1 addr value, some (twWord op sel 1#1 0#1 page 1#1 addr 0#8)) := if_pos h

/-- Every other encode is one word: a write with the value, or a read with value 0. -/
theorem encWords_one {v : Variant} {write readback : BitVec 1} (h : ¬ (v = .leg ∧ write = 1#1 ∧ readback = 1#1))
    (op : Nibble) (sel : Byte) (page : BitVec 1) (addr value : Byte) :
    encWords v op sel write readback page addr value =
      (twWord op sel readback 0#1 page (if write = 1#1 then 0#1 else 1#1) addr (if write = 1#1 then value else 0#8),
        none) := by
  rw [encWords, if_neg h]
  split <;> rfl

/-- The target of TXC.ENC as a lookup. -/
theorem encTarget_eq (v : Variant) (m : List MapEntry) (bcast : BitVec 1) (hybrid chip : Nibble) :
    encTarget v m bcast hybrid chip =
      if bcast = 1#1 then some (2#4, 0#8)
      else (mapLookup m hybrid chip).bind fun i => (m[i]?).map fun e => (0#4, selOf v m i e) := by
  unfold encTarget
  cases mapLookup m hybrid chip with
  | none => rfl
  | some i => cases hi : m[i]? <;> simp [hi]

/-- TXC.ENC finds a target for a broadcast and for the ids of every entry, and what it packs for the target reads back
as what it was given (R169). -/
theorem encTarget_decodes {s : State} (hs : CodecSound s) (hn : s.params.nSlaves ≤ 256) {bcast : BitVec 1}
    {hybrid chip : Nibble} (h : bcast = 1#1 ∨ ∃ e ∈ s.codec.map, e.hybrid = hybrid ∧ e.chip = chip) :
    ∃ op sel, encTarget s.codec.variant s.codec.map bcast hybrid chip = some (op, sel)
      ∧ ∀ (rb page rd : BitVec 1) (addr value : Byte),
        decodeFields s.codec.variant s.codec.map (twWord op sel rb 0#1 page rd addr value) =
          { failed := false, isRead := rd, rb := rb, bcast := decide (bcast = 1#1)
            hybrid := if bcast = 1#1 then 0#4 else hybrid, chip := if bcast = 1#1 then 0#4 else chip
            page := page, addr := addr, value := value } := by
  simp only [encTarget_eq]
  by_cases hb : bcast = 1#1
  · simp only [if_pos hb, decide_eq_true hb]
    refine ⟨_, _, rfl, fun rb page rd addr value => ?_⟩
    rw [decodeFields_broadcast (twWord_op ..), copied_twWord]
  · obtain ⟨e, he, rfl, rfl⟩ := h.resolve_left hb
    obtain ⟨i, hi⟩ := List.getElem?_of_mem he
    have hl : mapLookup s.codec.map e.hybrid e.chip = some i := (mapLookup_iff hs.keysUnique).2 ⟨e, hi, rfl, rfl⟩
    simp only [if_neg hb, decide_eq_false hb, hl, Option.bind_some, hi, Option.map_some]
    exact ⟨_, _, rfl, decodeFields_selOf hs hn hi⟩

/-! ## TXC.ENC -/

section

variable {bcast write readback : BitVec 1} {hybrid chip : Nibble} {page : BitVec 1} {addr value : Byte} {s : State}

theorem encodeRequest_unconfigured (hc : s.codec.configured = false) :
    encodeRequest bcast write readback hybrid chip page addr value s =
      raise .notConfigured (setCodec s.codec.encCleared s) := if_pos hc

theorem encodeRequest_missed (hc : ¬ s.codec.configured = false)
    (ht : encTarget s.codec.variant s.codec.map bcast hybrid chip = none) :
    encodeRequest bcast write readback hybrid chip page addr value s =
      raise .addrMiss (setCodec s.codec.encCleared.locked s) := by
  refine (if_neg hc).trans ?_
  split
  next => rfl
  next h => cases ht.symm.trans h

theorem encodeRequest_found (hc : ¬ s.codec.configured = false) {op : Nibble} {sel : Byte}
    (ht : encTarget s.codec.variant s.codec.map bcast hybrid chip = some (op, sel)) :
    encodeRequest bcast write readback hybrid chip page addr value s =
      setCodec (s.codec.encCleared.locked.encStored (encWords s.codec.variant op sel write readback page addr value))
        s := by
  refine (if_neg hc).trans ?_
  split
  next h => cases ht.symm.trans h
  next h => cases ht.symm.trans h; rfl

end

/-- Settles O23: TXC.ENC finds the target, and each of its words reads back. -/
theorem transactionRoundTrip : Obligations.TransactionRoundTrip := by
  intro s hs hn hconf bcast write readback hybrid chip page addr value htarget
  have hc : ¬ s.codec.configured = false := by simp [hconf]
  obtain ⟨op, sel, ht, hdec⟩ := encTarget_decodes hs hn htarget
  refine ⟨_, congrArg Host.Outcome.next (encodeRequest_found hc ht), ?_⟩
  dsimp only
  by_cases h2 : s.codec.variant = .leg ∧ write = 1#1 ∧ readback = 1#1
  · obtain ⟨-, hw, -⟩ := id h2
    simp only [encWords_two h2, if_pos h2, if_pos hw]
    exact ⟨rfl, hdec _ _ _ _ _, fun _ => hdec _ _ _ _ _, fun h => absurd h2 h⟩
  · simp only [encWords_one h2, if_neg h2]
    exact ⟨rfl, hdec _ _ _ _ _, fun h => absurd h h2, fun _ => rfl⟩

/-- Settles O15: unconfigured, no target, two words or one. -/
theorem encodeRequestOutcome : Obligations.EncodeRequestOutcome := by
  intro s bcast write readback hybrid chip page addr value c target val
  have htarget : encTarget s.codec.variant s.codec.map bcast hybrid chip = target := encTarget_eq ..
  refine congrArg Host.Outcome.next ?_
  by_cases hc : s.codec.configured = false
  · rw [if_pos hc]; exact encodeRequest_unconfigured hc
  rw [if_neg hc]
  clear_value target
  obtain _ | ⟨op, sel⟩ := target
  · exact encodeRequest_missed hc htarget
  · rw [encodeRequest_found hc htarget]
    dsimp only
    split
    next h2 =>
      obtain ⟨-, hw, -⟩ := id h2
      simp only [encWords_two h2, val, if_pos hw]
      rfl
    next h2 => rw [encWords_one h2]; rfl

/-! ## TXC.DEC -/

theorem bit_eq_one_iff (b : Bool) : bit b = 1#1 ↔ b = true := by cases b <;> decide

/-- A one-bit field as the Bool of being 1, and back. -/
theorem bit_decide_eq_one (x : BitVec 1) : bit (decide (x = 1#1)) = x := by
  rcases bit_eq_zero_or_one x with rfl | rfl <;> rfl

theorem Decoded.word_toNat (d : Decoded) :
    d.word.toNat =
      (bit d.failed).toNat * 2 ^ 31 + d.isRead.toNat * 2 ^ 30 + d.rb.toNat * 2 ^ 29 + (bit d.bcast).toNat * 2 ^ 28
        + d.hybrid.toNat * 2 ^ 24 + d.chip.toNat * 2 ^ 20 + d.page.toNat * 2 ^ 17 + d.addr.toNat * 2 ^ 8
        + d.value.toNat := by
  refine (append_toNat (bit d.failed ++ d.isRead ++ d.rb ++ bit d.bcast ++ d.hybrid ++ d.chip ++ 0#2 ++ d.page ++ 0#1
    ++ d.addr) d.value).trans ?_
  simp only [append_toNat, BitVec.toNat_ofNat]
  omega

/-- `lrc.codec.dec_out` field by field (10_state.md R39). -/
theorem Decoded.word_fields (d : Decoded) :
    bits d.word 31 1 = bit d.failed ∧ bits d.word 30 1 = d.isRead ∧ bits d.word 29 1 = d.rb
      ∧ bits d.word 28 1 = bit d.bcast ∧ bits d.word 24 4 = d.hybrid ∧ bits d.word 20 4 = d.chip
      ∧ bits d.word 18 2 = 0#2 ∧ bits d.word 17 1 = d.page ∧ bits d.word 16 1 = 0#1 ∧ bits d.word 8 8 = d.addr
      ∧ bits d.word 0 8 = d.value := by
  simp only [bits_eq_iff, d.word_toNat, BitVec.toNat_ofNat]
  omega

theorem decodeWord_unconfigured {s : State} (hc : s.codec.configured = false) (w : Word) :
    decodeWord w s = raise .notConfigured s := if_pos hc

theorem decodeWord_configured {s : State} (hc : s.codec.configured = true) (w : Word) :
    decodeWord w s =
      setCodec { s.codec.locked with decOut := (decodeFields s.codec.variant s.codec.map w).word } s :=
  if_neg (by simp [hc])

/-- Settles O16: the word of `dec_out` field by field, and the decode function case by case. -/
theorem decodeWordOutcome : Obligations.DecodeWordOutcome := by
  intro s w
  refine ⟨fun hc => congrArg Host.Outcome.next (decodeWord_unconfigured hc w), fun hc =>
    ⟨_, congrArg Host.Outcome.next (decodeWord_configured hc w), ?_⟩⟩
  obtain ⟨hread, hrb, hpage, haddr, hvalue, hbcast⟩ := decodeFields_common s.codec.variant s.codec.map w
  obtain ⟨f31, f30, f29, f28, f24, f20, f18, f17, f16, f8, f0⟩ :=
    (decodeFields s.codec.variant s.codec.map w).word_fields
  refine ⟨f30.trans hread, f29.trans hrb, f18, f17.trans hpage, f16, f8.trans haddr, f0.trans hvalue, ?bcast, ?_⟩
  case bcast => rw [f28, hbcast, bit_eq_one_iff, decide_eq_true_iff]
  rw [f31, f24, f20]
  refine ⟨fun hop => ?_, fun h0 h2 => ?_, fun hop hv => ?_, fun hop hv => ⟨fun i e hu hi => ?_, fun hu => ?_⟩⟩
  · rw [decodeFields_broadcast hop]; exact ⟨bit_decide_eq_one _, rfl, rfl⟩
  · rw [decodeFields_reserved h0 h2]; exact ⟨rfl, rfl, rfl⟩
  · rw [hv, decodeFields_leg hop]; exact ⟨bit_decide_eq_one _, rfl, rfl⟩
  · rw [decodeFields_found hop hv hu hi]; exact ⟨bit_decide_eq_one _, rfl, rfl⟩
  · rw [decodeFields_missed hop hv hu]; exact ⟨rfl, rfl, rfl⟩

/-! ## TXC.PUSH -/

/-- Checks 1 to 4 of R117, as the conditions that refuse. -/
theorem formatLegal_iff {v : Variant} {w : Word} :
    formatLegal v w ↔
      ¬ (bits w 28 4 ≠ 0#4 ∧ bits w 28 4 ≠ 2#4) ∧ ¬ bits w 18 1 ≠ 0#1
        ∧ ¬ (v = .leg ∧ bits w 16 1 = 0#1 ∧ bits w 19 1 = 1#1) ∧ ¬ (bits w 28 4 = 2#4 ∧ bits w 20 8 ≠ 0#8) := by
  simp only [formatLegal, ne_eq, not_and, not_not, or_iff_not_imp_left]

/-- Check 5 of R117: a single-chip word's selector has an index. -/
theorem selectorResolves_iff {v : Variant} {m : List MapEntry} {w : Word} :
    selectorResolves v m w ↔ ¬ (bits w 28 4 = 0#4 ∧ unsel v m (bits w 20 8) = none) := by
  rw [not_and]
  refine imp_congr_right fun _ => ?_
  cases v with
  | leg => simp [unsel, mapLookup_none_iff]
  | idx => simp [unsel]
  | opt =>
    simp only [unsel, selHi_bits, selLo_bits, mapByLocal_none_iff, not_not]
    refine exists_congr fun i => exists_congr fun e => and_congr_right fun _ => and_congr_right fun hlink => ?_
    rw [hlink]

section

variable {v : Variant} {m : List MapEntry} {w : Word}

/-- A format refused is E_TW_ILLEGAL, whichever check refuses it. -/
theorem illegalRequest_of_not_formatLegal (h : ¬ formatLegal v w) : illegalRequest v m w = some .twIllegal := by
  rw [formatLegal_iff] at h
  unfold illegalRequest
  split_ifs with h1 h2 h3 h4
  · rfl
  · rfl
  · rfl
  · rfl
  all_goals exact absurd ⟨h1, h2, h3, h4⟩ h

/-- Past the format only the selector is judged. -/
theorem illegalRequest_of_formatLegal (h : formatLegal v w) :
    illegalRequest v m w = if bits w 28 4 = 0#4 ∧ unsel v m (bits w 20 8) = none then some .addrMiss else none := by
  obtain ⟨h1, h2, h3, h4⟩ := formatLegal_iff.1 h
  rw [illegalRequest, if_neg h1, if_neg h2, if_neg h3, if_neg h4]

theorem illegalRequest_of_unresolved (h : formatLegal v w) (hr : ¬ selectorResolves v m w) :
    illegalRequest v m w = some .addrMiss := by
  rw [illegalRequest_of_formatLegal h, if_pos (not_not.1 (mt selectorResolves_iff.2 hr))]

theorem illegalRequest_of_resolved (h : formatLegal v w) (hr : selectorResolves v m w) :
    illegalRequest v m w = none := by
  rw [illegalRequest_of_formatLegal h, if_neg (selectorResolves_iff.1 hr)]

end

theorem pushCommand_unconfigured {s : State} (hc : s.codec.configured = false) (w : Word) :
    pushCommand w s = raise .notConfigured s := if_pos hc

section

variable {s : State} {w : Word} (hc : s.codec.configured = true)
include hc

theorem pushCommand_refused {err : Err} (hl : illegalRequest s.codec.variant s.codec.map w = some err) :
    pushCommand w s = raise err (setCodec s.codec.locked s) := by
  simp [pushCommand, hc, hl]

theorem pushCommand_full (hl : illegalRequest s.codec.variant s.codec.map w = none)
    (hq : s.codec.cmdq.length = s.params.cmdFifoDepth) :
    pushCommand w s = raise .fifoOvf (setCodec s.codec.locked s) := by
  simp [pushCommand, hc, hl, hq]

theorem pushCommand_queued (hl : illegalRequest s.codec.variant s.codec.map w = none)
    (hq : s.codec.cmdq.length ≠ s.params.cmdFifoDepth) :
    pushCommand w s = setCodec { s.codec.locked with cmdq := s.codec.cmdq ++ [w] } s := by
  simp [pushCommand, hc, hl, hq]

end

/-- Settles O17. -/
theorem pushOutcome : Obligations.PushOutcome := fun _ w =>
  ⟨fun hc => congrArg Host.Outcome.next (pushCommand_unconfigured hc w), fun hc =>
    ⟨fun hf => congrArg Host.Outcome.next (pushCommand_refused hc (illegalRequest_of_not_formatLegal hf)),
     fun hf hr => congrArg Host.Outcome.next (pushCommand_refused hc (illegalRequest_of_unresolved hf hr)),
     fun hf hr hq => congrArg Host.Outcome.next (pushCommand_full hc (illegalRequest_of_resolved hf hr) hq),
     fun hf hr hq => congrArg Host.Outcome.next (pushCommand_queued hc (illegalRequest_of_resolved hf hr) hq)⟩⟩

/-! ## TXC.MAPADD -/

/-- The checks of TXC.MAPADD, said of the operand and the entries themselves (R163). -/
theorem mapaddError_eq (c : Codec) (nSlaves : Nat) (e : MapEntry) :
    mapaddError c nSlaves e =
      if ¬ (e.bw = 1#2 ∨ e.bw = 2#2) then some .illegalCmd
      else if c.configured = false then some .notConfigured
      else if c.mapLocked = true then some .mapLocked
      else if ∃ e' ∈ c.map, e'.hybrid = e.hybrid ∧ e'.chip = e.chip then some .mapDup
      else if c.map.length = nSlaves then some .mapFull
      else if c.variant = .opt ∧ (c.map.filter fun e' => decide (e'.link = e.link)).length = 16 then some .mapFull
      else none := by
  simp only [mapaddError, ← Bool.not_eq_true, bwOk_iff, ne_eq, mapLookup_none_iff, not_not, localCount,
    List.countP_eq_length_filter]

/-- Settles O14: the same checks decide on both sides. -/
theorem mapaddOutcome : Obligations.MapaddOutcome := by
  intro s link hybrid chip bw busAddr refuse
  refine congrArg Host.Outcome.next ?_
  rw [mapadd, mapaddError_eq]
  split_ifs <;> rfl

/-! ## TXC.CONFIGURE, TXC.FLUSH and TXC.POP -/

/-- A version above 2 selects no variant (R161). -/
theorem variantOfVersion_none {ver : Word} (h : 2 < ver.toNat) : variantOfVersion ver = none := by
  have hne : ∀ x : Word, x.toNat ≤ 2 → ver ≠ x := fun x hx he => by rw [he] at h; omega
  rw [variantOfVersion, if_neg (hne _ (by decide)), if_neg (hne _ (by decide)), if_neg (hne _ (by decide))]

/-- Settles O13. -/
theorem configureAndFlushOutcomes : Obligations.ConfigureAndFlushOutcomes :=
  ⟨fun _ => ⟨fun h => congrArg Host.Outcome.next (configure_supported (h ▸ rfl)),
    fun h => congrArg Host.Outcome.next (configure_supported (h ▸ rfl)),
    fun h => congrArg Host.Outcome.next (configure_supported (h ▸ rfl)),
    fun h => congrArg Host.Outcome.next (configure_unsupported (variantOfVersion_none h))⟩,
   fun _ => rfl⟩

theorem popReply_nil {s : State} (h : s.codec.replyq = []) : popReply s = raise .fifoUnf (setRdata 0#32 s) := by
  simp only [popReply, h]

theorem popReply_cons {s : State} {w : Word} {q : List Word} (h : s.codec.replyq = w :: q) :
    popReply s = setRdata w (setCodec { s.codec with replyq := q } s) := by
  simp only [popReply, h]

/-- Settles O18. -/
theorem popOutcome : Obligations.PopOutcome := fun _ =>
  ⟨fun h => congrArg Host.Outcome.next (popReply_nil h), fun _ _ h => congrArg Host.Outcome.next (popReply_cons h)⟩

end Sys2Proof.Machine
end

