-- ==== Sys2Proof/Proofs/IdealBus.lean ====
section
/-! PROOFS. The ideal bus of 40_codec.md R177: as many replies as are nominally due (O58), and a read after a write
(O59). A broadcast is an induction over the entries of the table. -/

namespace Sys2Proof.Machine

/-! ## The number of replies and the canonical form -/

theorem chipReply_length (op : Nibble) (sel : Byte) (d : Decoded) (hybrid chip : Nibble) (mem : ChipMem) :
    (chipReply op sel d hybrid chip mem).length = if d.isRead = 1#1 ∨ d.rb = 1#1 then 1 else 0 := by
  unfold chipReply
  split <;> rfl

/-- Each entry replies once when a reply is due. -/
theorem idealBroadcast_length (v : Variant) (m : List MapEntry) (d : Decoded) (i : Nat) (es : List MapEntry)
    (mem : ChipMem) :
    (idealBroadcast v m d i es mem).2.length = if d.isRead = 1#1 ∨ d.rb = 1#1 then es.length else 0 := by
  induction es generalizing i mem with
  | nil => exact (ite_self 0).symm
  | cons e es ih =>
    simp only [idealBroadcast, List.length_append, chipReply_length, ih, List.length_cons]
    split
    · exact Nat.add_comm _ _
    · rfl

theorem idealBroadcast_wf (v : Variant) (m : List MapEntry) (d : Decoded) (i : Nat) (es : List MapEntry)
    {mem : ChipMem} (h : ChipMem.wf mem = true) : ChipMem.wf (idealBroadcast v m d i es mem).1 = true := by
  induction es generalizing i mem with
  | nil => exact h
  | cons e es ih => exact ih (i + 1) (chipStore_wf d e.hybrid e.chip mem h)

section

variable {v : Variant} {m : List MapEntry} {w : Word}

theorem idealBus_broadcast (hop : bits w 28 4 = 2#4) (mem : ChipMem) :
    idealBus v m mem w = idealBroadcast v m (decodeFields v m w) 0 m mem := if_pos hop

theorem idealBus_single (hop : bits w 28 4 ≠ 2#4) (mem : ChipMem) :
    let d := decodeFields v m w
    let mem' := chipStore d d.hybrid d.chip mem
    idealBus v m mem w = (mem', chipReply (bits w 28 4) (bits w 20 8) d d.hybrid d.chip mem') := if_neg hop

end

/-- Settles O58: a broadcast, and one chip. -/
theorem idealBusReturnsTheNominalReplies : Obligations.IdealBusReturnsTheNominalReplies := by
  intro v m mem w
  obtain ⟨hread, hrb, -⟩ := decodeFields_common v m w
  by_cases hop : bits w 28 4 = 2#4
  · rw [idealBus_broadcast hop, idealBroadcast_length, nomReplies, hread, hrb, if_pos hop]
    exact ⟨fun _ => rfl, idealBroadcast_wf v m _ 0 m⟩
  · rw [idealBus_single hop, chipReply_length, nomReplies, hread, hrb, if_neg hop]
    exact ⟨fun _ => rfl, chipStore_wf _ _ _ mem⟩

/-! ## A read after a write -/

/-- Which chip a word names depends on its opcode and selector alone. -/
theorem decodeFields_ids_congr (v : Variant) (m : List MapEntry) {w w' : Word} (hop : bits w 28 4 = bits w' 28 4)
    (hsel : bits w 20 8 = bits w' 20 8) :
    (decodeFields v m w).hybrid = (decodeFields v m w').hybrid
      ∧ (decodeFields v m w).chip = (decodeFields v m w').chip := by
  unfold decodeFields
  rw [hop, hsel]
  dsimp only
  repeat' split
  all_goals exact ⟨rfl, rfl⟩

section

variable (v : Variant) (m : List MapEntry) (mem : ChipMem) (sel : Byte) (page : BitVec 1) (addr value : Byte)

/-- A plain write stores its value and answers nothing. -/
theorem idealBus_write :
    let w := twWord 0#4 sel 0#1 0#1 page 0#1 addr value
    let d := decodeFields v m w
    idealBus v m mem w = (ChipMem.write mem (chipAddr d.hybrid d.chip page addr) value, []) := by
  intro w d
  obtain ⟨hread, hrb, hpage, haddr, hvalue, -⟩ := decodeFields_common v m w
  simp only [w, twWord_rd, twWord_rb, twWord_page, twWord_addr, twWord_value] at hread hrb hpage haddr hvalue
  rw [idealBus_single (by simp [w])]
  simp [chipStore, chipReply, hread, hrb, hpage, haddr, hvalue, d, w]

/-- A plain read stores nothing and answers the word with the chip's byte. -/
theorem idealBus_read :
    let w := twWord 0#4 sel 0#1 0#1 page 1#1 addr value
    let d := decodeFields v m w
    idealBus v m mem w =
      (mem, [twWord 0#4 sel 0#1 0#1 page 1#1 addr (ChipMem.read mem (chipAddr d.hybrid d.chip page addr))]) := by
  intro w d
  obtain ⟨hread, hrb, hpage, haddr, -, -⟩ := decodeFields_common v m w
  simp only [w, twWord_rd, twWord_rb, twWord_page, twWord_addr] at hread hrb hpage haddr
  rw [idealBus_single (by simp [w])]
  simp [chipStore, chipReply, replyWord, hread, hrb, hpage, haddr, d, w]

end

/-- Settles O59: both words name one chip, so the read's address is the write's. -/
theorem idealBusReadsBackWhatWasWritten : Obligations.IdealBusReadsBackWhatWasWritten := by
  intro v m mem sel page addr value hmem wr rd d
  obtain ⟨hhybrid, hchip⟩ : (decodeFields v m rd).hybrid = d.hybrid ∧ (decodeFields v m rd).chip = d.chip :=
    decodeFields_ids_congr v m (by simp [rd, wr]) (by simp [rd, wr])
  rw [idealBus_read, idealBus_write]
  refine ⟨?_, fun a ha => ?_⟩
  · rw [hhybrid, hchip, ChipMem.read_write _ _ _ _ hmem, if_pos rfl]
  · rw [ChipMem.read_write _ _ _ _ hmem, if_neg ha]

end Sys2Proof.Machine
end

