-- ==== Sys2Proof/Proofs/LineCommands.lean ====
section
/-! PROOFS. The outcomes of unit L's commands: LNK.SETMODE (O29), LNK.SETPAT (O30), LNK.DOPA and LNK.DOWA (O31),
LNK.CAPTURE (O32), LNK.OPTRST and LNK.OPTSEL (O33), and the steps of its agents (O34, O35). Each command is first said by
its refusals, in the order of their checks, and by what it does past them. -/

namespace Sys2Proof.Machine

/-- A record replaced, said of the line's own entry. -/
theorem setTuning_own {x : LineId} {s : State} {e : LineEntry} (hf : findLine x s.link.lines = some e)
    (t : LineTuning) :
    setTuning x t s =
      { s with link := { s.link with
          lines := s.link.lines.map fun k => if k.id = e.id then { k with tuning := t } else k } } := by
  rw [(findLine_some hf).1]
  rfl

section

variable {x : LineId} {s : State}

/-! ## LNK.SETMODE and LNK.SETPAT -/

theorem setMode_illegal {mode : BitVec 2} (hm : modeOk mode = false) (delay : BitVec 5) (bitslip : BitVec 3) :
    setMode x mode delay bitslip s = raise .illegalCmd s := if_pos hm

theorem setMode_missing {mode : BitVec 2} (hm : modeOk mode = true) (hf : findLine x s.link.lines = none)
    (delay : BitVec 5) (bitslip : BitVec 3) : setMode x mode delay bitslip s = raise .lnkBadline s := by
  rw [setMode, if_neg (Bool.not_eq_false _ ▸ hm), onLine_none _ hf]

theorem setMode_found {mode : BitVec 2} {e : LineEntry} (hm : modeOk mode = true)
    (hf : findLine x s.link.lines = some e) (delay : BitVec 5) (bitslip : BitVec 3) :
    setMode x mode delay bitslip s = setTuning x (e.tuning.withMode mode delay bitslip) s := by
  rw [setMode, if_neg (Bool.not_eq_false _ ▸ hm), onLine_some _ hf]

theorem setPat_illegal {plen : Byte} (hp : plenOk plen = false) (pat : Byte) :
    setPat x plen pat s = raise .illegalCmd s := if_pos hp

theorem setPat_missing {plen : Byte} (hp : plenOk plen = true) (hf : findLine x s.link.lines = none) (pat : Byte) :
    setPat x plen pat s = raise .lnkBadline s := by
  rw [setPat, if_neg (Bool.not_eq_false _ ▸ hp), onLine_none _ hf]

theorem setPat_found {plen : Byte} {e : LineEntry} (hp : plenOk plen = true)
    (hf : findLine x s.link.lines = some e) (pat : Byte) :
    setPat x plen pat s =
      if e.tuning.mode ≠ .patternInject then raise .lnkOrder s else setTuning x (e.tuning.withPattern plen pat) s := by
  rw [setPat, if_neg (Bool.not_eq_false _ ▸ hp), onLine_some _ hf]

/-! ## LNK.DOPA, LNK.DOWA and LNK.CAPTURE -/

variable {e : LineEntry}

theorem doPhase_refused (hf : findLine x s.link.lines = some e)
    (h : e.tuning.mode ≠ .patternInject ∨ e.tuning.patValid = false) : doPhase x s = raise .lnkOrder s := by
  rw [doPhase, onLine_some _ hf, if_pos h]

theorem doPhase_started (hf : findLine x s.link.lines = some e) (hm : e.tuning.mode = .patternInject)
    (hp : e.tuning.patValid = true) : doPhase x s = setTuning x e.tuning.startPhase s := by
  rw [doPhase, onLine_some _ hf, if_neg (by simp [hm, hp])]

theorem doWord_refused (hf : findLine x s.link.lines = some e)
    (h : e.tuning.mode ≠ .patternInject ∨ e.tuning.paState ≠ .tuned) : doWord x s = raise .lnkOrder s := by
  rw [doWord, onLine_some _ hf, if_pos h]

theorem doWord_started (hf : findLine x s.link.lines = some e) (hm : e.tuning.mode = .patternInject)
    (hp : e.tuning.paState = .tuned) : doWord x s = setTuning x e.tuning.startWord s := by
  rw [doWord, onLine_some _ hf, if_neg (by simp [hm, hp])]

theorem LineTuning.running_iff (t : LineTuning) :
    t.running = true ↔ t.paState = .running ∨ t.waState = .running := by
  simp [LineTuning.running]

theorem capture_busy (hf : findLine x s.link.lines = some e) (h : e.tuning.running = true) :
    capture x s = raise .lnkBusy s := by
  rw [capture, onLine_some _ hf, if_pos h]

theorem capture_drawn (hf : findLine x s.link.lines = some e) (h : ¬ e.tuning.running = true) :
    capture x s = storeCapture x (drawCapture s.params.nCapWords e) s := by
  rw [capture, onLine_some _ hf, if_neg h]

/-! ## The agents -/

theorem phaseTurn_running (hf : findLine x s.link.lines = some e) (h : e.tuning.paState = .running) :
    phaseTurn x s = setLink { s.link with lines := updateLine x LineEntry.phaseStep s.link.lines } s := by
  simp only [phaseTurn, hf, if_pos h]

theorem phaseTurn_passes (hf : findLine x s.link.lines = some e) (h : e.tuning.paState ≠ .running) :
    phaseTurn x s = s := by
  simp only [phaseTurn, hf, if_neg h]

theorem wordTurn_running (hf : findLine x s.link.lines = some e) (h : e.tuning.waState = .running) :
    wordTurn x s = setLink { s.link with lines := updateLine x LineEntry.wordStep s.link.lines } s := by
  simp only [wordTurn, hf, if_pos h]

theorem wordTurn_passes (hf : findLine x s.link.lines = some e) (h : e.tuning.waState ≠ .running) :
    wordTurn x s = s := by
  simp only [wordTurn, hf, if_neg h]

/-- A line with one entry is replaced by what its found entry becomes (10_state.md R61). -/
theorem LinkSound.updateLine_congr (hs : LinkSound s) (hf : findLine x s.link.lines = some e)
    {f g : LineEntry → LineEntry} (h : f e = g e) : updateLine x f s.link.lines = updateLine x g s.link.lines := by
  refine List.map_congr_left fun k hk => ?_
  by_cases hx : k.id = x
  · rw [if_pos hx, if_pos hx, hs.findLine_eq hf hk hx, h]
  · rw [if_neg hx, if_neg hx]

/-- The two alignments of a line never run together: a word alignment has its phase tuned (R217). -/
theorem LineTuning.Sound.not_both_running {t : LineTuning} (h : t.Sound) :
    ¬ (t.paState = .running ∧ t.waState = .running) := by
  rintro ⟨hpa, hwa⟩
  have htuned : t.paState = .tuned := h.wordAfterPhase (by simp [hwa])
  simp [hpa] at htuned

end

/-! ## The statements -/

/-- Settles O29. -/
theorem setmodeOutcome : Obligations.SetmodeOutcome := by
  intro s h c l mode delay bitslip store
  refine ⟨?illegal, fun hm hf => ?missing, fun e hf => ⟨?idle, ?patternInject, ?manual⟩⟩
  case illegal => rintro rfl; exact congrArg Host.Outcome.next (setMode_illegal rfl _ _)
  case missing => exact congrArg Host.Outcome.next (setMode_missing ((modeOk_iff mode).2 hm) hf _ _)
  all_goals
    rintro rfl
    exact congrArg Host.Outcome.next ((setMode_found rfl hf delay bitslip).trans (setTuning_own hf _))

/-- Settles O30. -/
theorem setpatOutcome : Obligations.SetpatOutcome := by
  intro s h c l plen pat
  refine ⟨?illegal, fun hp hf => ?missing, fun hp e hf => ⟨fun hm => ?order, fun hm => ?set⟩⟩
  case illegal => rintro rfl; exact congrArg Host.Outcome.next (setPat_illegal rfl _)
  all_goals have hok := (plenOk_iff plen).2 hp
  case missing => exact congrArg Host.Outcome.next (setPat_missing hok hf _)
  case order => exact congrArg Host.Outcome.next ((setPat_found hok hf pat).trans (if_pos hm))
  case set =>
    exact congrArg Host.Outcome.next
      (((setPat_found hok hf pat).trans (if_neg (not_not.2 hm))).trans (setTuning_own hf _))

/-- Settles O31. -/
theorem alignmentStartOutcomes : Obligations.AlignmentStartOutcomes :=
  ⟨fun _ _ _ _ => ⟨fun hf => congrArg Host.Outcome.next (onLine_none _ hf), fun _ hf =>
    ⟨fun h => congrArg Host.Outcome.next (doPhase_refused hf h),
     fun hm hp => congrArg Host.Outcome.next ((doPhase_started hf hm hp).trans (setTuning_own hf _))⟩⟩,
   fun _ _ _ _ => ⟨fun hf => congrArg Host.Outcome.next (onLine_none _ hf), fun _ hf =>
    ⟨fun h => congrArg Host.Outcome.next (doWord_refused hf h),
     fun hm hp => congrArg Host.Outcome.next ((doWord_started hf hm hp).trans (setTuning_own hf _))⟩⟩⟩

/-- Settles O32: the draw asks the oracle for the entry's own line, which is the line named. -/
theorem captureOutcome : Obligations.CaptureOutcome := by
  intro s h c l
  refine ⟨fun hf => congrArg Host.Outcome.next (onLine_none _ hf), fun e hf => ⟨fun hr => ?busy, fun hpa hwa => ?drawn⟩⟩
  case busy => exact congrArg Host.Outcome.next (capture_busy hf (e.tuning.running_iff.2 hr))
  case drawn =>
    have hr : ¬ e.tuning.running = true := fun hr => (e.tuning.running_iff.1 hr).elim hpa hwa
    refine congrArg Host.Outcome.next ((capture_drawn hf hr).trans ?_)
    rw [drawCapture, (findLine_some hf).1]
    rfl

/-- Settles O33. -/
theorem opticalCommandOutcomes : Obligations.OpticalCommandOutcomes :=
  ⟨fun _ => rfl, fun _ _ =>
    ⟨fun h => congrArg Host.Outcome.next (if_pos h), fun h => congrArg Host.Outcome.next (if_neg (Nat.not_le.2 h))⟩⟩

/-- Settles O34: the entry an agent steps is the one found, since a line has no other. -/
theorem lineAgentSteps : Obligations.LineAgentSteps := by
  intro s x e hf hs
  have hx : e.id = x := (findLine_some hf).1
  refine ⟨fun hr => ?phase, fun hr => ?phasePasses, fun hr => ?word, fun hr => ?wordPasses,
    (hs.lineSound hf).not_both_running⟩
  case phase =>
    refine congrArg Host.Outcome.next ((phaseTurn_running hf hr).trans ?_)
    rw [hs.updateLine_congr hf (g := fun k =>
      { k with paSeq := k.paSeq + 1, tuning := e.tuning.phaseResult (Config.paAuto x e.paSeq) })
      (by rw [LineEntry.phaseStep, hx])]
    rfl
  case phasePasses => exact congrArg Host.Outcome.next (phaseTurn_passes hf hr)
  case word =>
    refine congrArg Host.Outcome.next ((wordTurn_running hf hr).trans ?_)
    rw [hs.updateLine_congr hf (g := fun k =>
      { k with waSeq := k.waSeq + 1, tuning := e.tuning.wordResult (Config.waAuto x e.waSeq) })
      (by rw [LineEntry.wordStep, hx])]
    rfl
  case wordPasses => exact congrArg Host.Outcome.next (wordTurn_passes hf hr)

/-- The links after a turn of the optical agent of link `k`. -/
theorem opticalTurn_getElem? (k j : Nat) (s : State) :
    (opticalTurn k s).link.links[j]? =
      s.link.links[j]?.map fun o => if j = k then { status := Config.optDraw k o.seq, seq := o.seq + 1 } else o :=
  List.getElem?_mapIdx

/-- Settles O35. -/
theorem opticalAgentStep : Obligations.OpticalAgentStep := by
  intro s k _
  refine ⟨opticalTurn k s, rfl, fun o ho => ?own, fun j hj => ?other, rfl⟩
  case own => rw [opticalTurn_getElem?, ho, Option.map_some, if_pos rfl]
  case other => simp only [opticalTurn_getElem?, if_neg hj, Option.map_id']

end Sys2Proof.Machine
end

