-- ==== Sys2Proof/Proofs/LineChart.lean ====
section
/-! PROOFS. The state chart of 41_link_trainer.md R202 (O37) and the absence of coupling between lines (O36). An event
names at most one line. One that names a line replaces the entry of that line only, by one whose main state stays or
follows the chart (`LineStep`); one that names none, short of a reset, leaves the table of lines as it was. -/

namespace Sys2Proof.Machine

/-! ## The line an event names -/

/-- The line the word of a line command names (30_encoding.md R134). -/
def lineNamed (w : Word) : LineId := ⟨bits w 28 4, bits w 24 4, bits w 20 4⟩

/-- The line an instruction works on. -/
def instrLine : Instr → Option LineId
  | .lnkGetcfg h c l => some ⟨h, c, l⟩
  | .lnkGetstat h c l => some ⟨h, c, l⟩
  | .lnkSetmode h c l _ _ _ => some ⟨h, c, l⟩
  | .lnkSetpat h c l _ _ => some ⟨h, c, l⟩
  | .lnkDopa h c l => some ⟨h, c, l⟩
  | .lnkDowa h c l => some ⟨h, c, l⟩
  | .lnkCapture h c l => some ⟨h, c, l⟩
  | _ => none

/-- The line an event works on: the one a word written to the tuning port names, or the one whose agent steps. -/
def eventLine : Event → Option LineId
  | .wr .tuningCtrl w => some (lineNamed w)
  | .agent (.linePhase x) => some x
  | .agent (.lineWord x) => some x
  | _ => none

theorem lineNamed_ltWord (h c l ctype : Nibble) (payload : BitVec 16) :
    lineNamed (ltWord h c l ctype payload) = ⟨h, c, l⟩ := by
  obtain ⟨hh, hc, hl, -⟩ := ltWord_fields h c l ctype payload
  rw [lineNamed, hh, hc, hl]

/-- A command written to a port works on the line an event of that write names. -/
theorem instrLine_of_encode {i : Instr} {r : Reg} {w : Word} (h : encode i = .write r w) :
    instrLine i = eventLine (.wr r w) := by
  cases i <;> cases h
  case lnkGetcfg | lnkGetstat | lnkSetmode | lnkSetpat | lnkDopa | lnkDowa | lnkCapture =>
    exact congrArg some (lineNamed_ltWord _ _ _ _ _).symm
  all_goals rfl

/-! ## The main state of a sound record, and where each operation takes it -/

/-- The cause takes the record's main state to the main state of the next record (R202). -/
def ChartTakes (cause : LineCause) (t t' : LineTuning) : Prop := t.mainState.bind (lineChart cause) = t'.mainState

/-- In PatternInject the word alignment has not begun, or the phase is tuned (10_state.md R62). -/
theorem LineTuning.Sound.wordIdle_or_tuned {t : LineTuning} (h : t.Sound) : t.waState = .idle ∨ t.paState = .tuned :=
  or_iff_not_imp_left.2 h.wordAfterPhase

/-- A sound record is in a row of R62. -/
theorem LineTuning.Sound.mainState_some {t : LineTuning} (h : t.Sound) : ∃ a, t.mainState = some a := by
  unfold LineTuning.mainState
  cases t.mode with
  | idle | manual => exact ⟨_, rfl⟩
  | patternInject =>
    rcases h.wordIdle_or_tuned with hw | hp
    · rw [hw]; cases t.paState <;> exact ⟨_, rfl⟩
    · rw [hp]; cases t.waState <;> exact ⟨_, rfl⟩

theorem LineTuning.startWord_chart {t : LineTuning} (hm : t.mode = .patternInject) (hp : t.paState = .tuned) :
    ChartTakes .dowa t t.startWord := by
  simp only [ChartTakes, LineTuning.startWord, LineTuning.mainState, hm, hp]
  cases t.waState <;> rfl

section

variable {t : LineTuning} (h : t.Sound)
include h

theorem LineTuning.Sound.withMode_chart {mode : BitVec 2} (hm : modeOk mode = true) (delay : BitVec 5)
    (bitslip : BitVec 3) : ChartTakes (.setmode mode) t (t.withMode mode delay bitslip) := by
  obtain ⟨a, ha⟩ := h.mainState_some
  rw [ChartTakes, ha, Option.bind_some, lineChart, LineTuning.withMode]
  have hcases : mode = 0#2 ∨ mode = 1#2 ∨ mode = 2#2 := by
    have hne := (modeOk_iff mode).1 hm
    bv_omega
  rcases hcases with rfl | rfl | rfl <;> rfl

section

variable (hm : t.mode = .patternInject)
include hm

/-- The word result is dropped, and the phase result kept (R207). -/
theorem LineTuning.Sound.withPattern_chart (plen pat : Byte) : ChartTakes .setpat t (t.withPattern plen pat) := by
  simp only [ChartTakes, LineTuning.withPattern, LineTuning.mainState, hm]
  rcases h.wordIdle_or_tuned with hw | hp
  · rw [hw]; cases t.paState <;> rfl
  · rw [hp]; cases t.waState <;> rfl

theorem LineTuning.Sound.startPhase_chart : ChartTakes .dopa t t.startPhase := by
  simp only [ChartTakes, LineTuning.startPhase, LineTuning.mainState, hm]
  rcases h.wordIdle_or_tuned with hw | hp
  · rw [hw]; cases t.paState <;> rfl
  · rw [hp]; cases t.waState <;> rfl

end

/-- A phase alignment runs only in the chart's state PA_RUNNING. -/
theorem LineTuning.Sound.phaseResult_chart (hr : t.paState = .running) (r : Option (BitVec 5)) :
    ChartTakes (if r.isSome then .phaseTuned else .phaseFailed) t (t.phaseResult r) := by
  have hm := h.patternInject (.inl (by simp [hr]))
  have hw : t.waState = .idle := h.wordIdle_or_tuned.resolve_right (by simp [hr])
  cases r <;> simp [ChartTakes, LineTuning.phaseResult, LineTuning.mainState, lineChart, hm, hw, hr]

/-- A word alignment runs only in the chart's state WA_RUNNING. -/
theorem LineTuning.Sound.wordResult_chart (hr : t.waState = .running) (r : Option (BitVec 3)) :
    ChartTakes (if r.isSome then .wordTuned else .wordFailed) t (t.wordResult r) := by
  have hm := h.patternInject (.inr (by simp [hr]))
  have hp : t.paState = .tuned := h.wordIdle_or_tuned.resolve_left (by simp [hr])
  cases r <;> simp [ChartTakes, LineTuning.wordResult, LineTuning.mainState, lineChart, hm, hp, hr]

end

/-! ## What an event that names a line can do -/

/-- The main state stays, or moves along the chart by a cause of line `x` that the event is. -/
def FollowsChart (x : LineId) (ev : Event) (t t' : LineTuning) : Prop :=
  t'.mainState = t.mainState ∨ ∃ cause, isCause x ev cause ∧ ChartTakes cause t t'

/-- The entry of line `x` replaced by one that follows the chart, no other entry touched, and beside it at most the
reply, the debug words and the flags changed (41_link_trainer.md R217). -/
structure LineStep (x : LineId) (ev : Event) (s t : State) : Prop where
  entry : ∃ f : LineEntry → LineEntry, (∀ e, (f e).id = e.id) ∧ t.link.lines = updateLine x f s.link.lines
    ∧ ∀ e, findLine x s.link.lines = some e → e.tuning.Sound → FollowsChart x ev e.tuning (f e).tuning
  links : t.link.links = s.link.links
  optSel : t.link.optSel = s.link.optSel
  codec : t.codec = s.codec
  readout : t.readout = s.readout
  trace : t.trace = s.trace

section

variable {x : LineId} {ev : Event} {s t : State}

theorem LineStep.others (h : LineStep x ev s t) {y : LineId} (hy : y ≠ x) :
    findLine y t.link.lines = findLine y s.link.lines := by
  obtain ⟨f, hf, hlines, -⟩ := h.entry
  rw [hlines, findLine_updateLine_ne hf hy]

theorem LineStep.ids (h : LineStep x ev s t) : t.lineIds = s.lineIds := by
  obtain ⟨f, hf, hlines, -⟩ := h.entry
  rw [State.lineIds, hlines]
  exact updateLine_ids hf _

theorem LineStep.record (h : LineStep x ev s t) {e : LineEntry} (he : findLine x s.link.lines = some e)
    (hs : e.tuning.Sound) : ∃ e', findLine x t.link.lines = some e' ∧ FollowsChart x ev e.tuning e'.tuning := by
  obtain ⟨f, hf, hlines, hchart⟩ := h.entry
  exact ⟨f e, by rw [hlines, findLine_updateLine hf, he]; rfl, hchart e he hs⟩

/-- Nothing but the reply register, the debug words and the flags touched. -/
theorem LineStep.of_same_lines (hlines : t.link.lines = s.link.lines) (hlinks : t.link.links = s.link.links)
    (hsel : t.link.optSel = s.link.optSel) (hcodec : t.codec = s.codec) (hreadout : t.readout = s.readout)
    (htrace : t.trace = s.trace) : LineStep x ev s t :=
  ⟨⟨id, fun _ => rfl, by simp [hlines, updateLine], fun _ _ _ => .inl rfl⟩, hlinks, hsel, hcodec, hreadout, htrace⟩

theorem LineStep.refl (s : State) : LineStep x ev s s := .of_same_lines rfl rfl rfl rfl rfl rfl

theorem LineStep.raised (err : Err) (s : State) : LineStep x ev s (raise err s) :=
  .of_same_lines rfl rfl rfl rfl rfl rfl

theorem LineStep.replied (w : Word) (s : State) : LineStep x ev s (setReply w s) :=
  .of_same_lines rfl rfl rfl rfl rfl rfl

/-- A line's record replaced by one the chart leads to. -/
theorem LineStep.ofSetTuning {e : LineEntry} {u : LineTuning} {cause : LineCause}
    (he : findLine x s.link.lines = some e) (hc : isCause x ev cause)
    (hu : e.tuning.Sound → ChartTakes cause e.tuning u) : LineStep x ev s (setTuning x u s) := by
  refine ⟨⟨fun k => { k with tuning := u }, fun _ => rfl, rfl, fun e' he' hs => ?_⟩, rfl, rfl, rfl, rfl, rfl⟩
  obtain rfl : e = e' := Option.some.inj (he.symm.trans he')
  exact .inr ⟨cause, hc, hu hs⟩

/-- A line command steps as its continuation does on the line's entry. -/
theorem LineStep.ofOnLine {k : LineEntry → State}
    (h : ∀ e, findLine x s.link.lines = some e → LineStep x ev s (k e)) : LineStep x ev s (onLine x s k) := by
  cases hf : findLine x s.link.lines with
  | none => rw [onLine_none k hf]; exact .raised _ s
  | some e => rw [onLine_some k hf]; exact h e hf

theorem setMode_lineStep {mode : BitVec 2} (hc : isCause x ev (.setmode mode)) (delay : BitVec 5)
    (bitslip : BitVec 3) (s : State) : LineStep x ev s (setMode x mode delay bitslip s) := by
  unfold setMode
  split
  · exact .raised _ s
  next hm =>
    exact .ofOnLine fun e he =>
      .ofSetTuning he hc fun hs => hs.withMode_chart (Bool.eq_true_of_not_eq_false hm) delay bitslip

theorem setPat_lineStep (hc : isCause x ev .setpat) (plen pat : Byte) (s : State) :
    LineStep x ev s (setPat x plen pat s) := by
  unfold setPat
  split
  · exact .raised _ s
  · refine .ofOnLine fun e he => ?_
    split
    · exact .raised _ s
    next hm => exact .ofSetTuning he hc fun hs => hs.withPattern_chart (not_not.1 hm) plen pat

theorem doPhase_lineStep (hc : isCause x ev .dopa) (s : State) : LineStep x ev s (doPhase x s) := by
  refine .ofOnLine fun e he => ?_
  split
  · exact .raised _ s
  next h => exact .ofSetTuning he hc fun hs => hs.startPhase_chart (not_not.1 (not_or.1 h).1)

theorem doWord_lineStep (hc : isCause x ev .dowa) (s : State) : LineStep x ev s (doWord x s) := by
  refine .ofOnLine fun e he => ?_
  split
  · exact .raised _ s
  next h =>
    obtain ⟨hm, hp⟩ := not_or.1 h
    exact .ofSetTuning he hc fun _ => LineTuning.startWord_chart (not_not.1 hm) (not_not.1 hp)

/-- A capture counts a draw and leaves the record (R210). -/
theorem capture_lineStep (s : State) : LineStep x ev s (capture x s) := by
  refine .ofOnLine fun e _ => ?_
  split
  · exact .raised _ s
  · exact ⟨⟨fun k => { k with capSeq := k.capSeq + 1 }, fun _ => rfl, rfl, fun _ _ _ => .inl rfl⟩, rfl, rfl, rfl, rfl,
      rfl⟩

theorem phaseTurn_lineStep (x : LineId) (s : State) : LineStep x (.agent (.linePhase x)) s (phaseTurn x s) := by
  unfold phaseTurn
  split
  · exact .refl s
  next e he =>
    split
    next hr =>
      refine ⟨⟨LineEntry.phaseStep, fun _ => rfl, rfl, fun e' he' hs => ?_⟩, rfl, rfl, rfl, rfl, rfl⟩
      obtain rfl : e = e' := Option.some.inj (he.symm.trans he')
      exact .inr ⟨_, by split <;> rfl, hs.phaseResult_chart hr _⟩
    · exact .refl s

theorem wordTurn_lineStep (x : LineId) (s : State) : LineStep x (.agent (.lineWord x)) s (wordTurn x s) := by
  unfold wordTurn
  split
  · exact .refl s
  next e he =>
    split
    next hr =>
      refine ⟨⟨LineEntry.wordStep, fun _ => rfl, rfl, fun e' he' hs => ?_⟩, rfl, rfl, rfl, rfl, rfl⟩
      obtain rfl : e = e' := Option.some.inj (he.symm.trans he')
      exact .inr ⟨_, by split <;> rfl, hs.wordResult_chart hr _⟩
    · exact .refl s

/-- An instruction that works on a line steps that line only, and is its own cause when it moves the main state. -/
theorem exec_lineStep {i : Instr} {w : Word} (hi : instrLine i = some x) (hw : encode i = .write .tuningCtrl w)
    (h : exec i s = .next t) : LineStep x (.wr .tuningCtrl w) s t := by
  cases i <;> cases hi <;> cases h <;> cases hw
  case lnkGetcfg => exact .ofOnLine fun e _ => .replied _ s
  case lnkGetstat => exact .ofOnLine fun e _ => .replied _ s
  case lnkSetmode => exact setMode_lineStep ⟨_, _, rfl⟩ _ _ s
  case lnkSetpat => exact setPat_lineStep ⟨_, _, rfl⟩ _ _ s
  case lnkDopa => exact doPhase_lineStep rfl s
  case lnkDowa => exact doWord_lineStep rfl s
  case lnkCapture => exact capture_lineStep s

/-- An event that names a line steps that line only. -/
theorem runEvent_lineStep (hx : eventLine ev = some x) (h : runEvent ev s = .next t) : LineStep x ev s t := by
  unfold eventLine at hx
  split at hx
  next w =>
    simp only [runEvent, hostWrite, regClass] at h
    split at h
    next i hd =>
      have hw : encode i = .write .tuningCtrl w := (decode_encodes hd).2
      exact exec_lineStep ((instrLine_of_encode hw).trans hx) hw h
    · cases h; exact .raised _ s
  · cases hx; cases h; exact phaseTurn_lineStep x s
  · cases hx; cases h; exact wordTurn_lineStep x s
  · cases hx

end

/-! ## What an event that names no line can do -/

/-- An instruction that works on no line leaves the table of lines, a reset aside. -/
theorem exec_lines_of_no_line {i : Instr} {s t : State} (hi : instrLine i = none) (hr : i ≠ .sysReset)
    (h : exec i s = .next t) : t.link.lines = s.link.lines := by
  cases i <;> cases h
  case sysReset => exact absurd rfl hr
  case lnkGetcfg | lnkGetstat | lnkSetmode | lnkSetpat | lnkDopa | lnkDowa | lnkCapture => cases hi
  case txcFlush | lnkOptrst | roeReset => rfl
  case txcConfigure => unfold configure; split <;> rfl
  case txcMapadd => unfold mapadd; split <;> rfl
  case txcEnc => unfold encodeRequest; dsimp only; (repeat' split) <;> rfl
  case txcDec => unfold decodeWord; split <;> rfl
  case txcPush => unfold pushCommand; dsimp only; (repeat' split) <;> rfl
  case txcPop => unfold popReply; split <;> rfl
  case lnkOptsel => unfold selectLink; split <;> rfl
  case roeReadav => unfold readAvailable; split <;> rfl
  case roeReadn => unfold readN; split_ifs <;> rfl
  all_goals exact congrArg Link.lines (dispatch_link _ s)

/-- A plain register write leaves unit L. -/
theorem writeReg_link (r : Reg) (w : Word) (s : State) : (writeReg r w s).link = s.link := by
  have hconfig : ∀ r', (writeConfig r' s).link = s.link := fun r' => by unfold writeConfig; split <;> rfl
  cases r
  case roCnfg | roTimeoutPolls | roTrigCnfg | roEvsizeCnfg => exact hconfig _
  all_goals rfl

theorem engineTurn_link (s : State) : (engineTurn s).link = s.link := by
  unfold engineTurn
  cases s.readout.state with
  | handshake | directRead | stalled => exact finishStep_link _ s
  | idle | waitingForWords | decoded | recoveryStop | recoveryReset | recoveryStart | error => rfl

/-- A write that names no line and is no reset. -/
theorem hostWrite_lines_of_no_line {r : Reg} {w : Word} {s t : State} (hl : eventLine (.wr r w) = none)
    (hr : resetsBlock (.wr r w) = false) (h : hostWrite r w s = .next t) : t.link.lines = s.link.lines := by
  unfold hostWrite at h
  split at h
  · split at h
    next i hd =>
      have hw : encode i = .write r w := (decode_encodes hd).2
      refine exec_lines_of_no_line ((instrLine_of_encode hw).trans hl) ?_ h
      rintro rfl
      cases hw
      cases hr
    · cases h; rfl
  all_goals cases h; exact congrArg Link.lines (writeReg_link r w s)

/-- An event that names no line and is no reset leaves the table of lines. -/
theorem runEvent_lines_of_no_line {ev : Event} {s t : State} (hl : eventLine ev = none) (hr : resetsBlock ev = false)
    (h : runEvent ev s = .next t) : t.link.lines = s.link.lines := by
  cases ev with
  | wr r w => exact hostWrite_lines_of_no_line hl hr h
  | rd r k =>
    by_cases hp : r = .replyFifo
    · subst hp; exact exec_lines_of_no_line (i := .txcPop) rfl nofun h
    · rw [runEvent_rd hp] at h; cases h; rfl
  | rst => cases hr
  | agent a =>
    cases a with
    | bus =>
      simp only [runEvent, agentTurn, busTurn] at h
      split at h
      · cases h; rfl
      · split at h
        next hd =>
          obtain ⟨w', he⟩ := decoded_dispatches _ _ _ hd
          rw [he] at h
          cases h
          exact congrArg Link.lines (dispatch_link _ _)
        · cases h
    | linePhase | lineWord => cases hl
    | optical => cases h; rfl
    | engine => cases h; exact congrArg Link.lines (engineTurn_link s)

/-- Whatever happens short of a reset, a line is found as before, or the event named it and its record follows the
chart. -/
theorem runEvent_record {ev : Event} {s t : State} (hr : resetsBlock ev = false) (h : runEvent ev s = .next t)
    {x : LineId} {e : LineEntry} (he : findLine x s.link.lines = some e) (hs : e.tuning.Sound) :
    ∃ e', findLine x t.link.lines = some e' ∧ FollowsChart x ev e.tuning e'.tuning := by
  cases hl : eventLine ev with
  | none => exact ⟨e, by rw [runEvent_lines_of_no_line hl hr h, he], .inl rfl⟩
  | some y =>
    by_cases hx : x = y
    · subst hx; exact (runEvent_lineStep hl h).record he hs
    · exact ⟨e, by rw [(runEvent_lineStep hl h).others hx, he], .inl rfl⟩

/-! ## The statements -/

/-- Settles O37: the record follows the chart, and both records are sound, so both have a main state. -/
theorem lineStateChartIsComplete : Obligations.LineStateChartIsComplete := by
  intro s t ev hs hr h x e he
  obtain ⟨e', he', hchart⟩ := runEvent_record hr h he (hs.lineSound he)
  obtain ⟨a, ha⟩ := (hs.lineSound he).mainState_some
  obtain ⟨b, hb⟩ := ((runEvent_linkSound h hs).lineSound he').mainState_some
  refine ⟨e', a, b, he', ha, hb, ?_⟩
  rcases hchart with hstays | ⟨cause, hcause, htakes⟩
  · exact .inl (Option.some.inj (by rw [← hb, ← ha, hstays]))
  · rw [ChartTakes, ha, hb] at htakes
    exact .inr ⟨cause, hcause, htakes⟩

/-- Settles O36: each of the events names the line. -/
theorem otherLinesStayAsTheyWere : Obligations.OtherLinesStayAsTheyWere := by
  intro s t x ev hev h
  have hx : eventLine ev = some x := by
    rcases hev with ⟨w, rfl, hh, hc, hl⟩ | rfl | rfl
    · rw [eventLine, lineNamed, hh, hc, hl]
    · rfl
    · rfl
  have hstep := runEvent_lineStep hx h
  exact ⟨fun y hy => hstep.others hy, hstep.ids, hstep.links, hstep.optSel, hstep.codec, hstep.readout, hstep.trace⟩

end Sys2Proof.Machine
end

