-- ==== Sys2Proof/Proofs/Carving.lean ====
section
/-! PROOFS. The carving law (O45). `carveFrom` takes a whole frame off the front of the buffer at each call, so it
answers the starts of a row of whole frames (`carveFrom_flatten`), and an answer shows such a row
(`exists_frames_of_carveFrom`). -/

namespace Sys2Proof.Machine

@[simp] theorem frameStarts_length (i : Nat) (fs : List (List Word)) : (frameStarts i fs).length = fs.length := by
  induction fs generalizing i with
  | nil => rfl
  | cons f fs ih => exact congrArg Nat.succ (ih _)

@[simp] theorem carveFrom_nil (fuel i : Nat) : carveFrom fuel i [] = some [] := by cases fuel <;> rfl

theorem WholeFrame.length_pos {f : List Word} (h : WholeFrame f) : 0 < f.length := by
  obtain ⟨w, ws, rfl, -, -⟩ := h
  exact Nat.succ_pos _

/-- A whole frame at the front of the buffer is carved off, and the carving goes on behind it. -/
theorem carveFrom_frame {f : List Word} (h : WholeFrame f) (fuel i : Nat) (rest : List Word) :
    carveFrom (fuel + 1) i (f ++ rest) = (carveFrom fuel (i + f.length) rest).map fun os => i :: os := by
  obtain ⟨w, ws, rfl, hunits, hlen⟩ := h
  have hlen : (w :: ws).length = 4 * frameUnits w := hlen
  have hfits : ¬ (frameUnits w = 0 ∨ (w :: (ws ++ rest)).length < 4 * frameUnits w) := by
    rintro (h0 | hlt)
    · exact Nat.ne_of_gt hunits h0
    · rw [← hlen, ← List.cons_append, List.length_append] at hlt
      omega
  have hdrop : (w :: (ws ++ rest)).drop (4 * frameUnits w) = rest := by
    rw [← hlen, ← List.cons_append, List.drop_left]
  rw [List.cons_append, carveFrom, if_neg hfits, hdrop, hlen]

/-- A row of whole frames carves into the starts of its frames; as much fuel as words is enough. -/
theorem carveFrom_flatten {fs : List (List Word)} (h : ∀ f ∈ fs, WholeFrame f) {fuel : Nat} (i : Nat)
    (hfuel : fs.flatten.length ≤ fuel) : carveFrom fuel i fs.flatten = some (frameStarts i fs) := by
  induction fs generalizing fuel i with
  | nil => exact carveFrom_nil fuel i
  | cons f fs ih =>
    obtain ⟨hf, hfs⟩ := List.forall_mem_cons.1 h
    rw [List.flatten_cons, List.length_append] at hfuel
    have hpos := hf.length_pos
    obtain ⟨fuel, rfl⟩ : ∃ n, fuel = n + 1 := ⟨fuel - 1, by omega⟩
    rw [List.flatten_cons, carveFrom_frame hf, ih hfs _ (by omega)]
    rfl

/-- Only a row of whole frames carves. -/
theorem exists_frames_of_carveFrom {fuel i : Nat} {ws : List Word} {os : List Nat}
    (h : carveFrom fuel i ws = some os) : ∃ fs : List (List Word), (∀ f ∈ fs, WholeFrame f) ∧ ws = fs.flatten := by
  induction fuel generalizing i ws os with
  | zero =>
    cases ws with
    | nil => exact ⟨[], nofun, rfl⟩
    | cons w ws => cases h
  | succ fuel ih =>
    cases ws with
    | nil => exact ⟨[], nofun, rfl⟩
    | cons w ws =>
      rw [carveFrom] at h
      split at h
      · cases h
      next hframe =>
        obtain ⟨hunits, hfits⟩ := not_or.1 hframe
        obtain ⟨os', hrest, -⟩ := Option.map_eq_some_iff.1 h
        obtain ⟨fs, hfs, hdrop⟩ := ih hrest
        have hpos : 1 ≤ frameUnits w := Nat.one_le_iff_ne_zero.2 hunits
        have hwhole : WholeFrame ((w :: ws).take (4 * frameUnits w)) :=
          ⟨w, ws.take (4 * frameUnits w - 1), List.take_cons (by omega), hpos,
            List.length_take_of_le (Nat.le_of_not_lt hfits)⟩
        refine ⟨(w :: ws).take (4 * frameUnits w) :: fs, List.forall_mem_cons.2 ⟨hwhole, hfs⟩, ?_⟩
        rw [List.flatten_cons, ← hdrop, List.take_append_drop]

theorem carveOffsets_flatten {fs : List (List Word)} (h : ∀ f ∈ fs, WholeFrame f) :
    carveOffsets fs.flatten = some (frameStarts 0 fs) := carveFrom_flatten h 0 le_rfl

theorem carveOffsets_eq_none {ws : List Word}
    (h : ¬ ∃ fs : List (List Word), (∀ f ∈ fs, WholeFrame f) ∧ ws = fs.flatten) : carveOffsets ws = none :=
  Option.eq_none_iff_forall_ne_some.2 fun _ hos => h (exists_frames_of_carveFrom hos)

/-- Settles O45: what the buffer carves into decides the result. -/
theorem carvingLaw : Obligations.CarvingLaw := by
  refine fun r => ⟨fun fs hfs hout => ?_, fun hnone => ?_⟩
  · have hos : carveOffsets r.out = some (frameStarts 0 fs) := hout ▸ carveOffsets_flatten hfs
    simp only [Readout.carve, hos, frameStarts_length]
  · simp only [Readout.carve, carveOffsets_eq_none hnone]

end Sys2Proof.Machine
end

