-- ==== Sys2Proof/Proofs/EngineSteps.lean ====
section
/-! PROOFS. Unit R's commands (O39, O40, O41) and the steps of its engine (O43, O44, O46) as the rules of
42_readout_engine.md write them. -/

namespace Sys2Proof.Machine

/-! ## The commands -/

/-- Settles O39. -/
theorem roeResetOutcome : Obligations.RoeResetOutcome := fun _ => rfl

theorem readAvailable_busy {s : State} (h : s.readout.state.busy = true) : readAvailable s = raise .roBusy s := if_pos h

theorem readAvailable_starts {s : State} (h : s.readout.state.busy = false) :
    readAvailable s = setReadout ({ s.readout with kind := .av, reqN := 0#28 } : Readout).start s :=
  if_neg (Bool.eq_false_iff.1 h)

/-- Settles O40: the two outcomes of the command. -/
theorem readavOutcome : Obligations.ReadavOutcome := fun _ =>
  ⟨fun h => congrArg Host.Outcome.next (readAvailable_busy h),
    fun h => congrArg Host.Outcome.next (readAvailable_starts h)⟩

/-- Settles O41, check by check. -/
theorem readnOutcome : Obligations.ReadnOutcome := by
  intro s n
  refine congrArg Host.Outcome.next ?_
  by_cases hn : n = 0#28
  · rw [if_pos hn, readN, if_pos (by rw [hn]; rfl)]
    rfl
  have hok : ¬ eventsOk n = false := fun h => hn (by simpa [eventsOk] using h)
  rw [if_neg hn, readN, if_neg hok]
  by_cases hb : s.readout.state.busy = true
  · rw [if_pos hb, if_pos hb]
    rfl
  rw [if_neg hb, if_neg hb]
  by_cases hf : s.params.roOutDepth < n.toNat * s.readout.evSize
  · rw [if_pos hf, if_pos hf]
    rfl
  · rw [if_neg hf, if_neg hf]
    rfl

/-! ## The poll and the read steps -/

theorem runEvent_engine (s : State) : runEvent (.agent .engine) s = .next (engineTurn s) := rfl

theorem Readout.handshakeEn_iff (r : Readout) : r.handshakeEn = true ↔ bits r.cnfg 0 1 = 1#1 := decide_eq_true_iff

theorem Readout.handshakeEn_eq_false_iff (r : Readout) : r.handshakeEn = false ↔ ¬ bits r.cnfg 0 1 = 1#1 :=
  decide_eq_false_iff_not

theorem Readout.ddr3En_iff (r : Readout) : r.ddr3En = true ↔ bits r.cnfg 1 1 = 1#1 := decide_eq_true_iff

/-- Settles O43: each outcome of the poll is the branch its conditions choose. -/
theorem pollStep : Obligations.PollStep := by
  intro s hs
  dsimp only
  rw [runEvent_engine, engineTurn_waiting s hs]
  refine congrArg (fun r => Host.Outcome.next (setReadout r s)) ?_
  have on : s.readout.handshakeEn = true → bits s.readout.cnfg 0 1 = 1#1 := s.readout.handshakeEn_iff.1
  have off : s.readout.handshakeEn = false → ¬ bits s.readout.cnfg 0 1 = 1#1 := s.readout.handshakeEn_eq_false_iff.1
  rcases s.readout.poll_cases (Config.bufSample s.readout.smpSeq) with
    ⟨hh, hreq, h⟩ | ⟨hh, hreq, hover, hstall, h⟩ | ⟨hh, hreq, hover, htrig, hwc, h⟩ | ⟨hh, hreq, hpolls, hnoprog, h⟩ |
    ⟨hh, hread, h⟩ | ⟨hh, hkind, hwords, hover, h⟩ | ⟨hh, hkind, hwords, hpolls, h⟩ <;> refine h.trans (Eq.symm ?_)
  · exact (if_pos (on hh)).trans (if_pos hreq)
  · exact (if_pos (on hh)).trans ((if_neg (Bool.eq_false_iff.1 hreq)).trans ((if_pos hover).trans (if_pos hstall)))
  · have hread := not_or.2 ⟨Nat.not_lt.2 htrig, hwc⟩
    exact (if_pos (on hh)).trans ((if_neg (Bool.eq_false_iff.1 hreq)).trans ((if_pos hover).trans (if_neg hread)))
  · have hbelow := not_or.2 ⟨Nat.not_le.2 hpolls, Nat.not_le.2 hnoprog⟩
    exact (if_pos (on hh)).trans ((if_neg (Bool.eq_false_iff.1 hreq)).trans (if_neg hbelow))
  · exact (if_neg (off hh)).trans (if_pos hread)
  · have hwait := not_or.2 ⟨hkind, Nat.not_le.2 hwords⟩
    exact (if_neg (off hh)).trans ((if_neg hwait).trans (if_pos hover))
  · have hwait := not_or.2 ⟨hkind, Nat.not_le.2 hwords⟩
    exact (if_neg (off hh)).trans ((if_neg hwait).trans (if_neg (Nat.not_le.2 hpolls)))

/-- The block read of R252 written out. -/
theorem Readout.load_drawWords (r : Readout) (ring n : Nat) :
    r.load ring (r.drawWords n) =
      { r with
        out := (List.range n).map fun j =>
          Config.acqRead r.rdSeq (if bits r.cnfg 1 1 = 1#1 then r.cursor else 0#32) n j
        rdSeq := r.rdSeq + 1
        cursor :=
          if bits r.cnfg 1 1 = 1#1 then
            if r.sawReq = true then 0#32 else BitVec.ofNat 32 ((r.cursor.toNat + n) % ring)
          else r.cursor } := by
  simp only [Readout.load, Readout.drawWords_length, Readout.cursorAfter, Readout.ddr3En_iff]
  simp only [Readout.drawWords, Readout.readAddr, Readout.ddr3En_iff]

theorem finishStep_readStep (s : State) (n : Nat) :
    finishStep (s.readout.readStep s.params n) s =
      if n > s.params.roOutDepth then
        { s with
          error := s.error ||| 0x00020000#32
          readout := { s.readout with result := .overflow, state := .error } }
      else finishStep (s.readout.load s.params.ddr3RingWords (s.readout.drawWords n)).carve s := by
  rcases s.readout.readStep_cases s.params n with ⟨hover, h⟩ | ⟨hfits, h⟩ <;> rw [h]
  · rw [if_pos hover]
    rfl
  · rw [if_neg (Nat.not_lt.2 hfits)]

/-- Settles O44: both read steps end in the one of R252, but for the stall of a handshake without words. -/
theorem readSteps : Obligations.ReadSteps := by
  intro s
  dsimp only
  simp only [← Readout.load_drawWords]
  refine ⟨fun hs => ?_, fun hs => ?_⟩
  · rw [runEvent_engine, engineTurn_handshake s hs, Readout.handshakeRead, ← finishStep_readStep]
    split <;> rfl
  · rw [runEvent_engine, engineTurn_directRead s hs, Readout.directReadStep, finishStep_readStep]

/-! ## The stall and the recovery -/

theorem engineTurn_recoveryStop (s : State) (h : s.readout.state = .recoveryStop) :
    engineTurn s = setReadout { s.readout with state := .recoveryReset } (emit .trigStop s) := by
  simp only [engineTurn, h]

theorem engineTurn_recoveryReset (s : State) (h : s.readout.state = .recoveryReset) :
    engineTurn s = setReadout { s.readout with cursor := 0#32, state := .recoveryStart } (emit .bufReset s) := by
  simp only [engineTurn, h]

theorem engineTurn_recoveryStart (s : State) (h : s.readout.state = .recoveryStart) :
    engineTurn s = setReadout s.readout.restarted (emit .trigStart s) := by
  simp only [engineTurn, h]

theorem Readout.stall_recovers {r : Readout} (h : r.recovCount.toNat < r.maxRecovery.toNat) :
    r.stall = ({ r with state := .recoveryStop }, none) := if_pos h

theorem Readout.stall_fails {r : Readout} (h : r.maxRecovery.toNat ≤ r.recovCount.toNat) :
    r.stall = ({ r with result := .failed, state := .error }, some .roFailed) := if_neg (Nat.not_lt.2 h)

/-- Settles O46. -/
theorem stallAndRecoverySteps : Obligations.StallAndRecoverySteps := by
  refine ⟨fun s hs => ⟨fun hlt => ?_, fun hle => ?_⟩, fun s => ⟨fun hs => ?_, fun hs => ?_, fun hs => ?_⟩⟩ <;>
    rw [runEvent_engine]
  · rw [engineTurn_stalled s hs, Readout.stall_recovers hlt]
    rfl
  · rw [engineTurn_stalled s hs, Readout.stall_fails hle]
    rfl
  · rw [engineTurn_recoveryStop s hs]
    rfl
  · rw [engineTurn_recoveryReset s hs]
    rfl
  · rw [engineTurn_recoveryStart s hs]
    rfl

end Sys2Proof.Machine
end

