-- ==== Sys2Proof/Proofs/EngineRuns.lean ====
section
/-! PROOFS. What a turn of the readout engine does to the state, the counters and the trace, said once
(`Readout.Turn`), and what follows for runs of it: its transitions (O47), what justifies a read (O50), the pulses of
the recovery cycles (O48) and the bound on a request (O49). -/

namespace Sys2Proof.Machine

/-! ## What a turn can do -/

/-- A turn of the engine from `r` to `r'` with the pulses it emits, as 42_readout_engine.md R242 draws it. -/
inductive Readout.Turn (r r' : Readout) : List Pulse → Prop where
  | waits (hb : r.state.busy = false) (h : r' = r) : Turn r r' []
  | pollsOn (hs : r.state = .waitingForWords) (hs' : r'.state = .waitingForWords)
      (hlt : (r.polls + 1#32).toNat < r.timeoutPolls.toNat) (hp : r'.polls = r.polls + 1#32)
      (hc : r'.recovCount = r.recovCount) : Turn r r' []
  | waitEnds (hs : r.state = .waitingForWords)
      (hs' : r'.state = .handshake ∨ r'.state = .directRead ∨ r'.state = .stalled)
      (hc : r'.recovCount = r.recovCount) : Turn r r' []
  | readStalls (hs : r.state = .handshake) (hs' : r'.state = .stalled) (hc : r'.recovCount = r.recovCount) :
      Turn r r' []
  | readEnds (hs : r.state = .handshake ∨ r.state = .directRead) (hs' : r'.state = .decoded ∨ r'.state = .error)
      (hc : r'.recovCount = r.recovCount) : Turn r r' []
  | recovers (hs : r.state = .stalled) (hs' : r'.state = .recoveryStop)
      (hleft : r.recovCount.toNat < r.maxRecovery.toNat) (hc : r'.recovCount = r.recovCount) : Turn r r' []
  | fails (hs : r.state = .stalled) (hs' : r'.state = .error) (hc : r'.recovCount = r.recovCount) : Turn r r' []
  | stopsTriggers (hs : r.state = .recoveryStop) (hs' : r'.state = .recoveryReset)
      (hc : r'.recovCount = r.recovCount) : Turn r r' [.trigStop]
  | resetsBuffer (hs : r.state = .recoveryReset) (hs' : r'.state = .recoveryStart)
      (hc : r'.recovCount = r.recovCount) : Turn r r' [.bufReset]
  | restarts (hs : r.state = .recoveryStart) (hs' : r'.state = .waitingForWords) (hp : r'.polls = 0#32)
      (hc : r'.recovCount = r.recovCount + 1#8) : Turn r r' [.trigStart]

section

variable {r r' : Readout} {ps : List Pulse}

theorem Readout.poll_turn (smp : BufSample) (hs : r.state = .waitingForWords) : r.Turn (r.poll smp) [] := by
  rcases r.poll_cases smp with ⟨-, -, h⟩ | ⟨-, -, -, -, h⟩ | ⟨-, -, -, -, -, h⟩ | ⟨-, -, hlt, -, h⟩ | ⟨-, -, h⟩ |
    ⟨-, -, -, -, h⟩ | ⟨-, -, -, hlt, h⟩ <;> rw [h]
  · exact .waitEnds hs (.inl rfl) rfl
  · exact .waitEnds hs (.inr (.inr rfl)) rfl
  · exact .waitEnds hs (.inl rfl) rfl
  · exact .pollsOn hs hs hlt rfl rfl
  · exact .waitEnds hs (.inr (.inl rfl)) rfl
  · exact .waitEnds hs (.inr (.inr rfl)) rfl
  · exact .pollsOn hs hs hlt rfl rfl

theorem Readout.readStep_turn (p : Params) (n : Nat) (hs : r.state = .handshake ∨ r.state = .directRead) :
    r.Turn (r.readStep p n).1 [] := by
  obtain ⟨-, -, -, -, -, -, hc, -, hs'⟩ := r.readStep_frame p n
  exact .readEnds hs hs' hc

theorem Readout.handshakeRead_turn (p : Params) (hs : r.state = .handshake) : r.Turn (r.handshakeRead p).1 [] := by
  unfold Readout.handshakeRead
  split
  · exact .readStalls hs rfl rfl
  · exact readStep_turn p _ (.inl hs)

theorem Readout.stall_turn (hs : r.state = .stalled) : r.Turn r.stall.1 [] := by
  rcases Nat.lt_or_ge r.recovCount.toNat r.maxRecovery.toNat with hlt | hle
  · rw [stall_recovers hlt]
    exact .recovers hs rfl hlt rfl
  · rw [stall_fails hle]
    exact .fails hs rfl rfl

/-- The engine's turn is one of these, and the pulses are what it adds to the trace. -/
theorem engineTurn_turn (s : State) :
    ∃ ps, s.readout.Turn (engineTurn s).readout ps ∧ (engineTurn s).trace = s.trace ++ ps := by
  have silent {t : State} (h : s.readout.Turn t.readout []) (ht : t.trace = s.trace) :
      ∃ ps, s.readout.Turn t.readout ps ∧ t.trace = s.trace ++ ps := ⟨[], h, by rw [ht, List.append_nil]⟩
  cases hs : s.readout.state with
  | idle | decoded | error =>
    have hb : s.readout.state.busy = false := by rw [hs]; rfl
    rw [engineTurn_waits s hb]
    exact silent (.waits hb rfl) rfl
  | waitingForWords =>
    rw [engineTurn_waiting s hs]
    exact silent (Readout.poll_turn _ hs) rfl
  | handshake =>
    rw [engineTurn_handshake s hs]
    exact silent (by rw [finishStep_readout]; exact Readout.handshakeRead_turn _ hs) (finishStep_trace _ _)
  | directRead =>
    rw [engineTurn_directRead s hs]
    exact silent (by rw [finishStep_readout]; exact Readout.readStep_turn _ _ (.inr hs)) (finishStep_trace _ _)
  | stalled =>
    rw [engineTurn_stalled s hs]
    exact silent (by rw [finishStep_readout]; exact Readout.stall_turn hs) (finishStep_trace _ _)
  | recoveryStop =>
    rw [engineTurn_recoveryStop s hs]
    exact ⟨_, .stopsTriggers hs rfl rfl, rfl⟩
  | recoveryReset =>
    rw [engineTurn_recoveryReset s hs]
    exact ⟨_, .resetsBuffer hs rfl rfl, rfl⟩
  | recoveryStart =>
    rw [engineTurn_recoveryStart s hs]
    exact ⟨_, .restarts hs rfl rfl rfl, rfl⟩

/-- The engine writes no configuration register. -/
theorem engineTurn_sameConfig (s : State) : s.readout.SameConfig (engineTurn s).readout := by
  cases hb : s.readout.state.busy with
  | true => exact (engineTurn_keepsWindows s).config hb
  | false => rw [engineTurn_waits s hb]; exact .refl _

theorem Readout.SameConfig.maxRecovery (h : r.SameConfig r') : r'.maxRecovery = r.maxRecovery := by
  rw [Readout.maxRecovery, h.cnfg, Readout.maxRecovery]

/-! ## The transitions -/

/-- The states a turn can lead to (R242). -/
def RoState.successors : RoState → List RoState
  | .waitingForWords => [.waitingForWords, .handshake, .directRead, .stalled]
  | .handshake => [.decoded, .stalled, .error]
  | .directRead => [.decoded, .error]
  | .stalled => [.recoveryStop, .error]
  | .recoveryStop => [.recoveryReset]
  | .recoveryReset => [.recoveryStart]
  | .recoveryStart => [.waitingForWords]
  | .idle => [.idle]
  | .decoded => [.decoded]
  | .error => [.error]

theorem RoState.self_mem_successors {st : RoState} (h : st.busy = false) : st ∈ st.successors := by
  cases st with
  | idle | decoded | error => exact List.mem_singleton_self _
  | waitingForWords | handshake | directRead | stalled | recoveryStop | recoveryReset | recoveryStart => cases h

theorem Readout.Turn.state_mem (h : r.Turn r' ps) : r'.state ∈ r.state.successors := by
  cases h with
  | waits hb h => rw [h]; exact RoState.self_mem_successors hb
  | waitEnds hs hs' => rw [hs]; rcases hs' with hs' | hs' | hs' <;> simp [hs', RoState.successors]
  | readEnds hs hs' => rcases hs with hs | hs <;> rcases hs' with hs' | hs' <;> simp [hs, hs', RoState.successors]
  | pollsOn hs hs' | readStalls hs hs' | recovers hs hs' | fails hs hs' | stopsTriggers hs hs' | resetsBuffer hs hs'
  | restarts hs hs' => simp [hs, hs', RoState.successors]

theorem engineTurn_state_mem (s : State) : (engineTurn s).readout.state ∈ s.readout.state.successors := by
  obtain ⟨ps, h, -⟩ := engineTurn_turn s
  exact h.state_mem

theorem engineTurn_codec (s : State) : (engineTurn s).codec = s.codec := by
  unfold engineTurn
  cases s.readout.state with
  | handshake | directRead | stalled => exact finishStep_codec _ s
  | idle | waitingForWords | decoded | recoveryStop | recoveryReset | recoveryStart | error => rfl

/-- Settles O47. -/
theorem engineTransitions : Obligations.EngineTransitions := by
  intro s t h
  have hparams := (runEvent_readout _ s t h).1
  cases h
  have hmem := engineTurn_state_mem s
  have leadsTo {st : RoState} (hs : s.readout.state = st) : (engineTurn s).readout.state ∈ st.successors := hs ▸ hmem
  refine ⟨engineTurn_waits s, fun hs => ?_, fun hs => ?_, fun hs => ?_, fun hs => ?_, fun hs => ?_, fun hs => ?_,
    fun hs => ?_, engineTurn_codec s, engineTurn_link s, hparams⟩ <;>
    simpa [RoState.successors] using leadsTo hs

/-! ## What justifies a handshake read -/

/-- The request flag was sampled, or the latched sample has the triggers asked for and words to read (R248). -/
def Readout.ReadJustified (r : Readout) : Prop :=
  r.sawReq = true ∨ (r.targetTrig ≤ r.latTrig.toNat ∧ r.latWc ≠ 0#32)

/-- A poll that leaves the wait for a handshake saw the request flag, or forced the read with its conditions met. -/
theorem Readout.poll_justified (smp : BufSample) (hs : r.state = .waitingForWords)
    (hs' : (r.poll smp).state = .handshake) : (r.poll smp).ReadJustified := by
  rcases r.poll_cases smp with ⟨-, -, h⟩ | ⟨-, -, -, -, h⟩ | ⟨-, -, -, htrig, hwc, h⟩ | ⟨-, -, -, -, h⟩ | ⟨-, -, h⟩ |
    ⟨-, -, -, -, h⟩ | ⟨-, -, -, -, h⟩ <;> rw [h] at hs' ⊢
  · exact .inl rfl
  · cases hs'
  · exact .inr ⟨htrig, hwc⟩
  · exact absurd (hs.symm.trans hs') nofun
  · cases hs'
  · cases hs'
  · exact absurd (hs.symm.trans hs') nofun

theorem engineTurn_justified {s : State} (hs' : (engineTurn s).readout.state = .handshake) :
    (engineTurn s).readout.ReadJustified := by
  cases hs : s.readout.state with
  | waitingForWords =>
    rw [engineTurn_waiting s hs] at hs' ⊢
    exact Readout.poll_justified _ hs hs'
  | idle | handshake | directRead | decoded | stalled | recoveryStop | recoveryReset | recoveryStart | error =>
    have hmem := engineTurn_state_mem s
    rw [hs, hs'] at hmem
    simp [RoState.successors] at hmem

theorem ReadoutMove.justified {s : State} (h : ReadoutMove s r)
    (hs : s.readout.state = .handshake → s.readout.ReadJustified) (hr : r.state = .handshake) : r.ReadJustified := by
  cases h with
  | same => exact hs hr
  | abort | reset | startAv | startN => cases hr
  | cnfg w hb | timeout w hb | trig w hb | evsize w hb =>
    rw [show s.readout.state = .handshake from hr] at hb
    cases hb
  | turn => exact engineTurn_justified hr

/-- Settles O50: only the engine's turn comes to Handshake, and only the reset and the configuration writes, which do
not happen there, touch what the read is justified by. -/
theorem handshakeReadIsJustified : Obligations.HandshakeReadIsJustified := by
  intro s t hs h
  exact (runEvent_readout _ _ t h).2.justified (by rw [takeEvent_readout]; exact hs)

/-! ## The pulses of the recovery cycles -/

/-- A recovery under way is one that was left (R255): the half of `Readout.Paced` that holds from any wait, whatever
its count of polls. -/
def Readout.RecoveryLeft (r : Readout) : Prop :=
  r.state = .recoveryStop ∨ r.state = .recoveryReset ∨ r.state = .recoveryStart →
    r.recovCount.toNat < r.maxRecovery.toNat

theorem Readout.RecoveryLeft.of_state
    (h : r.state ≠ .recoveryStop ∧ r.state ≠ .recoveryReset ∧ r.state ≠ .recoveryStart) : r.RecoveryLeft := by
  rintro (h' | h' | h')
  exacts [absurd h' h.1, absurd h' h.2.1, absurd h' h.2.2]

/-- The pulses of the recovery cycle in progress. -/
def RoState.cycleBegun : RoState → List Pulse
  | .recoveryReset => [.trigStop]
  | .recoveryStart => [.trigStop, .bufReset]
  | _ => []

/-- The pulses of the recovery cycles done in a request, and of the one in progress (R260). -/
def Readout.recoveryPulses (r : Readout) : List Pulse :=
  (List.replicate r.recovCount.toNat recoveryTriple).flatten ++ r.state.cycleBegun

theorem Readout.Turn.recoveryLeft (h : r.Turn r' ps) (hcfg : r.SameConfig r') (hl : r.RecoveryLeft) :
    r'.RecoveryLeft := by
  have kept (hc : r'.recovCount = r.recovCount) (hlt : r.recovCount.toNat < r.maxRecovery.toNat) :
      r'.RecoveryLeft := fun _ => by rw [hc, hcfg.maxRecovery]; exact hlt
  cases h with
  | waits _ h => rw [h]; exact hl
  | recovers _ _ hleft hc => exact kept hc hleft
  | stopsTriggers hs _ hc => exact kept hc (hl (.inl hs))
  | resetsBuffer hs _ hc => exact kept hc (hl (.inr (.inl hs)))
  | waitEnds _ hs' => exact .of_state (by rcases hs' with hs' | hs' | hs' <;> simp [hs'])
  | readEnds _ hs' => exact .of_state (by rcases hs' with hs' | hs' <;> simp [hs'])
  | pollsOn _ hs' | readStalls _ hs' | fails _ hs' | restarts _ hs' => exact .of_state (by simp [hs'])

/-- Below the cap the count of recoveries does not wrap. -/
theorem Readout.recovCount_succ (h : r.recovCount.toNat < r.maxRecovery.toNat) :
    (r.recovCount + 1#8).toNat = r.recovCount.toNat + 1 := by
  have hmax := r.maxRecovery.isLt
  rw [BitVec.toNat_add]
  exact Nat.mod_eq_of_lt (by simp; omega)

/-- A turn that counts no recovery adds what it adds to the cycle in progress. -/
theorem Readout.recoveryPulses_of_count (hc : r'.recovCount = r.recovCount)
    (hb : r'.state.cycleBegun = r.state.cycleBegun ++ ps) : r'.recoveryPulses = r.recoveryPulses ++ ps := by
  rw [recoveryPulses, recoveryPulses, hc, hb, List.append_assoc]

/-- The pulses a turn emits are the next ones of the recovery cycles. -/
theorem Readout.Turn.recoveryPulses (h : r.Turn r' ps) (hl : r.RecoveryLeft) :
    r'.recoveryPulses = r.recoveryPulses ++ ps := by
  cases h with
  | waits _ h => rw [h, List.append_nil]
  | waitEnds hs hs' hc =>
    refine recoveryPulses_of_count hc ?_
    rcases hs' with hs' | hs' | hs' <;> rw [hs, hs'] <;> rfl
  | readEnds hs hs' hc =>
    refine recoveryPulses_of_count hc ?_
    rcases hs with hs | hs <;> rcases hs' with hs' | hs' <;> rw [hs, hs'] <;> rfl
  | pollsOn hs hs' _ _ hc | readStalls hs hs' hc | recovers hs hs' _ hc | fails hs hs' hc | stopsTriggers hs hs' hc
  | resetsBuffer hs hs' hc => exact recoveryPulses_of_count hc (by rw [hs, hs']; rfl)
  | restarts hs hs' _ hc =>
    have hcount := recovCount_succ (hl (.inr (.inr hs)))
    rw [Readout.recoveryPulses, Readout.recoveryPulses, hs, hs', hc, hcount, List.replicate_succ', List.flatten_append]
    simp [RoState.cycleBegun, recoveryTriple]

theorem engineTurns_recoveryPulses (k : Nat) {s : State} (hl : s.readout.RecoveryLeft) :
    ∃ ps, (engineTurns k s).trace = s.trace ++ ps
      ∧ (engineTurns k s).readout.recoveryPulses = s.readout.recoveryPulses ++ ps := by
  induction k generalizing s with
  | zero => exact ⟨[], (List.append_nil _).symm, (List.append_nil _).symm⟩
  | succ k ih =>
    obtain ⟨now, hturn, htrace⟩ := engineTurn_turn s
    obtain ⟨later, htrace', hpulses⟩ := ih (hturn.recoveryLeft (engineTurn_sameConfig s) hl)
    refine ⟨now ++ later, ?_, ?_⟩
    · rw [engineTurns, htrace', htrace, List.append_assoc]
    · rw [engineTurns, hpulses, hturn.recoveryPulses hl, List.append_assoc]

/-- Settles O48: at the start of a request no pulse of a recovery is due. -/
theorem recoveryTriplesOnTheTrace : Obligations.RecoveryTriplesOnTheTrace := by
  intro s hs hc k
  obtain ⟨ps, htrace, hpulses⟩ := engineTurns_recoveryPulses k (s := s) (.of_state (by simp [hs]))
  have hstart : s.readout.recoveryPulses = [] := by rw [Readout.recoveryPulses, hs, hc]; rfl
  rw [hstart, List.nil_append] at hpulses
  rw [htrace, ← hpulses, Readout.recoveryPulses, List.append_assoc]
  cases (engineTurns k s).readout.state <;> rfl

/-! ## The bound on a request -/

/-- The unseen polls a wait makes at most (R263). -/
def Readout.waitPolls (r : Readout) : Nat := max r.timeoutPolls.toNat 1

theorem Readout.waitPolls_lt (r : Readout) : r.waitPolls < 2 ^ 32 :=
  max_lt r.timeoutPolls.isLt (by decide)

theorem Readout.SameConfig.waitPolls (h : r.SameConfig r') : r'.waitPolls = r.waitPolls := by
  rw [Readout.waitPolls, h.timeoutPolls, Readout.waitPolls]

/-- The rounds that can follow the one the engine is in, where the recovery steps belong to the round they begin. -/
def Readout.roundsLeft (r : Readout) : Nat :=
  match r.state with
  | .recoveryStop | .recoveryReset | .recoveryStart => r.maxRecovery.toNat - (r.recovCount.toNat + 1)
  | _ => r.maxRecovery.toNat - r.recovCount.toNat

/-- The turns the engine takes at most to the end of its round: three of recovery, the polls of a wait of which
`polls` are made, a read and a stall. -/
def RoState.turnsInRound (wait polls : Nat) : RoState → Nat
  | .recoveryStop => wait + 5
  | .recoveryReset => wait + 4
  | .recoveryStart => wait + 3
  | .waitingForWords => wait - polls + 2
  | .handshake => 2
  | .directRead => 1
  | .stalled => 1
  | .idle | .decoded | .error => 0

/-- The turns the engine takes at most in a request; `Readout.stepsLeft` bounds them too, but too coarsely for R263. -/
def Readout.turnsLeft (r : Readout) : Nat :=
  r.roundsLeft * (r.waitPolls + 5) + r.state.turnsInRound r.waitPolls r.polls.toNat

/-- The polls made in a wait are below its bound. -/
theorem Readout.Paced.polls_lt (h : r.Paced) (hs : r.state = .waitingForWords) : r.polls.toNat < r.waitPolls := by
  rcases h.waitingPolls hs with h0 | hlt
  · rw [h0]; exact Nat.lt_of_lt_of_le Nat.zero_lt_one (le_max_right _ _)
  · exact Nat.lt_of_lt_of_le hlt (le_max_left _ _)

/-- A turn that begins no round lowers the bound with the turns left in its round. -/
theorem Readout.turnsLeft_lt_in_round (hcfg : r.SameConfig r') (hrounds : r'.roundsLeft = r.roundsLeft)
    (h : r'.state.turnsInRound r.waitPolls r'.polls.toNat < r.state.turnsInRound r.waitPolls r.polls.toNat) :
    r'.turnsLeft < r.turnsLeft := by
  rw [turnsLeft, hrounds, hcfg.waitPolls]
  exact Nat.add_lt_add_left h _

/-- The recovery a stall begins opens a round, one of those that were left. -/
theorem Readout.turnsLeft_lt_of_recovers (hcfg : r.SameConfig r') (hs : r.state = .stalled)
    (hs' : r'.state = .recoveryStop) (hleft : r.recovCount.toNat < r.maxRecovery.toNat)
    (hc : r'.recovCount = r.recovCount) : r'.turnsLeft < r.turnsLeft := by
  have hrounds : r.roundsLeft = r'.roundsLeft + 1 := by
    simp only [roundsLeft, hs, hs', hc, hcfg.maxRecovery]
    omega
  rw [turnsLeft, turnsLeft, hcfg.waitPolls, hrounds, hs, hs', Nat.succ_mul]
  exact Nat.lt_succ_self _

/-- Every turn of the busy engine lowers the bound. -/
theorem Readout.Turn.turnsLeft_lt (h : r.Turn r' ps) (hcfg : r.SameConfig r') (hb : r.state.busy = true)
    (hp : r.Paced) : r'.turnsLeft < r.turnsLeft := by
  have hmax := hcfg.maxRecovery
  cases h with
  | waits hb' => rw [hb] at hb'; cases hb'
  | pollsOn hs hs' hlt hpolls hc =>
    have hwait := hp.polls_lt hs
    have hnowrap : r'.polls.toNat = r.polls.toNat + 1 := by
      have htimeout := r.waitPolls_lt
      rw [hpolls, BitVec.toNat_add]
      exact Nat.mod_eq_of_lt (by simp; omega)
    refine turnsLeft_lt_in_round hcfg (by simp only [roundsLeft, hs, hs', hc, hmax]) ?_
    simp only [hs, hs', hnowrap, RoState.turnsInRound]
    omega
  | waitEnds hs hs' hc =>
    have hwait := hp.polls_lt hs
    rcases hs' with hs' | hs' | hs' <;>
      refine turnsLeft_lt_in_round hcfg (by simp only [roundsLeft, hs, hs', hc, hmax]) ?_ <;>
      simp only [hs, hs', RoState.turnsInRound] <;> omega
  | readEnds hs hs' hc =>
    rcases hs with hs | hs <;> rcases hs' with hs' | hs' <;>
      exact turnsLeft_lt_in_round hcfg (by simp only [roundsLeft, hs, hs', hc, hmax])
        (by simp [hs, hs', RoState.turnsInRound])
  | recovers hs hs' hleft hc => exact turnsLeft_lt_of_recovers hcfg hs hs' hleft hc
  | readStalls hs hs' hc | fails hs hs' hc | stopsTriggers hs hs' hc | resetsBuffer hs hs' hc =>
    exact turnsLeft_lt_in_round hcfg (by simp only [roundsLeft, hs, hs', hc, hmax])
      (by simp [hs, hs', RoState.turnsInRound])
  | restarts hs hs' hpolls hc =>
    have hcount := recovCount_succ (hp.recoveryLeft (.inr (.inr hs)))
    exact turnsLeft_lt_in_round hcfg (by simp only [roundsLeft, hs, hs', hc, hcount, hmax])
      (by simp [hs, hs', hpolls, RoState.turnsInRound])

end

/-- No turn leads to Idle from another state. -/
theorem engineTurn_not_idle {s : State} (h : s.readout.state ≠ .idle) : (engineTurn s).readout.state ≠ .idle := by
  have hmem := engineTurn_state_mem s
  intro h'
  rw [h'] at hmem
  revert h hmem
  cases s.readout.state <;> decide

theorem RoState.ended_of_not_busy {st : RoState} (hb : st.busy = false) (hi : st ≠ .idle) :
    st = .decoded ∨ st = .error := by
  cases st with
  | idle => exact absurd rfl hi
  | decoded => exact .inl rfl
  | error => exact .inr rfl
  | waitingForWords | handshake | directRead | stalled | recoveryStop | recoveryReset | recoveryStart => cases hb

/-- From any state but Idle the engine's turns come to Decoded or Error within the bound. -/
theorem engineTurns_ends {s : State} (hp : s.readout.Paced) (hi : s.readout.state ≠ .idle) :
    ∃ k ≤ s.readout.turnsLeft,
      (engineTurns k s).readout.state = .decoded ∨ (engineTurns k s).readout.state = .error := by
  induction hn : s.readout.turnsLeft using Nat.strong_induction_on generalizing s with
  | _ n ih =>
    cases hb : s.readout.state.busy with
    | false => exact ⟨0, Nat.zero_le _, RoState.ended_of_not_busy hb hi⟩
    | true =>
      obtain ⟨_, hturn, -⟩ := engineTurn_turn s
      have hlt := hturn.turnsLeft_lt (engineTurn_sameConfig s) hb hp
      obtain ⟨k, hk, hend⟩ :=
        ih _ (hn ▸ hlt) (engineTurn_advances hb hp).1 (engineTurn_not_idle hi) rfl
      exact ⟨k + 1, by omega, hend⟩

/-- The bound at the start of a request is within the rule's. -/
theorem Readout.turnsLeft_start {r : Readout} (hs : r.state = .waitingForWords) (hp : r.polls = 0#32)
    (hc : r.recovCount = 0#8) :
    r.turnsLeft ≤ (r.maxRecovery.toNat + 1) * r.waitPolls + (6 * r.maxRecovery.toNat + 3) := by
  have hleft : r.turnsLeft = r.maxRecovery.toNat * (r.waitPolls + 5) + (r.waitPolls + 2) := by
    simp [turnsLeft, roundsLeft, hs, hp, hc, RoState.turnsInRound]
  rw [hleft, Nat.mul_add, Nat.succ_mul]
  omega

/-- Settles O49. -/
theorem everyRequestEnds : Obligations.EveryRequestEnds := by
  intro s hs hp hc
  have hpaced : s.readout.Paced := ⟨fun _ => .inl hp, by simp [hs]⟩
  obtain ⟨k, hk, hend⟩ := engineTurns_ends hpaced (by simp [hs])
  exact ⟨k, hk.trans (Readout.turnsLeft_start hs hp hc), hend⟩

end Sys2Proof.Machine
end

/-! PROOFS. The chunks of a batch (43_host_sequences.md R295): a chunk as the longest start of what remains that both
queues hold, the split of a batch into such chunks, and when the split answers (O60). -/

namespace Sys2Proof.Machine

section

variable {n nw nr : Nat} {ws ch rest : List Word}

@[simp] theorem dueReplies_nil (n : Nat) : dueReplies n [] = 0 := rfl

@[simp] theorem dueReplies_cons (n : Nat) (w : Word) (ws : List Word) :
    dueReplies n (w :: ws) = nomReplies n w + dueReplies n ws := by
  simp [dueReplies]

theorem nomReplies_le_dueReplies {w : Word} (h : w ∈ ws) : nomReplies n w ≤ dueReplies n ws :=
  List.le_sum_of_mem (List.mem_map_of_mem h)

/-! ## One chunk -/

/-- `ch` is the longest start of `ws` with at most `nw` words and at most `nr` replies due, and `rest` what remains. -/
structure LongestPrefix (n nw nr : Nat) (ws ch rest : List Word) : Prop where
  split : ch ++ rest = ws
  words_le : ch.length ≤ nw
  due_le : dueReplies n ch ≤ nr
  maximal : ∀ w tail, rest = w :: tail → nw < (ch ++ [w]).length ∨ nr < dueReplies n (ch ++ [w])

/-- Nothing is taken where the first word is one too many for a queue. -/
theorem LongestPrefix.empty {w : Word} (h : nw = 0 ∨ nr < nomReplies n w) :
    LongestPrefix n nw nr (w :: ws) [] (w :: ws) where
  split := rfl
  words_le := Nat.zero_le _
  due_le := Nat.zero_le _
  maximal := by
    rintro _ _ ⟨⟩
    simpa using h

/-- A word both queues hold, before the longest start for the room it leaves. -/
theorem LongestPrefix.cons {w : Word} (hw : nomReplies n w ≤ nr)
    (h : LongestPrefix n nw (nr - nomReplies n w) ws ch rest) :
    LongestPrefix n (nw + 1) nr (w :: ws) (w :: ch) rest where
  split := congrArg (w :: ·) h.split
  words_le := Nat.succ_le_succ h.words_le
  due_le := by
    have hdue := h.due_le
    rw [dueReplies_cons]
    omega
  maximal v tail hrest := by
    have hmax := h.maximal v tail hrest
    simp only [List.cons_append, List.length_cons, dueReplies_cons]
    omega

theorem takeChunk_longestPrefix (n nw nr : Nat) (ws : List Word) :
    LongestPrefix n nw nr ws (takeChunk n nw nr ws).1 (takeChunk n nw nr ws).2 := by
  induction ws generalizing nw nr with
  | nil => cases nw <;> exact ⟨rfl, Nat.zero_le _, Nat.zero_le _, nofun⟩
  | cons w ws ih =>
    cases nw with
    | zero => exact .empty (.inl rfl)
    | succ nw =>
      rw [takeChunk]
      split
      case isTrue hw => exact (ih nw _).cons hw
      case isFalse hw => exact .empty (.inr (Nat.lt_of_not_le hw))

/-- The longest start takes at least the first word, where both queues hold it. -/
theorem LongestPrefix.ne_nil {w : Word} (hnw : 1 ≤ nw) (hw : nomReplies n w ≤ nr)
    (h : LongestPrefix n nw nr (w :: ws) ch rest) : ch ≠ [] := by
  rintro rfl
  have hmax := h.maximal w ws h.split
  simp only [List.nil_append, List.length_singleton, dueReplies_cons, dueReplies_nil] at hmax
  omega

theorem LongestPrefix.rest_length_lt (hch : ch ≠ []) (h : LongestPrefix n nw nr ws ch rest) :
    rest.length < ws.length := by
  have hpos := List.length_pos_of_ne_nil hch
  rw [← h.split, List.length_append]
  omega

end

/-! ## The split -/

/-- `chs` splits `ws` as R295 says: each chunk is the longest start of what remains, and none is empty. -/
inductive Chunking (hp : HostParams) (n : Nat) : List Word → List (List Word) → Prop where
  | nil : Chunking hp n [] []
  | cons {ws ch rest : List Word} {chs : List (List Word)}
      (longest : LongestPrefix n hp.cmdFifoDepth hp.replyFifoDepth ws ch rest) (ne_nil : ch ≠ [])
      (later : Chunking hp n rest chs) : Chunking hp n ws (ch :: chs)

section

variable {hp : HostParams} {n : Nat} {ws : List Word} {chs : List (List Word)}

theorem Chunking.flatten (h : Chunking hp n ws chs) : chs.flatten = ws := by
  induction h with
  | nil => rfl
  | cons longest _ _ ih => rw [List.flatten_cons, ih, longest.split]

theorem Chunking.fits (h : Chunking hp n ws chs) :
    ∀ ch ∈ chs, ch ≠ [] ∧ ch.length ≤ hp.cmdFifoDepth ∧ dueReplies n ch ≤ hp.replyFifoDepth := by
  induction h with
  | nil => exact nofun
  | cons longest ne_nil _ ih =>
    exact List.forall_mem_cons.2 ⟨⟨ne_nil, longest.words_le, longest.due_le⟩, ih⟩

/-- No word of a batch that is split exceeds the reply queue alone. -/
theorem Chunking.nomReplies_le (h : Chunking hp n ws chs) : ∀ w ∈ ws, nomReplies n w ≤ hp.replyFifoDepth := by
  intro w hw
  rw [← h.flatten] at hw
  obtain ⟨ch, hch, hw⟩ := List.mem_flatten.1 hw
  obtain ⟨-, -, hdue⟩ := h.fits ch hch
  exact (nomReplies_le_dueReplies hw).trans hdue

/-- The chunks after the first ones are the split of what those leave. -/
theorem Chunking.drop {before : List (List Word)} (h : Chunking hp n ws (before ++ chs)) :
    ∃ rest, Chunking hp n rest chs := by
  induction before generalizing ws with
  | nil => exact ⟨ws, h⟩
  | cons _ _ ih =>
    cases h with
    | cons _ _ later => exact ih later

/-- A chunk with another after it cannot take that one's first word as well. -/
theorem Chunking.maximal {before after : List (List Word)} {ch tail : List Word} {w : Word}
    (h : Chunking hp n ws (before ++ ch :: (w :: tail) :: after)) :
    hp.cmdFifoDepth < (ch ++ [w]).length ∨ hp.replyFifoDepth < dueReplies n (ch ++ [w]) := by
  obtain ⟨_, h⟩ := h.drop
  cases h with
  | cons longest _ later => exact longest.maximal w (tail ++ after.flatten) later.flatten.symm

/-- What the chunking answers is such a split. -/
theorem chunksFrom_chunking (hd : 1 ≤ hp.cmdFifoDepth) {fuel : Nat} (h : chunksFrom hp n fuel ws = some chs) :
    Chunking hp n ws chs := by
  induction fuel generalizing ws chs with
  | zero =>
    cases ws with
    | nil => cases h; exact .nil
    | cons => cases h
  | succ fuel ih =>
    cases ws with
    | nil => cases h; exact .nil
    | cons w ws =>
      rw [chunksFrom] at h
      split at h
      case isTrue => cases h
      case isFalse hw =>
        obtain ⟨later, hlater, rfl⟩ := Option.map_eq_some_iff.1 h
        have hlong := takeChunk_longestPrefix n hp.cmdFifoDepth hp.replyFifoDepth (w :: ws)
        exact .cons hlong (hlong.ne_nil hd (Nat.le_of_not_lt hw)) (ih hlater)

/-- The chunking answers when the reply queue holds each word's replies and the fuel counts the words. -/
theorem chunksFrom_answers (hd : 1 ≤ hp.cmdFifoDepth) {fuel : Nat} (hfuel : ws.length ≤ fuel)
    (hws : ∀ w ∈ ws, nomReplies n w ≤ hp.replyFifoDepth) : ∃ chunks, chunksFrom hp n fuel ws = some chunks := by
  induction fuel generalizing ws with
  | zero =>
    obtain rfl := List.length_eq_zero_iff.1 (Nat.le_zero.1 hfuel)
    exact ⟨[], rfl⟩
  | succ fuel ih =>
    cases ws with
    | nil => exact ⟨[], rfl⟩
    | cons w ws =>
      have hw := hws w List.mem_cons_self
      have hlong := takeChunk_longestPrefix n hp.cmdFifoDepth hp.replyFifoDepth (w :: ws)
      have hlt := hlong.rest_length_lt (hlong.ne_nil hd hw)
      obtain ⟨later, hlater⟩ := ih (Nat.le_of_lt_succ (hlt.trans_le hfuel)) fun v hv =>
        hws v (hlong.split ▸ List.mem_append_right _ hv)
      rw [chunksFrom, if_neg (Nat.not_lt.2 hw), hlater]
      exact ⟨_, rfl⟩

end

/-- Settles O60. -/
theorem chunksCoverTheBatch : Obligations.ChunksCoverTheBatch := by
  intro hp n words hd
  refine ⟨⟨?_, chunksFrom_answers hd le_rfl⟩, ?_⟩
  · rintro ⟨chunks, h⟩
    exact (chunksFrom_chunking hd h).nomReplies_le
  · intro chunks h
    have hsplit := chunksFrom_chunking hd h
    refine ⟨hsplit.flatten, hsplit.fits, ?_⟩
    rintro before after ch tail w rfl
    exact hsplit.maximal

end Sys2Proof.Machine
